-- ==== Sys2Proof/Word.lean ====
section
/-! DEFINITION. The word types of the block: bytes, 32-bit register words and u64 sequence numbers (00_scope.md R10). -/

namespace Sys2Proof

/-- A byte of PMEM, and a GF(256) element (00_scope.md R12). -/
abbrev Byte := BitVec 8

/-- A memory-mapped register, a command word or a latched argument (10_state.md R22). -/
abbrev Word := BitVec 32

/-- A u64 sequence number, "64-bit identifier of an original packet" (00_scope.md R14). -/
abbrev Seq := BitVec 64

end Sys2Proof
end

