-- ==== Sys2Proof/Config.lean ====
section
/-! DEFINITION. What an implementation fixes: the parameters of 00_scope.md R7, and the opaque bytes that stand for the
values the spec calls unpredictable (70_reset_and_hazards.md R240 and R242; 93_implementation_defined.md U2 and U3). -/

namespace Sys2Proof

/-- The implementation parameters of 00_scope.md R7, with `irqLine`, the platform's interrupt number of
92_eei_decisions.md D34. They are configuration, not state (10_state.md R20): every step leaves them as they are.
`blockBase` and `irqLine` belong to the platform and no rule of the block reads them. -/
structure Config where
  /-- GF_POLY, the degree-8 reduction polynomial as a 9-bit value. -/
  gfPoly : BitVec 9
  /-- CAUCHY_OFFSET, the column offset of `cauchy`. -/
  cauchyOffset : Byte
  /-- ENC_WINDOW, the capacity of the encoder window. -/
  encWindow : Nat
  /-- MAX_COLS, the longest span and the most lost columns of a solve. -/
  maxCols : Nat
  /-- MAX_ROWS, the most rows of a solve. -/
  maxRows : Nat
  /-- MAX_PAYLOAD, the longest original payload in bytes, without its prefix. -/
  maxPayload : Nat
  /-- PMEM_BYTES, the size of the payload memory. -/
  pmemBytes : Nat
  /-- BLOCK_BASE, the host bus address of the aperture. -/
  blockBase : Nat
  /-- IRQ_LINE, the platform's number for the irq output. -/
  irqLine : Nat
  deriving DecidableEq, Repr

/-- The defaults of 00_scope.md R7. CAUCHY_OFFSET, BLOCK_BASE and IRQ_LINE are OPEN there: 0x80 is the value the spec's
vectors use, the other two are 0. DESIGN CHOICE (assumption log 2). unsafe: a statement about `Config.default` alone says
nothing of a block built with other values, so statements range over every `Config`. -/
def Config.default : Config where
  gfPoly := 0x14D
  cauchyOffset := 0x80
  encWindow := 16
  maxCols := 16
  maxRows := 32
  maxPayload := 1024
  pmemBytes := 65536
  blockBase := 0
  irqLine := 0

/-- MAX_SOLUTION_BYTES = MAX_PAYLOAD + 2 (00_scope.md R8). -/
def Config.maxSolutionBytes (cfg : Config) : Nat := cfg.maxPayload + 2

/-- The byte that PMEM offset `addr` takes in draw number `draw`, where the spec calls the byte unspecified or
unpredictable: after an assertion of the reset input (70_reset_and_hazards.md R240) and in the write set of a command that
a reset abandons (R242). It has no body, so a statement holds whatever the bytes are. safe (assumption log 6). -/
opaque Config.freeByte (draw addr : Nat) : Byte

end Sys2Proof
end

