-- ==== Sys2Proof/Machine/Field.lean ====
section
/-! DEFINITION. The field GF(2^8) and the Cauchy coefficients (40_gf256.md R110 to R118), for every GF_POLY and
CAUCHY_OFFSET. -/

namespace Sys2Proof.Machine

/-- Addition, "`gf_add(a, b) = a XOR b`" (40_gf256.md R111). -/
def gfAdd (a b : Byte) : Byte := a ^^^ b

/-- The loop of 40_gf256.md R112, `k` turns from the end, on `r`, `x` (held in 9 bits) and `y`. -/
def gfMulLoop (poly : BitVec 9) : Nat → BitVec 9 → BitVec 9 → Byte → BitVec 9
  | 0, r, _, _ => r
  | k + 1, r, x, y =>
    gfMulLoop poly k
      (if y.getLsbD 0 then r ^^^ x else r)
      (if (x <<< 1).getLsbD 8 then (x <<< 1) ^^^ poly else x <<< 1)
      (y >>> 1)

/-- Multiplication modulo the polynomial (40_gf256.md R112). -/
def gfMul (poly : BitVec 9) (a b : Byte) : Byte :=
  (gfMulLoop poly 8 0 (a.setWidth 9) b).setWidth 8

/-- The product of `acc` and the `k` successive squares `sq`, `sq²`, and so on. -/
def gfSquares (poly : BitVec 9) : Nat → Byte → Byte → Byte
  | 0, _, acc => acc
  | k + 1, sq, acc => gfSquares poly k (gfMul poly sq sq) (gfMul poly acc sq)

/-- Inverse of a nonzero byte: "It equals b^254" (40_gf256.md R113), which is b²·b⁴·…·b^128. "gf_inv(0) is not defined, and
no rule of this spec evaluates it: every use is guarded." -/
def gfInv (poly : BitVec 9) (b : Byte) : Byte := gfSquares poly 7 (gfMul poly b b) 1

/-- Division by a nonzero byte (40_gf256.md R114). -/
def gfDiv (poly : BitVec 9) (a b : Byte) : Byte := gfMul poly a (gfInv poly b)

/-- `den(row, col) = row XOR ((col + CAUCHY_OFFSET) mod 256)` (40_gf256.md R117). -/
def den (cfg : Config) (row col : Byte) : Byte := row ^^^ (col + cfg.cauchyOffset)

/-- `cauchy(row, col) = gf_inv(den(row, col))`, where den is not 0 (40_gf256.md R117). -/
def cauchy (cfg : Config) (row col : Byte) : Byte := gfInv cfg.gfPoly (den cfg row col)

/-- The coefficient of a row for the column byte `col`: 1 for the parity row (40_gf256.md R118). -/
def coefCol (cfg : Config) (row col : Byte) : Byte := if row = 0 then 1 else cauchy cfg row col

/-- The column byte of sequence `s` is s mod 256 (41_rowgen_encoder.md R149). -/
def columnByte (s : Nat) : Byte := BitVec.ofNat 8 s

/-- `coef(row, s)` (40_gf256.md R118). -/
def coef (cfg : Config) (row : Byte) (s : Nat) : Byte := coefCol cfg row (columnByte s)

/-- Whether a coefficient of `row` at the column byte `col` is degenerate: row ≠ 0 and den = 0 (40_gf256.md R117). -/
def degenerateAt (cfg : Config) (row col : Byte) : Bool := row != 0 && den cfg row col == 0

/-- Element by element addition of two arrays of one length. -/
def addRow (xs ys : List Byte) : List Byte := List.zipWith gfAdd xs ys

/-- `gf_mul(c, X)` on an array, element by element (00_scope.md R12). -/
def scaleRow (poly : BitVec 9) (c : Byte) (xs : List Byte) : List Byte := xs.map (gfMul poly c)

end Sys2Proof.Machine
end

