-- ==== Sys2Proof/Syntax.lean ====
section
/-! DEFINITION. The commands of the block: one constructor for each row of spec/opcode_table.json (30_encoding.md R92). -/

namespace Sys2Proof

/-- A command of the block (30_encoding.md R92). The operands are the immediates A and B of the command word, bytes by
30_encoding.md R91; the wide operands come from the latched arguments, which are state. -/
inductive Instr where
  /-- `NOP` (OP 0x00). -/
  | nop
  /-- `GF_ADD a, b` (OP 0x01). -/
  | gfAdd (a b : Byte)
  /-- `GF_MUL a, b` (OP 0x02). -/
  | gfMul (a b : Byte)
  /-- `GF_DIV a, b` (OP 0x03). -/
  | gfDiv (a b : Byte)
  /-- `GF_CAUCHY row, col` (OP 0x04). -/
  | gfCauchy (row col : Byte)
  /-- `MULADD_MEM c` (OP 0x08), on dst, src and n in ARG0, ARG1 and ARG2. -/
  | muladdMem (c : Byte)
  /-- `MUL_MEM c` (OP 0x09), on dst, src and n in ARG0, ARG1 and ARG2. -/
  | mulMem (c : Byte)
  /-- `GEN_ROW row` (OP 0x10), on dst, list and n in ARG0, ARG1 and ARG2. -/
  | genRow (row : Byte)
  /-- `ENC_ORIGINAL` (OP 0x11), on addr and len in ARG0 and ARG1. -/
  | encOriginal
  /-- `ENC_RECOVERY` (OP 0x12), on dst in ARG0. -/
  | encRecovery
  /-- `ENC_RESET` (OP 0x13). -/
  | encReset
  /-- `SOLVE` (OP 0x20), on the problem's offset D in ARG0. -/
  | solve
  deriving DecidableEq, Repr

end Sys2Proof
end

