-- ==== Sys2Proof/Decode.lean ====
section
/-! DEFINITION. The decoder of command words (30_encoding.md R93), total on every 32-bit word, and the encoder (R92, R99). -/

namespace Sys2Proof

/-- Why a word spells no command (30_encoding.md R93). -/
inductive IllegalWord where
  /-- OP is not an opcode of R92. -/
  | undefinedOpcode
  /-- Z, bits [31:24], is not 0. -/
  | zNotZero
  /-- A, bits [15:8], is not 0 in a row that marks it 0. -/
  | aNotZero
  /-- B, bits [23:16], is not 0 in a row that marks it 0. -/
  | bNotZero
  deriving DecidableEq, Repr

/-- What the decoder answers: "every 32-bit word decodes to a command of rule R92 or to `Illegal`" (30_encoding.md R93). -/
inductive Decoded where
  | command (i : Instr)
  | illegal (why : IllegalWord)
  deriving DecidableEq, Repr

/-- OP, bits [7:0] of a command word (30_encoding.md R90). -/
def fieldOp (w : Word) : Byte := w.extractLsb' 0 8

/-- A, bits [15:8] of a command word (30_encoding.md R90). -/
def fieldA (w : Word) : Byte := w.extractLsb' 8 8

/-- B, bits [23:16] of a command word (30_encoding.md R90). -/
def fieldB (w : Word) : Byte := w.extractLsb' 16 8

/-- Z, bits [31:24] of a command word (30_encoding.md R90). -/
def fieldZ (w : Word) : Byte := w.extractLsb' 24 8

/-- A row whose A and B must be 0. -/
def decodePlain (a b : Byte) (i : Instr) : Decoded :=
  if a ≠ 0 then .illegal .aNotZero
  else if b ≠ 0 then .illegal .bNotZero
  else .command i

/-- A row with the operand A, whose B must be 0. -/
def decodeA (a b : Byte) (f : Byte → Instr) : Decoded :=
  if b ≠ 0 then .illegal .bNotZero else .command (f a)

/-- A row with both operands A and B. -/
def decodeAB (a b : Byte) (f : Byte → Byte → Instr) : Decoded := .command (f a b)

/-- The opcode map (30_encoding.md R92) on the fields OP, A and B. -/
def decodeOp (op a b : Byte) : Decoded :=
  if op = 0x00 then decodePlain a b .nop
  else if op = 0x01 then decodeAB a b .gfAdd
  else if op = 0x02 then decodeAB a b .gfMul
  else if op = 0x03 then decodeAB a b .gfDiv
  else if op = 0x04 then decodeAB a b .gfCauchy
  else if op = 0x08 then decodeA a b .muladdMem
  else if op = 0x09 then decodeA a b .mulMem
  else if op = 0x10 then decodeA a b .genRow
  else if op = 0x11 then decodePlain a b .encOriginal
  else if op = 0x12 then decodePlain a b .encRecovery
  else if op = 0x13 then decodePlain a b .encReset
  else if op = 0x20 then decodePlain a b .solve
  else .illegal .undefinedOpcode

/-- The decoder (30_encoding.md R92 and R93). -/
def decode (w : Word) : Decoded :=
  if fieldZ w ≠ 0 then .illegal .zNotZero else decodeOp (fieldOp w) (fieldA w) (fieldB w)

/-- The command a word spells, if any. -/
def Decoded.toOption : Decoded → Option Instr
  | .command i => some i
  | .illegal _ => none

/-- The opcode of a command (30_encoding.md R92). -/
def Instr.opcode : Instr → Byte
  | .nop => 0x00
  | .gfAdd _ _ => 0x01
  | .gfMul _ _ => 0x02
  | .gfDiv _ _ => 0x03
  | .gfCauchy _ _ => 0x04
  | .muladdMem _ => 0x08
  | .mulMem _ => 0x09
  | .genRow _ => 0x10
  | .encOriginal => 0x11
  | .encRecovery => 0x12
  | .encReset => 0x13
  | .solve => 0x20

/-- The operand A of a command, 0 where its row marks the field 0 (30_encoding.md R92). -/
def Instr.immA : Instr → Byte
  | .nop => 0
  | .gfAdd a _ => a
  | .gfMul a _ => a
  | .gfDiv a _ => a
  | .gfCauchy row _ => row
  | .muladdMem c => c
  | .mulMem c => c
  | .genRow row => row
  | .encOriginal => 0
  | .encRecovery => 0
  | .encReset => 0
  | .solve => 0

/-- The operand B of a command, 0 where its row marks the field 0 (30_encoding.md R92). -/
def Instr.immB : Instr → Byte
  | .nop => 0
  | .gfAdd _ b => b
  | .gfMul _ b => b
  | .gfDiv _ b => b
  | .gfCauchy _ col => col
  | .muladdMem _ => 0
  | .mulMem _ => 0
  | .genRow _ => 0
  | .encOriginal => 0
  | .encRecovery => 0
  | .encReset => 0
  | .solve => 0

/-- "The spelling encodes as `w = zext_32(OP) | A << 8 | B << 16`" (30_encoding.md R99). -/
def encode (i : Instr) : Word :=
  i.opcode.setWidth 32 ||| (i.immA.setWidth 32 <<< 8) ||| (i.immB.setWidth 32 <<< 16)

/-- The low `nbits` bits of `w` as a command word, every bit above them 0. -/
def tableWord (nbits w : Nat) : Word := BitVec.ofNat 32 (w % 2 ^ nbits)

/-- The instruction the decoder reads from a table row's bits. A command is one 32-bit word (30_encoding.md R94), so the
bits are the word. -/
def decodeTableWord (nbits w : Nat) : Option Instr := (decode (tableWord nbits w)).toOption

end Sys2Proof
end

