-- ==== Sys2Proof/Machine/State.lean ====
section
/-! DEFINITION. The state of the machine: the block's four components of 10_state.md R20, its configuration, and the model's
own fields for the host agent, the schedule and the free values. -/

namespace Sys2Proof.Machine

/-- The result codes that the block can hold in STATUS.RESULT (60_exceptions.md R210). The codes 7 to 15 are "never
produced" and have no constructor; 2 and 4 are reserved and no rule raises them. -/
inductive ResultCode where
  /-- 0: the command completed and made all its writes. -/
  | success
  /-- 1: valid input, not yet actionable. -/
  | needsMoreData
  /-- 2: reserved, never produced. -/
  | duplicateData
  /-- 3: an operand or a problem fails a check. -/
  | invalidInput
  /-- 4: reserved, never produced. -/
  | outOfMemory
  /-- 5: a Cauchy coefficient with den = 0 was needed. -/
  | degenerate
  /-- 6: the command word spells no command. -/
  | illegalCommand
  deriving DecidableEq, Repr

/-- An original's descriptor {SEQ: u64, ADDR: u32, LEN: u16}: the form of an encoder slot (10_state.md R41) and of an ODESC
in PMEM (20_memory.md R67). -/
structure Odesc where
  seq : Seq
  addr : Word
  len : BitVec 16
  deriving DecidableEq, Repr

/-- The register file (10_state.md R20 (1)): the fields of the memory-mapped registers that hold a value. -/
structure Regs where
  /-- CTRL.IRQ_EN (10_state.md R30). -/
  irqEn : Bool
  /-- STATUS.DONE (10_state.md R31). -/
  done : Bool
  /-- STATUS.OVERRUN (10_state.md R31). -/
  overrun : Bool
  /-- STATUS.RESULT (10_state.md R31; 60_exceptions.md R210). -/
  result : ResultCode
  /-- STATUS.LAST_OP (10_state.md R31). -/
  lastOp : Byte
  /-- ARG0 (10_state.md R33). -/
  arg0 : Word
  /-- ARG1 (10_state.md R33). -/
  arg1 : Word
  /-- ARG2 (10_state.md R33). -/
  arg2 : Word
  /-- RES0 (10_state.md R34). -/
  res0 : Word
  /-- RES1 (10_state.md R34). -/
  res1 : Word
  /-- RES2 (10_state.md R34). -/
  res2 : Word
  /-- RES3 (10_state.md R34). -/
  res3 : Word
  /-- SLV_FAILS, the source's LargeRecoveryFailures (10_state.md R39). -/
  slvFails : Word
  /-- SLV_LOWEST, read as SLV_LOWEST_LO and SLV_LOWEST_HI (10_state.md R40). -/
  slvLowest : Seq
  deriving DecidableEq, Repr

/-- The encoder state (10_state.md R20 (2)): the counters of R35 to R38 and R45, and the window's slots (R41). -/
structure Encoder where
  /-- NextSequence (10_state.md R35). -/
  nextSeq : Seq
  /-- NextParitySequence (10_state.md R36). -/
  nextParity : Seq
  /-- NEXT_COLUMN (10_state.md R37). -/
  nextColumn : Byte
  /-- NEXT_ROW (10_state.md R37). -/
  nextRow : Byte
  /-- COUNT, the live-element count of the ring (10_state.md R37 and R42). -/
  count : BitVec 9
  /-- CURSOR, the write cursor of the ring (10_state.md R38 and R42). -/
  cursor : Byte
  /-- NEW_DATA (10_state.md R37 and R45). -/
  newData : Bool
  /-- The ENC_WINDOW slots, slot 0 first (10_state.md R41). -/
  slots : List Odesc
  deriving DecidableEq, Repr

/-- The command latch (10_state.md R44). -/
structure Latch where
  busy : Bool
  lcmd : Word
  larg0 : Word
  larg1 : Word
  larg2 : Word
  deriving DecidableEq, Repr

/-- PMEM (20_memory.md R62) as (offset, byte) pairs in one canonical form: offsets strictly rising, and no pair whose byte
is what an unlisted offset reads as. `Memory.wf` in Machine/Ops.lean says so. -/
abbrev Memory := List Host.Cell

/-- A statement of a host program (30_encoding.md R99). Offsets are aperture offsets, from BLOCK_BASE (20_memory.md R63);
every one of the four host accesses of R60, at every size, is a `load` or a `store`. -/
inductive HostStmt where
  /-- Read `n` bytes at aperture offset `off` and name the value `t`. -/
  | load (off n t : Nat)
  /-- Write the low `n` bytes of `v` at aperture offset `off`. -/
  | store (off n : Nat) (v : Word)
  /-- `BNZ t AND mask, LOOP`, with LOOP given as its distance from this statement. -/
  | bnz (t : Nat) (mask : Word) (distance : Int)
  deriving DecidableEq, Repr

/-- The host agent (00_scope.md R15): its program, its position in it, which "a model keeps … in the host agent, not in
the block" (10_state.md R21), and the values its loads have named. -/
structure HostAgent where
  prog : List HostStmt
  pos : Nat
  vars : List Word
  deriving DecidableEq, Repr

/-- Whose step comes next (30_encoding.md R96 and 60_exceptions.md R222: every order of host accesses and completions is
admitted). -/
inductive Turn where
  /-- The host runs its next statement. -/
  | host
  /-- The engine takes `Complete`, if a command is latched. -/
  | engine
  /-- The platform asserts the reset input (70_reset_and_hazards.md R240). -/
  | hwReset
  deriving DecidableEq, Repr

/-- The machine. `cfg` is configuration (10_state.md R20) and no step writes it; `regs`, `enc`, `latch` and `pmem` are the
block's architectural state, R20 (1) to (4), and nothing else of the block is state (R46, R47). `host`, `sched` and `draws`
are the model's own: the other agent, the order in which the agents step, and how many times bytes have been drawn freely
(assumption log 4, 5 and 6). -/
structure State where
  cfg : Config
  regs : Regs
  enc : Encoder
  latch : Latch
  pmem : Memory
  host : HostAgent
  sched : List Turn
  draws : Nat
  deriving DecidableEq, Repr

/-- Why the machine stops with a fault. -/
inductive Fault where
  /-- A host access that the block answers with a bus error: a wrong size or alignment in the register region, a reserved
  aperture offset, or a PMEM access that is misaligned, of a wrong size or past the end (20_memory.md R61, R63 and R64: "The
  model faults the host access (`fault BusError`)"). Raised by the host's turn. safe: the block's state is unchanged, and a
  host that the platform lets go on is not modelled (assumption log 7). -/
  | busError
  /-- A host access at an offset past the 2 MiB aperture (20_memory.md R63): it does not reach the block, and nothing there
  is the spec's. Raised by the host's turn. safe (assumption log 7). -/
  | outsideAperture
  deriving DecidableEq, Repr

/-- Why a run is refused. -/
inductive Refusal where
  /-- The instruction has no meaning yet. No arm of `exec` raises it. -/
  | notModelled (mnemonic : String)
  /-- A host access to PMEM while STATUS.BUSY = 1: "A model refuses such an access" (70_reset_and_hazards.md R250;
  93_implementation_defined.md U5). Raised by the host's turn. safe: the block would answer or store some byte
  (assumption log 8). -/
  | pmemAccessWhileBusy
  deriving DecidableEq, Repr

/-- The register file after reset (70_reset_and_hazards.md R240). -/
def Regs.reset : Regs where
  irqEn := false
  done := false
  overrun := false
  result := .success
  lastOp := 0
  arg0 := 0
  arg1 := 0
  arg2 := 0
  res0 := 0
  res1 := 0
  res2 := 0
  res3 := 0
  slvFails := 0
  slvLowest := 0

/-- An empty slot. R41 leaves the slots' contents at reset unspecified, and "a model may set them to 0"
(93_implementation_defined.md U4; assumption log 3). -/
def Odesc.blank : Odesc where
  seq := 0
  addr := 0
  len := 0

/-- The encoder after reset (70_reset_and_hazards.md R240), with `window` slots. -/
def Encoder.reset (window : Nat) : Encoder where
  nextSeq := 0
  nextParity := 0
  nextColumn := 0
  nextRow := 1
  count := 0
  cursor := 0
  newData := false
  slots := List.replicate window Odesc.blank

/-- The command latch after reset: busy = 0, the rest unspecified and "unused while busy = 0" (10_state.md R44), set to 0
as 93_implementation_defined.md U4 allows (assumption log 3). -/
def Latch.reset : Latch where
  busy := false
  lcmd := 0
  larg0 := 0
  larg1 := 0
  larg2 := 0

/-- A host with nothing to do. -/
def HostAgent.idle : HostAgent where
  prog := []
  pos := 0
  vars := []

/-- The machine after power-on with the parameters `cfg`, the launch memory `launch` ("a model starts from an arbitrary byte
array, which is a launch parameter", 20_memory.md R62), the host program `prog` and the order of steps `sched`. -/
def State.powerOn (cfg : Config) (launch : Memory) (prog : List HostStmt) (sched : List Turn) : State where
  cfg := cfg
  regs := Regs.reset
  enc := Encoder.reset cfg.encWindow
  latch := Latch.reset
  pmem := launch
  host := { HostAgent.idle with prog := prog }
  sched := sched
  draws := 0

/-- The machine right after reset (70_reset_and_hazards.md R240): the default parameters, nothing listed in PMEM, and no
host program. "It is idle until the host's first CMD write." -/
def State.reset : State := State.powerOn Config.default [] [] []

end Sys2Proof.Machine
end

