-- ==== Sys2Proof/Machine/Ops.lean ====
section
/-! DEFINITION. The named operations over memory and registers: PMEM byte reads and writes and the range rule
(20_memory.md), and acceptance and completion (30_encoding.md R95 and R97).
The block takes no trap (60_exceptions.md R223): completion is its one way to report, so `State.complete` stands where a
machine with exceptions has their entry, and there is no return from one (R224). -/

namespace Sys2Proof.Machine

/-! PMEM. -/

/-- What an offset that PMEM does not list reads as. PMEM is unspecified after power-on (20_memory.md R62), so this only
says how byte arrays are written down: every one of them is the reading of some canonical list. It is a value for
`State.reset` alone, which lists nothing. DESIGN CHOICE, unsafe there (assumption log 1). -/
def Memory.unlisted : Byte := 0

/-- `PMEM[a]` (00_scope.md R11). -/
def Memory.read : Memory → Nat → Byte
  | [], _ => Memory.unlisted
  | (k, v) :: m, a => if k = a then v else Memory.read m a

/-- `PMEM[a] <- b`, keeping the canonical form. -/
def Memory.write : Memory → Nat → Byte → Memory
  | [], a, b => if b = Memory.unlisted then [] else [(a, b)]
  | (k, v) :: m, a, b =>
    if a < k then
      (if b = Memory.unlisted then (k, v) :: m else (a, b) :: (k, v) :: m)
    else if a = k then
      (if b = Memory.unlisted then m else (a, b) :: m)
    else (k, v) :: Memory.write m a b

/-- The canonical form from offset `lo` up: offsets strictly rising, none below `lo`, no byte an unlisted offset reads as. -/
def Memory.wfFrom : Nat → Memory → Bool
  | _, [] => true
  | lo, (k, v) :: m => decide (lo ≤ k) && v != Memory.unlisted && Memory.wfFrom (k + 1) m

/-- The canonical form of a memory. -/
def Memory.wf (m : Memory) : Bool := Memory.wfFrom 0 m

/-- Every listed offset is one of the `size` offsets that PMEM has (20_memory.md R62). -/
def Memory.within (m : Memory) (size : Nat) : Bool := m.all fun c => decide (c.1 < size)

/-- Write the bytes `bs` at `a`, `a + 1`, and so on, ascending. -/
def Memory.writeBytes (m : Memory) : Nat → List Byte → Memory
  | _, [] => m
  | a, b :: bs => Memory.writeBytes (Memory.write m a b) (a + 1) bs

/-- Write the cells of a list in order; a later write wins. -/
def Memory.writeAll (m : Memory) : List Host.Cell → Memory
  | [] => m
  | c :: cs => Memory.writeAll (Memory.write m c.1 c.2) cs

/-- The `n` bytes at `a`, ascending. -/
def Memory.bytes (m : Memory) (a : Nat) : Nat → List Byte
  | 0 => []
  | n + 1 => m.read a :: Memory.bytes m (a + 1) n

/-- A little-endian group of bytes as an unsigned number (20_memory.md R65). -/
def leValue : List Byte → Nat
  | [] => 0
  | b :: bs => b.toNat + 256 * leValue bs

/-- The `n` low bytes of an unsigned number, least significant first (20_memory.md R65). -/
def leBytes : Nat → Nat → List Byte
  | 0, _ => []
  | n + 1, v => BitVec.ofNat 8 v :: leBytes n (v / 256)

/-- `MemRead(addr, n)` (00_scope.md R11). -/
def Memory.readLE (m : Memory) (a n : Nat) : Nat := leValue (m.bytes a n)

/-- `MemWrite(addr, n, v)` (00_scope.md R11). -/
def Memory.writeLE (m : Memory) (a n v : Nat) : Memory := m.writeBytes a (leBytes n v)

/-- The byte writes of `bs` at `a`, ascending. -/
def cellsAt : Nat → List Byte → List Host.Cell
  | _, [] => []
  | a, b :: bs => (a, b) :: cellsAt (a + 1) bs

/-- "A command's byte range (a, n) is *in range* iff `n = 0` or `a + n ≤ PMEM_BYTES`" (20_memory.md R72). -/
def inRange (cfg : Config) (a n : Nat) : Bool := n == 0 || decide (a + n ≤ cfg.pmemBytes)

/-! Acceptance and completion. -/

/-- The four values of RES0 to RES3. -/
structure Results where
  r0 : Word
  r1 : Word
  r2 : Word
  r3 : Word
  deriving DecidableEq, Repr

/-- 0/0/0/0. -/
def Results.zero : Results where
  r0 := 0
  r1 := 0
  r2 := 0
  r3 := 0

/-- The values completion writes: "if code ≠ SUCCESS: r0, r1, r2, r3 <- 0, 0, 0, 0" (30_encoding.md R97). -/
def reported (code : ResultCode) (r : Results) : Results :=
  if code = .success then r else Results.zero

/-- Completion, `complete(code, r0, r1, r2, r3)` (30_encoding.md R97): RES0 to RES3, RESULT, LAST_OP and DONE are written
and busy is cleared. -/
def State.complete (s : State) (code : ResultCode) (r : Results) : State :=
  { s with
    regs := { s.regs with
      res0 := (reported code r).r0
      res1 := (reported code r).r1
      res2 := (reported code r).r2
      res3 := (reported code r).r3
      result := code
      lastOp := fieldOp s.latch.lcmd
      done := true }
    latch := { s.latch with busy := false } }

/-- `raise RESULT(code)`: `complete(code, 0, 0, 0, 0)` "with no other effect of that command" (30_encoding.md R97). -/
def State.raise (s : State) (code : ResultCode) : State := s.complete code Results.zero

/-- Acceptance of the command word `w` when busy = 0 (30_encoding.md R95). -/
def State.accept (s : State) (w : Word) : State :=
  { s with
    regs := { s.regs with done := false }
    latch :=
      { busy := true
        lcmd := w
        larg0 := s.regs.arg0
        larg1 := s.regs.arg1
        larg2 := s.regs.arg2 } }

/-- A write of `w` to CMD (30_encoding.md R95): accepted when idle; dropped, with OVERRUN set, when busy. -/
def State.writeCmd (s : State) (w : Word) : State :=
  if s.latch.busy then { s with regs := { s.regs with overrun := true } } else s.accept w

/-- `s` with PMEM replaced. -/
def State.setPmem (s : State) (m : Memory) : State := { s with pmem := m }

/-- `s` with the encoder state replaced. -/
def State.setEnc (s : State) (e : Encoder) : State := { s with enc := e }

/-- `s` with the diagnostics of a rank-deficient solve (42_solver.md R185). -/
def State.setSlv (s : State) (fails : Word) (lowest : Seq) : State :=
  { s with regs := { s.regs with slvFails := fails, slvLowest := lowest } }

end Sys2Proof.Machine
end

