-- ==== Sys2Proof/Machine/Operands.lean ====
section
/-! DEFINITION. The operand forms: latched arguments (30_encoding.md R91), prefixed payloads and descriptors in PMEM
(20_memory.md R66 to R71). -/

namespace Sys2Proof.Machine

/-! Latched arguments: "unsigned 32-bit values, used as PMEM offsets, lengths or counts", never truncated. -/

/-- larg0 as an unsigned number. -/
def argA (s : State) : Nat := s.latch.larg0.toNat

/-- larg1 as an unsigned number. -/
def argB (s : State) : Nat := s.latch.larg1.toNat

/-- larg2 as an unsigned number. -/
def argC (s : State) : Nat := s.latch.larg2.toNat

/-- `zext_32` of a byte result. -/
def zext32 (b : Byte) : Word := b.setWidth 32

/-! Originals. -/

/-- `Prefixed(addr, len)[k]` (20_memory.md R66): the 2-byte little-endian length, then the payload, then zeros. -/
def prefixed (m : Memory) (addr len k : Nat) : Byte :=
  if k = 0 then BitVec.ofNat 8 len
  else if k = 1 then BitVec.ofNat 8 (len / 256)
  else if k < len + 2 then m.read (addr + k - 2)
  else 0

/-- Byte `k` of the prefixed payload of a descriptor. -/
def Odesc.prefixedAt (m : Memory) (e : Odesc) (k : Nat) : Byte := prefixed m e.addr.toNat e.len.toNat k

/-- The prefixed length of a descriptor's original, `len + 2` (20_memory.md R66). -/
def Odesc.prefixedLen (e : Odesc) : Nat := e.len.toNat + 2

/-- The ODESC at PMEM offset `e` (20_memory.md R67). Bytes e+14 and e+15 are ignored. -/
def odescAt (m : Memory) (e : Nat) : Odesc where
  seq := BitVec.ofNat 64 (m.readLE e 8)
  addr := BitVec.ofNat 32 (m.readLE (e + 8) 4)
  len := BitVec.ofNat 16 (m.readLE (e + 12) 2)

/-- `n` ODESCs, 16 bytes apart, from `list` up (41_rowgen_encoder.md R144). -/
def odescList (m : Memory) (list n : Nat) : List Odesc :=
  (List.range n).map fun k => odescAt m (list + 16 * k)

/-- The 16 bytes of an ODESC with its reserved bytes 0 (20_memory.md R67), as a host writes one. -/
def odescBytes (e : Odesc) : List Byte :=
  leBytes 8 e.seq.toNat ++ leBytes 4 e.addr.toNat ++ leBytes 2 e.len.toNat ++ [0, 0]

/-- Whether the payload of a descriptor is one an original may have: LEN ≤ MAX_PAYLOAD and its range inside PMEM. -/
def Odesc.payloadOk (cfg : Config) (e : Odesc) : Bool :=
  decide (e.len.toNat ≤ cfg.maxPayload) && inRange cfg e.addr.toNat e.len.toNat

/-! The SOLVE problem. -/

/-- A row entry, RDESC (20_memory.md R69); RFLAGS and the reserved bytes are not read. -/
structure RowEntry where
  start : Nat
  count : Nat
  row : Byte
  paddr : Nat
  plen : Nat
  deriving DecidableEq, Repr

/-- A column entry, CDESC (20_memory.md R70); RLEN, CFLAGS and the reserved byte are not read. -/
structure ColEntry where
  seq : Nat
  dst : Nat
  deriving DecidableEq, Repr

/-- A received-original entry, an ODESC read as exact integers (20_memory.md R67; 42_solver.md R171). -/
structure RecvEntry where
  seq : Nat
  addr : Nat
  len : Nat
  deriving DecidableEq, Repr

/-- A SOLVE problem (42_solver.md R171). -/
structure Problem where
  rows : List RowEntry
  cols : List ColEntry
  recv : List RecvEntry
  deriving DecidableEq, Repr

/-- NROWS of the header at `d` (20_memory.md R68). -/
def headerRows (m : Memory) (d : Nat) : Nat := m.readLE d 2

/-- NCOLS of the header at `d` (20_memory.md R68). -/
def headerCols (m : Memory) (d : Nat) : Nat := m.readLE (d + 2) 2

/-- NRECV of the header at `d` (20_memory.md R68). -/
def headerRecv (m : Memory) (d : Nat) : Nat := m.readLE (d + 4) 2

/-- The offset of row entry `i` (20_memory.md R71). -/
def rowEntryAddr (d i : Nat) : Nat := d + 8 + 24 * i

/-- The offset of column entry `j` of a problem with `r` rows (20_memory.md R71). -/
def colEntryAddr (d r j : Nat) : Nat := d + 8 + 24 * r + 16 * j

/-- The offset of received entry `k` of a problem with `r` rows and `c` columns (20_memory.md R71). -/
def recvEntryAddr (d r c k : Nat) : Nat := d + 8 + 24 * r + 16 * c + 16 * k

/-- `T = 8 + 24·R + 16·C + 16·N` (20_memory.md R71). -/
def problemBytes (r c n : Nat) : Nat := 8 + 24 * r + 16 * c + 16 * n

/-- The row entry at offset `a` (20_memory.md R69). -/
def rowEntryAt (m : Memory) (a : Nat) : RowEntry where
  start := m.readLE a 8
  count := m.readLE (a + 8) 2
  row := m.read (a + 10)
  paddr := m.readLE (a + 12) 4
  plen := m.readLE (a + 16) 2

/-- The column entry at offset `a` (20_memory.md R70). -/
def colEntryAt (m : Memory) (a : Nat) : ColEntry where
  seq := m.readLE a 8
  dst := m.readLE (a + 8) 4

/-- The received entry at offset `a` (20_memory.md R67). -/
def recvEntryAt (m : Memory) (a : Nat) : RecvEntry where
  seq := m.readLE a 8
  addr := m.readLE (a + 8) 4
  len := m.readLE (a + 12) 2

/-- The problem at offset `d` (20_memory.md R71; 42_solver.md R171). -/
def problemAt (m : Memory) (d : Nat) : Problem where
  rows := (List.range (headerRows m d)).map fun i => rowEntryAt m (rowEntryAddr d i)
  cols := (List.range (headerCols m d)).map fun j => colEntryAt m (colEntryAddr d (headerRows m d) j)
  recv := (List.range (headerRecv m d)).map fun k =>
    recvEntryAt m (recvEntryAddr d (headerRows m d) (headerCols m d) k)

/-- Whether sequence `q` lies in the span of a row: START ≤ q < START + COUNT, exact integers (42_solver.md R171). -/
def RowEntry.covers (r : RowEntry) (q : Nat) : Bool := decide (r.start ≤ q) && decide (q < r.start + r.count)

/-- The sequences of a row's span, ascending (42_solver.md R171). -/
def RowEntry.span (r : RowEntry) : List Nat := (List.range r.count).map (r.start + ·)

/-- Byte `k` of a received original's prefixed payload. -/
def RecvEntry.prefixedAt (m : Memory) (e : RecvEntry) (k : Nat) : Byte := prefixed m e.addr e.len k

end Sys2Proof.Machine
end

