-- ==== Sys2Proof/Machine/Bulk.lean ====
section
/-! DEFINITION. The bulk multiply-accumulate commands (40_gf256.md R130 to R132). -/

namespace Sys2Proof.Machine

/-- The ascending loop of 40_gf256.md R130 and R131: byte dst + i becomes `f (PMEM[dst + i]) (PMEM[src + i])` for
i = 0, 1, …, n-1, each turn reading what the turns before it wrote. -/
def bulkLoop (f : Byte → Byte → Byte) (dst src : Nat) : Nat → Memory → Memory
  | 0, m => m
  | n + 1, m => bulkLoop f (dst + 1) (src + 1) n (m.write dst (f (m.read dst) (m.read src)))

/-- The result of the check of MULADD_MEM and MUL_MEM, if it fails, on dst = larg0, src = larg1 and n = larg2. -/
def bulkFailure (s : State) : Option ResultCode :=
  if !(inRange s.cfg (argA s) (argC s) && inRange s.cfg (argB s) (argC s)) then some .invalidInput
  else none

/-- A bulk command with the byte operation `f`. -/
def bulk (f : Byte → Byte → Byte) (s : State) : Host.Outcome State Fault Refusal :=
  match bulkFailure s with
  | some code => .next (s.raise code)
  | none => .next ((s.setPmem (bulkLoop f (argA s) (argB s) (argC s) s.pmem)).complete .success Results.zero)

/-- The byte operation of MULADD_MEM: `PMEM[dst + i] XOR gf_mul(PMEM[src + i], c)`. -/
def mulAddByte (poly : BitVec 9) (c d x : Byte) : Byte := gfAdd d (gfMul poly x c)

/-- The byte operation of MUL_MEM: `gf_mul(PMEM[src + i], c)`. -/
def mulByte (poly : BitVec 9) (c _d x : Byte) : Byte := gfMul poly x c

/-- `MULADD_MEM c` (40_gf256.md R130). -/
def execMuladdMem (c : Byte) (s : State) : Host.Outcome State Fault Refusal :=
  bulk (mulAddByte s.cfg.gfPoly c) s

/-- `MUL_MEM c` (40_gf256.md R131). -/
def execMulMem (c : Byte) (s : State) : Host.Outcome State Fault Refusal :=
  bulk (mulByte s.cfg.gfPoly c) s

/-- [dst, dst + n), the bytes a bulk command writes. -/
def bulkTouched (s : State) : List Nat := List.range' (argA s) (argC s)

end Sys2Proof.Machine
end

