-- ==== Sys2Proof/Machine/Flags.lean ====
section
/-! DEFINITION. The words that status fields and result codes make: STATUS, ENC_STATE, irq and the numbers of the result
codes (10_state.md R31, R37 and R47; 60_exceptions.md R210 and R220). -/

namespace Sys2Proof.Machine

/-- The number of a result code (60_exceptions.md R210). -/
def ResultCode.number : ResultCode → BitVec 4
  | .success => 0
  | .needsMoreData => 1
  | .duplicateData => 2
  | .invalidInput => 3
  | .outOfMemory => 4
  | .degenerate => 5
  | .illegalCommand => 6

/-- A bit as a register word, in bit 0. -/
def bitWord (b : Bool) : Word := (BitVec.ofBool b).setWidth 32

/-- `irq = CTRL.IRQ_EN AND STATUS.DONE` (60_exceptions.md R220), always equal to STATUS.IRQ (10_state.md R47). -/
def State.irq (s : State) : Bool := s.regs.irqEn && s.regs.done

/-- The value CTRL reads as: IRQ_EN in bit 0; SOFT_RESET and the reserved bits read 0 (10_state.md R30). -/
def ctrlWord (s : State) : Word := bitWord s.regs.irqEn

/-- The value STATUS reads as (10_state.md R31). -/
def statusWord (s : State) : Word :=
  bitWord s.latch.busy
  ||| (bitWord s.regs.done <<< 1)
  ||| (bitWord s.regs.overrun <<< 2)
  ||| (bitWord s.irq <<< 3)
  ||| (s.regs.result.number.setWidth 32 <<< 8)
  ||| (s.regs.lastOp.setWidth 32 <<< 16)

/-- The value ENC_STATE reads as (10_state.md R37). -/
def encStateWord (e : Encoder) : Word :=
  e.nextColumn.setWidth 32
  ||| (e.nextRow.setWidth 32 <<< 8)
  ||| (e.count.setWidth 32 <<< 16)
  ||| (bitWord e.newData <<< 25)

/-- Bits [31:0] of a u64 (20_memory.md R65). -/
def loWord (q : Seq) : Word := q.extractLsb' 0 32

/-- Bits [63:32] of a u64 (20_memory.md R65). -/
def hiWord (q : Seq) : Word := q.extractLsb' 32 32

/-- `{row, n}`, that is `zext_32(row) << 16 | n` with n < 2^16 (30_encoding.md R92). -/
def rowCountWord (row : Byte) (n : Nat) : Word :=
  (row.setWidth 32 <<< 16) ||| (BitVec.ofNat 16 n).setWidth 32

end Sys2Proof.Machine
end

