-- ==== Sys2Proof/Machine/RowGen.lean ====
section
/-! DEFINITION. The row generator (41_rowgen_encoder.md R140 and R144). -/

namespace Sys2Proof.Machine

/-- `outLen`, "the maximum length-prefixed payload in the span" (41_rowgen_encoder.md R140). -/
def outLen (es : List Odesc) : Nat := es.foldr (fun e acc => max e.prefixedLen acc) 0

/-- `RowPayload(row, e)[b]` (41_rowgen_encoder.md R140). -/
def rowByte (cfg : Config) (m : Memory) (row : Byte) (es : List Odesc) (b : Nat) : Byte :=
  es.foldr (fun e acc => gfAdd (gfMul cfg.gfPoly (coef cfg row e.seq.toNat) (e.prefixedAt m b)) acc) 0

/-- `RowPayload(row, e)` (41_rowgen_encoder.md R140): every byte is computed from `m` before any is written. -/
def rowPayload (cfg : Config) (m : Memory) (row : Byte) (es : List Odesc) : List Byte :=
  (List.range (outLen es)).map (rowByte cfg m row es)

/-- A recovery packet to write: its row, its originals, and where its payload goes. -/
structure RowJob where
  row : Byte
  es : List Odesc
  dst : Nat
  deriving DecidableEq, Repr

/-- The start sequence of a job's span: SEQ of its first original. -/
def RowJob.start (job : RowJob) : Seq := (job.es.headD Odesc.blank).seq

/-- PMEM after a job's payload is written (41_rowgen_encoder.md R144 and R155). -/
def RowJob.writtenTo (job : RowJob) (cfg : Config) (m : Memory) : Memory :=
  m.writeBytes job.dst (rowPayload cfg m job.row job.es)

/-- `start_lo/start_hi/{row,n}/outLen` (30_encoding.md R92). -/
def RowJob.results (job : RowJob) (start : Seq) : Results where
  r0 := loWord start
  r1 := hiWord start
  r2 := rowCountWord job.row job.es.length
  r3 := BitVec.ofNat 32 (outLen job.es)

/-- [dst, dst + outLen), the bytes a row generation writes. -/
def RowJob.touched (job : RowJob) : List Nat := List.range' job.dst (outLen job.es)

/-- Whether the descriptors' sequences are contiguous modulo 2^64 (41_rowgen_encoder.md R144, check 3). -/
def contiguousFrom : Seq → List Odesc → Bool
  | _, [] => true
  | q, e :: es => e.seq == q && contiguousFrom (q + 1) es

/-- The job of GEN_ROW: dst = larg0, list = larg1, n = larg2. -/
def genRowJob (row : Byte) (s : State) : RowJob where
  row := row
  es := odescList s.pmem (argB s) (argC s)
  dst := argA s

/-- The result of the first failing check of GEN_ROW, checks 1 to 6 in order (41_rowgen_encoder.md R144; 60_exceptions.md
R213). -/
def genRowFailure (row : Byte) (s : State) : Option ResultCode :=
  if argC s < 1 || argC s > s.cfg.maxCols then some .invalidInput
  else if !inRange s.cfg (argB s) (16 * argC s) then some .invalidInput
  else if !contiguousFrom (genRowJob row s).start (genRowJob row s).es then some .invalidInput
  else if (genRowJob row s).es.any (fun e => !e.payloadOk s.cfg) then some .invalidInput
  else if (genRowJob row s).es.any (fun e => degenerateAt s.cfg row (columnByte e.seq.toNat)) then some .degenerate
  else if !inRange s.cfg (argA s) (outLen (genRowJob row s).es) then some .invalidInput
  else none

/-- `GEN_ROW row` (41_rowgen_encoder.md R144). -/
def execGenRow (row : Byte) (s : State) : Host.Outcome State Fault Refusal :=
  match genRowFailure row s with
  | some code => .next (s.raise code)
  | none =>
    .next ((s.setPmem ((genRowJob row s).writtenTo s.cfg s.pmem)).complete .success
      ((genRowJob row s).results (genRowJob row s).start))

end Sys2Proof.Machine
end

