-- ==== Sys2Proof/Machine/Solver.lean ====
section
/-! DEFINITION. The Gaussian-elimination solver, SOLVE (42_solver.md). -/

namespace Sys2Proof.Machine

/-! The checks of 42_solver.md R172. -/

/-- Whether the list is strictly ascending. -/
def strictlyAscending : List Nat → Bool
  | [] => true
  | q :: qs => qs.all (fun x => decide (q < x)) && strictlyAscending qs

/-- Whether `q` lies in U, the union of the rows' spans (42_solver.md R171). -/
def Problem.inU (p : Problem) (q : Nat) : Bool := p.rows.any fun r => r.covers q

/-- The lost sequences, in the order of the column entries. -/
def Problem.lost (p : Problem) : List Nat := p.cols.map ColEntry.seq

/-- The received sequences, in the order of the received entries. -/
def Problem.received (p : Problem) : List Nat := p.recv.map RecvEntry.seq

/-- Check 4, on one row. -/
def RowEntry.formOk (cfg : Config) (r : RowEntry) : Bool :=
  decide (1 ≤ r.count) && decide (r.count ≤ cfg.maxCols) && decide (r.start + r.count ≤ 2 ^ 64)
  && decide (1 ≤ r.plen) && decide (r.plen ≤ cfg.maxSolutionBytes) && inRange cfg r.paddr r.plen

/-- Check 5: the lost sequences ascend strictly and lie in U. -/
def Problem.lostOk (p : Problem) : Bool := strictlyAscending p.lost && p.lost.all p.inU

/-- Check 6: the received sequences ascend strictly, lie in U, are not lost, and their payloads are in range. -/
def Problem.receivedOk (cfg : Config) (p : Problem) : Bool :=
  strictlyAscending p.received && p.received.all p.inU
  && p.received.all (fun q => !p.lost.contains q)
  && p.recv.all (fun e => decide (e.len ≤ cfg.maxPayload) && inRange cfg e.addr e.len)

/-- Check 7: every sequence of U is lost or received. -/
def Problem.coversU (p : Problem) : Bool :=
  p.rows.all fun r => r.span.all fun q => p.lost.contains q || p.received.contains q

/-- Check 8: no received original is longer than a row that holds it. -/
def Problem.lengthsOk (p : Problem) : Bool :=
  p.rows.all fun r => p.recv.all fun e => !r.covers e.seq || decide (e.len + 2 ≤ r.plen)

/-- Check 9: no row meets a degenerate column in its span. -/
def Problem.coefsOk (cfg : Config) (p : Problem) : Bool :=
  p.rows.all fun r => r.span.all fun q => !degenerateAt cfg r.row (columnByte q)

/-- Check 2 on the header's counts: 1 ≤ C ≤ MAX_COLS and C ≤ R ≤ MAX_ROWS. -/
def countsOk (cfg : Config) (r c : Nat) : Bool :=
  decide (1 ≤ c) && decide (c ≤ cfg.maxCols) && decide (c ≤ r) && decide (r ≤ cfg.maxRows)

/-- The result of the first failing check of the checks 4 to 9, in order (42_solver.md R172). -/
def Problem.failure (cfg : Config) (p : Problem) : Option ResultCode :=
  if !p.rows.all (RowEntry.formOk cfg) then some .invalidInput
  else if !p.lostOk then some .invalidInput
  else if !p.receivedOk cfg then some .invalidInput
  else if !p.coversU then some .invalidInput
  else if !p.lengthsOk then some .invalidInput
  else if !p.coefsOk cfg then some .degenerate
  else none

/-- The result of the first failing check of SOLVE on the problem at `d`, checks 1 to 9 in order (42_solver.md R172;
60_exceptions.md R213). -/
def solveFailure (cfg : Config) (m : Memory) (d : Nat) : Option ResultCode :=
  if !inRange cfg d 8 then some .invalidInput
  else if !countsOk cfg (headerRows m d) (headerCols m d) then some .invalidInput
  else if !inRange cfg d (problemBytes (headerRows m d) (headerCols m d) (headerRecv m d)) then some .invalidInput
  else (problemAt m d).failure cfg

/-! The working arrays (42_solver.md R174). -/

/-- One row of the working arrays: M[i] and Dg[i]. -/
structure WorkRow where
  coefs : List Byte
  data : List Byte
  deriving DecidableEq, Repr

/-- SolutionBytes, `S <- max over i of PLEN_i` (42_solver.md R174). -/
def Problem.solutionBytes (p : Problem) : Nat := p.rows.foldr (fun r acc => max r.plen acc) 0

/-- `M[i][j]`: the coefficient where SEQ_j lies in the row's span, else 0 (42_solver.md R174). -/
def RowEntry.initCoef (cfg : Config) (r : RowEntry) (q : Nat) : Byte :=
  if r.covers q then coef cfg r.row q else 0

/-- `Dg[i][b]`: the row's payload, zero-padded (42_solver.md R174). -/
def RowEntry.initData (m : Memory) (r : RowEntry) (b : Nat) : Byte :=
  if b < r.plen then m.read (r.paddr + b) else 0

/-- PlanSolution's working row for one row entry (42_solver.md R174). -/
def RowEntry.initial (cfg : Config) (m : Memory) (p : Problem) (r : RowEntry) : WorkRow where
  coefs := p.lost.map (r.initCoef cfg)
  data := (List.range p.solutionBytes).map (r.initData m)

/-- The prefixed payload of a received original, to `s` bytes. -/
def RecvEntry.prefixedBytes (m : Memory) (s : Nat) (e : RecvEntry) : List Byte :=
  (List.range s).map (e.prefixedAt m)

/-- EliminateOriginals on one row: the data of the row with each received original of the list in its span removed
(42_solver.md R176). -/
def eliminateReceived (cfg : Config) (m : Memory) (s : Nat) (r : RowEntry) : List RecvEntry → List Byte → List Byte
  | [], data => data
  | e :: es, data =>
    eliminateReceived cfg m s r es
      (if r.covers e.seq then
        addRow data (scaleRow cfg.gfPoly (coef cfg r.row e.seq) (e.prefixedBytes m s))
      else data)

/-- The working row of one row entry after EliminateOriginals (42_solver.md R176). -/
def RowEntry.eliminated (cfg : Config) (m : Memory) (p : Problem) (r : RowEntry) : WorkRow :=
  { r.initial cfg m p with
    data := eliminateReceived cfg m p.solutionBytes r p.recv (r.initial cfg m p).data }

/-- The working arrays after EliminateOriginals (42_solver.md R174 and R176). -/
def Problem.eliminated (cfg : Config) (m : Memory) (p : Problem) : List WorkRow :=
  p.rows.map (RowEntry.eliminated cfg m p)

/-! ForwardEliminate (42_solver.md R177). -/

/-- A row of no columns, read where no row is. -/
def WorkRow.none : WorkRow where
  coefs := []
  data := []

/-- `M[i][j]`. -/
def entryAt (ws : List WorkRow) (i j : Nat) : Byte := (ws.getD i WorkRow.none).coefs.getD j 0

/-- The pivot for column j: "the lowest-numbered row … that is not yet a pivot and has a nonzero entry in column j"
(42_solver.md R178). -/
def findPivot (ws : List WorkRow) (used : List Nat) (j : Nat) : Option Nat :=
  (List.range ws.length).find? fun i => !used.contains i && entryAt ws i j != 0

/-- Row `w` with `f` times the pivot row added (42_solver.md R177). -/
def WorkRow.addScaled (poly : BitVec 9) (f : Byte) (pivot w : WorkRow) : WorkRow where
  coefs := addRow w.coefs (scaleRow poly f pivot.coefs)
  data := addRow w.data (scaleRow poly f pivot.data)

/-- The rows after column j is eliminated, with pivot row `p`, from every unused row (42_solver.md R177). -/
def eliminateColumn (poly : BitVec 9) (ws : List WorkRow) (used : List Nat) (p j : Nat) : List WorkRow :=
  ws.zipIdx.map fun wi =>
    if !used.contains wi.2 && wi.1.coefs.getD j 0 != 0 then
      WorkRow.addScaled poly (gfDiv poly (wi.1.coefs.getD j 0) (entryAt ws p j)) (ws.getD p WorkRow.none) wi.1
    else wi.1

/-- ForwardEliminate over the columns `js`, with the pivots of the columns before them, oldest first; none on rank
deficiency (42_solver.md R177). -/
def forwardEliminate (poly : BitVec 9) : List Nat → List WorkRow → List Nat → Option (List WorkRow × List Nat)
  | [], ws, piv => some (ws, piv)
  | j :: js, ws, piv =>
    match findPivot ws piv j with
    | none => none
    | some p => forwardEliminate poly js (eliminateColumn poly ws (piv ++ [p]) p j) (piv ++ [p])

/-! BackSubstitute (42_solver.md R179). -/

/-- The rows after `x`, the solution of column j, is subtracted from the pivot rows in `earlier`. -/
def subtractFrom (poly : BitVec 9) (j : Nat) (x : List Byte) (earlier : List Nat) (ws : List WorkRow) : List WorkRow :=
  ws.zipIdx.map fun wi =>
    if earlier.contains wi.2 && wi.1.coefs.getD j 0 != 0 then
      { wi.1 with data := addRow wi.1.data (scaleRow poly (wi.1.coefs.getD j 0) x) }
    else wi.1

/-- BackSubstitute over the columns k-1, k-2, …, 0, with X of the columns above them in `xs`; the answer is X_0, X_1, …
(42_solver.md R179). -/
def backSubstitute (poly : BitVec 9) (piv : List Nat) : Nat → List WorkRow → List (List Byte) → List (List Byte)
  | 0, _, xs => xs
  | j + 1, ws, xs =>
    let pivot := ws.getD (piv.getD j 0) WorkRow.none
    let x := pivot.data.map fun d => gfDiv poly d (pivot.coefs.getD j 0)
    backSubstitute poly piv j (subtractFrom poly j x (piv.take j) ws) (x :: xs)

/-! Extraction and write-back (42_solver.md R180 and R181). -/

/-- `L_j = X_j[0] | X_j[1] << 8`, with X_j[1] read as 0 when S = 1 (42_solver.md R180). -/
def recoveredLen (x : List Byte) : Nat := (x.getD 0 0).toNat + 256 * (x.getD 1 0).toNat

/-- The recovered payload X_j[2 .. 2 + L_j - 1] (42_solver.md R180). -/
def recoveredPayload (x : List Byte) : List Byte := (x.drop 2).take (recoveredLen x)

/-- `L_j + 2 ≤ S` and `InRange(DST_j, L_j)` for every j (42_solver.md R180). -/
def extractionOk (cfg : Config) (s : Nat) (cols : List ColEntry) (xs : List (List Byte)) : Bool :=
  (cols.zip xs).all fun cx =>
    decide (recoveredLen cx.2 + 2 ≤ s) && inRange cfg cx.1.dst (recoveredLen cx.2)

/-- The payload writes (42_solver.md R181, the first loop). -/
def payloadCells (cols : List ColEntry) (xs : List (List Byte)) : List Host.Cell :=
  (cols.zip xs).flatMap fun cx => cellsAt cx.1.dst (recoveredPayload cx.2)

/-- RLEN and CFLAGS.RECOVERED of every column (42_solver.md R181, the second loop). -/
def columnCells (d r : Nat) (xs : List (List Byte)) : List Host.Cell :=
  xs.zipIdx.flatMap fun xj =>
    cellsAt (colEntryAddr d r xj.2 + 12) (leBytes 2 (recoveredLen xj.1))
      ++ [(colEntryAddr d r xj.2 + 14, 0x01)]

/-- RFLAGS.PIVOTED of every row (42_solver.md R181, the third loop). -/
def rowCells (d r : Nat) (piv : List Nat) : List Host.Cell :=
  (List.range r).map fun i => (rowEntryAddr d i + 11, if piv.contains i then 0x01 else 0x00)

/-- What a SOLVE comes to. -/
inductive SolveOutcome where
  /-- A check of R172 or R180 fails. -/
  | failed (code : ResultCode)
  /-- Rank deficiency, with SEQ_0 (42_solver.md R185). -/
  | rankDeficient (lowest : Nat)
  /-- Success: the byte writes in order, C and S (42_solver.md R175 and R181). -/
  | solved (cells : List Host.Cell) (c s : Nat)
  deriving DecidableEq, Repr

/-- The recovered X_0, …, X_{C-1} and the pivots of a problem, none on rank deficiency (42_solver.md R176 to R179). -/
def Problem.solution (cfg : Config) (m : Memory) (p : Problem) : Option (List (List Byte) × List Nat) :=
  match forwardEliminate cfg.gfPoly (List.range p.cols.length) (p.eliminated cfg m) [] with
  | none => none
  | some (ws, piv) => some (backSubstitute cfg.gfPoly piv p.cols.length ws [], piv)

/-- SOLVE on the problem at `d`, whose checks of R172 hold (42_solver.md R175 to R181 and R185). -/
def solveProblem (cfg : Config) (m : Memory) (d : Nat) : SolveOutcome :=
  let p := problemAt m d
  match p.solution cfg m with
  | none => .rankDeficient (p.lost.headD 0)
  | some (xs, piv) =>
    if extractionOk cfg p.solutionBytes p.cols xs then
      .solved (payloadCells p.cols xs ++ columnCells d p.rows.length xs ++ rowCells d p.rows.length piv)
        p.cols.length p.solutionBytes
    else .failed .invalidInput

/-- SOLVE on the problem at `d` (42_solver.md R175). -/
def solveOutcome (cfg : Config) (m : Memory) (d : Nat) : SolveOutcome :=
  match solveFailure cfg m d with
  | some code => .failed code
  | none => solveProblem cfg m d

/-- `SOLVE` (42_solver.md R175): on rank deficiency SLV_FAILS and SLV_LOWEST are written and NEEDS_MORE_DATA is raised
(R185); on SUCCESS the write-back of R181 is made. -/
def execSolve (s : State) : Host.Outcome State Fault Refusal :=
  match solveOutcome s.cfg s.pmem (argA s) with
  | .failed code => .next (s.raise code)
  | .rankDeficient lowest =>
    .next ((s.setSlv (s.regs.slvFails + 1) (BitVec.ofNat 64 lowest)).raise .needsMoreData)
  | .solved cells c n =>
    .next ((s.setPmem (s.pmem.writeAll cells)).complete .success
      { Results.zero with r0 := BitVec.ofNat 32 c, r1 := BitVec.ofNat 32 n })

end Sys2Proof.Machine
end

