-- ==== Sys2Proof/Machine/Window.lean ====
section
/-! DEFINITION. The sliding-window encoder (10_state.md R41 to R43; 41_rowgen_encoder.md R149 to R160). -/

namespace Sys2Proof.Machine

/-- `slot_index(j) = (CURSOR - COUNT + j) mod ENC_WINDOW`, the mathematical mod (10_state.md R42). -/
def slotIndex (cfg : Config) (e : Encoder) (j : Nat) : Nat :=
  (((e.cursor.toNat : Int) - (e.count.toNat : Int) + (j : Int)) % (cfg.encWindow : Int)).toNat

/-- The live slot number `j`, counting from the oldest (10_state.md R42). -/
def liveSlot (cfg : Config) (e : Encoder) (j : Nat) : Odesc := e.slots.getD (slotIndex cfg e j) Odesc.blank

/-- The live slots, oldest first (10_state.md R42). -/
def liveSlots (cfg : Config) (e : Encoder) : List Odesc := (List.range e.count.toNat).map (liveSlot cfg e)

/-- The result of the check of ENC_ORIGINAL, if it fails, on addr = larg0 and len = larg1 (41_rowgen_encoder.md R151). -/
def encOriginalFailure (s : State) : Option ResultCode :=
  if argB s > s.cfg.maxPayload || !inRange s.cfg (argA s) (argB s) then some .invalidInput
  else none

/-- The encoder after an original {addr, len} is appended (41_rowgen_encoder.md R151). -/
def Encoder.append (cfg : Config) (e : Encoder) (addr : Word) (len : Nat) : Encoder :=
  { e with
    slots := e.slots.set e.cursor.toNat { seq := e.nextSeq, addr := addr, len := BitVec.ofNat 16 len }
    cursor := BitVec.ofNat 8 ((e.cursor.toNat + 1) % cfg.encWindow)
    count := BitVec.ofNat 9 (min (e.count.toNat + 1) cfg.encWindow)
    nextSeq := e.nextSeq + 1
    nextColumn := e.nextColumn + 1
    newData := true }

/-- `ENC_ORIGINAL` (41_rowgen_encoder.md R151). -/
def execEncOriginal (s : State) : Host.Outcome State Fault Refusal :=
  match encOriginalFailure s with
  | some code => .next (s.raise code)
  | none =>
    .next ((s.setEnc (s.enc.append s.cfg s.latch.larg0 (argB s))).complete .success
      { Results.zero with r0 := loWord s.enc.nextSeq, r1 := hiWord s.enc.nextSeq })

/-- The start of the span, (NextSequence - COUNT) mod 2^64 (41_rowgen_encoder.md R153). -/
def Encoder.spanStart (e : Encoder) : Seq := e.nextSeq - e.count.setWidth 64

/-- The row of the next recovery: the parity row iff start ≥ NextParitySequence, unsigned (41_rowgen_encoder.md R154). -/
def Encoder.recoveryRow (e : Encoder) : Byte :=
  if e.nextParity.toNat ≤ e.spanStart.toNat then 0 else e.nextRow

/-- `col_j = (NEXT_COLUMN - n + j) mod 256` (41_rowgen_encoder.md R149 and R155). -/
def Encoder.column (e : Encoder) (j : Nat) : Byte :=
  e.nextColumn - BitVec.ofNat 8 e.count.toNat + BitVec.ofNat 8 j

/-- The job of ENC_RECOVERY, with dst = larg0 (41_rowgen_encoder.md R155). -/
def encRecoveryJob (s : State) : RowJob where
  row := s.enc.recoveryRow
  es := liveSlots s.cfg s.enc
  dst := argA s

/-- The result of the first failing check of ENC_RECOVERY, checks 1 to 4 in order (41_rowgen_encoder.md R155;
60_exceptions.md R213). -/
def encRecoveryFailure (s : State) : Option ResultCode :=
  if s.enc.count.toNat < 2 then some .needsMoreData
  else if !s.enc.newData then some .needsMoreData
  else if (List.range s.enc.count.toNat).any (fun j => degenerateAt s.cfg s.enc.recoveryRow (s.enc.column j)) then
    some .degenerate
  else if !inRange s.cfg (argA s) (outLen (encRecoveryJob s).es) then some .invalidInput
  else none

/-- The next Cauchy row: "cycles through `1, 2, …, 255, 1, …`" (41_rowgen_encoder.md R154 and R155). -/
def nextCauchyRow (row : Byte) : Byte := if row = 255 then 1 else row + 1

/-- The encoder after it emits a recovery with the row `row` (41_rowgen_encoder.md R155). -/
def Encoder.emitted (e : Encoder) (row : Byte) : Encoder :=
  if row = 0 then { e with nextParity := e.nextSeq, newData := false }
  else { e with nextRow := nextCauchyRow e.nextRow, newData := false }

/-- `ENC_RECOVERY` (41_rowgen_encoder.md R155). -/
def execEncRecovery (s : State) : Host.Outcome State Fault Refusal :=
  match encRecoveryFailure s with
  | some code => .next (s.raise code)
  | none =>
    .next (((s.setPmem ((encRecoveryJob s).writtenTo s.cfg s.pmem)).setEnc
      (s.enc.emitted s.enc.recoveryRow)).complete .success ((encRecoveryJob s).results s.enc.spanStart))

/-- The encoder after ENC_RESET: the counters restart, and "slot contents are left as they are but are dead"
(41_rowgen_encoder.md R160). -/
def Encoder.restarted (e : Encoder) : Encoder :=
  { e with
    nextSeq := 0
    nextParity := 0
    nextColumn := 0
    nextRow := 1
    count := 0
    cursor := 0
    newData := false }

/-- `ENC_RESET` (41_rowgen_encoder.md R160). -/
def execEncReset (s : State) : Host.Outcome State Fault Refusal :=
  .next ((s.setEnc s.enc.restarted).complete .success Results.zero)

end Sys2Proof.Machine
end

