-- ==== Sys2Proof/Machine/Reset.lean ====
section
/-! DEFINITION. Reset: the hardware reset input, the soft reset, and a reset that abandons a command
(70_reset_and_hazards.md R240 to R243). -/

namespace Sys2Proof.Machine

/-- The write set of a command: the PMEM bytes "it would have written if it had completed with SUCCESS"; "A command that
would have failed has an empty write set" (70_reset_and_hazards.md R242). -/
def writeSet (i : Instr) (s : State) : List Nat :=
  match i with
  | .nop => []
  | .gfAdd _ _ => []
  | .gfMul _ _ => []
  | .gfDiv _ _ => []
  | .gfCauchy _ _ => []
  | .muladdMem _ => if (bulkFailure s).isNone then bulkTouched s else []
  | .mulMem _ => if (bulkFailure s).isNone then bulkTouched s else []
  | .genRow row => if (genRowFailure row s).isNone then (genRowJob row s).touched else []
  | .encOriginal => []
  | .encRecovery => if (encRecoveryFailure s).isNone then (encRecoveryJob s).touched else []
  | .encReset => []
  | .solve =>
    match solveOutcome s.cfg s.pmem (argA s) with
    | .failed _ => []
    | .rankDeficient _ => []
    | .solved cells _ _ => cells.map Prod.fst

/-- The write set of the command in flight, empty when busy = 0 or the latched word spells no command. -/
def State.inFlightWriteSet (s : State) : List Nat :=
  if s.latch.busy then
    match decode s.latch.lcmd with
    | .command i => writeSet i s
    | .illegal _ => []
  else []

/-- PMEM with each offset of the list drawn freely, as draw number `draw` (70_reset_and_hazards.md R242: "each may hold its
old value, its new value, or any byte"). -/
def Memory.scramble (draw : Nat) (m : Memory) : List Nat → Memory
  | [] => m
  | a :: as => Memory.scramble draw (m.write a (Config.freeByte draw a)) as

/-- PMEM with every byte drawn freely, as draw number `draw` (70_reset_and_hazards.md R240; 93_implementation_defined.md
U2). -/
def Memory.drawn (draw size : Nat) : Memory :=
  (List.range size).filterMap fun a =>
    if Config.freeByte draw a = Memory.unlisted then none else some (a, Config.freeByte draw a)

/-- Every component of the block but PMEM at its reset value (70_reset_and_hazards.md R240). -/
def State.resetBlock (s : State) : State :=
  { s with
    regs := Regs.reset
    enc := Encoder.reset s.cfg.encWindow
    latch := Latch.reset }

/-- The soft reset: the values of R240, PMEM preserved (R241 (a)) but for the write set of an abandoned command, whose
bytes are drawn freely (R242). IRQ_EN is the caller's to store (R241 (b)). -/
def State.softReset (s : State) : State :=
  { s.resetBlock with
    pmem := Memory.scramble s.draws s.pmem s.inFlightWriteSet
    draws := s.draws + 1 }

/-- An assertion of the reset input after power-on: the values of R240, and PMEM "also unspecified" (70_reset_and_hazards.md
R240), so every byte is drawn freely. A command in flight is abandoned; its write set is among those bytes. -/
def State.hwReset (s : State) : State :=
  { s.resetBlock with
    pmem := Memory.drawn s.draws s.cfg.pmemBytes
    draws := s.draws + 1 }

end Sys2Proof.Machine
end

