-- ==== Sys2Proof/Machine/Bus.lean ====
section
/-! DEFINITION. Host access to the block: the register map (10_state.md R22 to R40), the aperture map and the rules of size
and alignment (20_memory.md R60 to R65), and the hazard of PMEM accesses while busy (70_reset_and_hazards.md R250). -/

namespace Sys2Proof.Machine

/-- The registers of the register map (10_state.md R23). -/
inductive RegName where
  | id | param0 | param1 | param2 | param3 | param4
  | ctrl | status | cmd
  | arg0 | arg1 | arg2
  | res0 | res1 | res2 | res3
  | encNseqLo | encNseqHi | encPseqLo | encPseqHi | encState | encCursor
  | slvFails | slvLowestLo | slvLowestHi
  deriving DecidableEq, Repr

/-- The offset of a register (10_state.md R23). -/
def regOffset : RegName → Nat
  | .id => 0x000
  | .param0 => 0x004
  | .param1 => 0x008
  | .param2 => 0x00C
  | .param3 => 0x010
  | .param4 => 0x014
  | .ctrl => 0x020
  | .status => 0x024
  | .cmd => 0x028
  | .arg0 => 0x030
  | .arg1 => 0x034
  | .arg2 => 0x038
  | .res0 => 0x040
  | .res1 => 0x044
  | .res2 => 0x048
  | .res3 => 0x04C
  | .encNseqLo => 0x050
  | .encNseqHi => 0x054
  | .encPseqLo => 0x058
  | .encPseqHi => 0x05C
  | .encState => 0x060
  | .encCursor => 0x064
  | .slvFails => 0x070
  | .slvLowestLo => 0x074
  | .slvLowestHi => 0x078

/-- Every register, in the order of the map. -/
def allRegs : List RegName :=
  [.id, .param0, .param1, .param2, .param3, .param4, .ctrl, .status, .cmd, .arg0, .arg1, .arg2,
   .res0, .res1, .res2, .res3, .encNseqLo, .encNseqHi, .encPseqLo, .encPseqHi, .encState, .encCursor,
   .slvFails, .slvLowestLo, .slvLowestHi]

/-- The register at an offset of the register region, if the map has one there. -/
def regAt (off : Nat) : Option RegName := allRegs.find? fun r => regOffset r == off

/-- The value a register reads as. No read has a side effect (20_memory.md R74). -/
def regRead (s : State) : RegName → Word
  | .id => 0x43430001
  | .param0 => BitVec.ofNat 16 s.cfg.maxCols ++ BitVec.ofNat 16 s.cfg.encWindow
  | .param1 => (BitVec.ofNat 16 s.cfg.maxRows).setWidth 32
  | .param2 => BitVec.ofNat 32 s.cfg.maxPayload
  | .param3 => BitVec.ofNat 32 s.cfg.pmemBytes
  | .param4 => s.cfg.gfPoly.setWidth 32 ||| (s.cfg.cauchyOffset.setWidth 32 <<< 16)
  | .ctrl => ctrlWord s
  | .status => statusWord s
  | .cmd => 0
  | .arg0 => s.regs.arg0
  | .arg1 => s.regs.arg1
  | .arg2 => s.regs.arg2
  | .res0 => s.regs.res0
  | .res1 => s.regs.res1
  | .res2 => s.regs.res2
  | .res3 => s.regs.res3
  | .encNseqLo => loWord s.enc.nextSeq
  | .encNseqHi => hiWord s.enc.nextSeq
  | .encPseqLo => loWord s.enc.nextParity
  | .encPseqHi => hiWord s.enc.nextParity
  | .encState => encStateWord s.enc
  | .encCursor => s.enc.cursor.setWidth 32
  | .slvFails => s.regs.slvFails
  | .slvLowestLo => loWord s.regs.slvLowest
  | .slvLowestHi => hiWord s.regs.slvLowest

/-- A write to CTRL: with bit 1 set, "the soft reset is applied first and the IRQ_EN value written is then stored"
(10_state.md R30). -/
def writeCtrl (s : State) (v : Word) : State :=
  if v.getLsbD 1 then { s.softReset with regs := { s.softReset.regs with irqEn := v.getLsbD 0 } }
  else { s with regs := { s.regs with irqEn := v.getLsbD 0 } }

/-- A write to STATUS: 1 clears DONE (bit 1) or OVERRUN (bit 2), 0 leaves it; the other fields are read-only (10_state.md
R22 and R31; 60_exceptions.md R221). -/
def writeStatus (s : State) (v : Word) : State :=
  { s with
    regs := { s.regs with
      done := s.regs.done && !v.getLsbD 1
      overrun := s.regs.overrun && !v.getLsbD 2 } }

/-- A write of `v` to a register. Writes to read-only registers are ignored (10_state.md R22). -/
def regWrite (s : State) (r : RegName) (v : Word) : State :=
  match r with
  | .id => s
  | .param0 => s
  | .param1 => s
  | .param2 => s
  | .param3 => s
  | .param4 => s
  | .ctrl => writeCtrl s v
  | .status => writeStatus s v
  | .cmd => s.writeCmd v
  | .arg0 => { s with regs := { s.regs with arg0 := v } }
  | .arg1 => { s with regs := { s.regs with arg1 := v } }
  | .arg2 => { s with regs := { s.regs with arg2 := v } }
  | .res0 => s
  | .res1 => s
  | .res2 => s
  | .res3 => s
  | .encNseqLo => s
  | .encNseqHi => s
  | .encPseqLo => s
  | .encPseqHi => s
  | .encState => s
  | .encCursor => s
  | .slvFails => s
  | .slvLowestLo => s
  | .slvLowestHi => s

/-- `RegRead(off)`: an offset of the region that the map does not list reads 0 (10_state.md R22). -/
def readOffset (s : State) (off : Nat) : Word :=
  match regAt off with
  | some r => regRead s r
  | none => 0

/-- `RegWrite(off, v)`: an offset of the region that the map does not list ignores writes (10_state.md R22). -/
def writeOffset (s : State) (off : Nat) (v : Word) : State :=
  match regAt off with
  | some r => regWrite s r v
  | none => s

/-- Where a host access of `n` bytes at aperture offset `off` goes. -/
inductive Target where
  /-- A 32-bit aligned access in the register region (20_memory.md R61). -/
  | register (off : Nat)
  /-- A well-placed PMEM access at PMEM offset `a` (20_memory.md R64). -/
  | pmem (a : Nat)
  /-- An access answered with a bus error (20_memory.md R61, R63 and R64). -/
  | busError
  /-- Past the aperture, so not an access to the block (20_memory.md R63). -/
  | outside
  deriving DecidableEq, Repr

/-- The register region ends here (20_memory.md R61 and R63). -/
def regRegionBytes : Nat := 0x1000

/-- The aperture offset of PMEM offset 0 (20_memory.md R63). -/
def pmemBase : Nat := 0x100000

/-- "The aperture is 2 MiB" (20_memory.md R63). -/
def apertureBytes : Nat := 0x200000

/-- The aperture map and the rules of size and alignment (20_memory.md R61, R63 and R64). -/
def target (cfg : Config) (off n : Nat) : Target :=
  if off < regRegionBytes then
    if n = 4 ∧ off % 4 = 0 then .register off else .busError
  else if off < pmemBase then .busError
  else if off < apertureBytes then
    if (n = 1 ∨ n = 2 ∨ n = 4) ∧ (off - pmemBase) % n = 0 ∧ off - pmemBase + n ≤ cfg.pmemBytes then
      .pmem (off - pmemBase)
    else .busError
  else .outside

/-- What a host access is answered with. -/
inductive Answer (α : Type) where
  | ok (a : α)
  | fault (f : Fault)
  | refused (r : Refusal)
  deriving DecidableEq, Repr

/-- A host read of `n` bytes at aperture offset `off` (20_memory.md R60 to R65). A PMEM access while busy = 1 is refused
(70_reset_and_hazards.md R250). -/
def busRead (s : State) (off n : Nat) : Answer Word :=
  match target s.cfg off n with
  | .register o => .ok (readOffset s o)
  | .pmem a =>
    if s.latch.busy then .refused .pmemAccessWhileBusy else .ok (BitVec.ofNat 32 (s.pmem.readLE a n))
  | .busError => .fault .busError
  | .outside => .fault .outsideAperture

/-- A host write of the low `n` bytes of `v` at aperture offset `off` (20_memory.md R60 to R65). -/
def busWrite (s : State) (off n : Nat) (v : Word) : Answer State :=
  match target s.cfg off n with
  | .register o => .ok (writeOffset s o v)
  | .pmem a =>
    if s.latch.busy then .refused .pmemAccessWhileBusy else .ok (s.setPmem (s.pmem.writeLE a n v.toNat))
  | .busError => .fault .busError
  | .outside => .fault .outsideAperture

end Sys2Proof.Machine
end

