-- ==== Sys2Proof/Machine/Agent.lean ====
section
/-! DEFINITION. The host agent (00_scope.md R15): its statements (30_encoding.md R99), their effect, and the
pseudo-instructions (R100). -/

namespace Sys2Proof.Machine

/-- The value named `t`, 0 before the host has named one. -/
def HostAgent.var (h : HostAgent) (t : Nat) : Word := h.vars.getD t 0

/-- The list with its element `t` replaced by `v`, filled with zeros up to it. -/
def setVar : List Word → Nat → Word → List Word
  | [], 0, v => [v]
  | [], t + 1, v => 0 :: setVar [] t v
  | _ :: vs, 0, v => v :: vs
  | w :: vs, t + 1, v => w :: setVar vs t v

/-- The host after it names `v` as `t` and moves to its next statement. -/
def HostAgent.named (h : HostAgent) (t : Nat) (v : Word) : HostAgent :=
  { h with vars := setVar h.vars t v, pos := h.pos + 1 }

/-- The host at its next statement. -/
def HostAgent.advanced (h : HostAgent) : HostAgent := { h with pos := h.pos + 1 }

/-- The host after `BNZ t AND mask, LOOP`. -/
def HostAgent.branched (h : HostAgent) (t : Nat) (mask : Word) (distance : Int) : HostAgent :=
  if h.var t &&& mask = 0 then h.advanced else { h with pos := ((h.pos : Int) + distance).toNat }

/-- One statement of the host's program. -/
def runStmt (s : State) : HostStmt → Host.Outcome State Fault Refusal
  | .load off n t =>
    match busRead s off n with
    | .ok v => .next { s with host := s.host.named t v }
    | .fault f => .fault f
    | .refused r => .refused r
  | .store off n v =>
    match busWrite s off n v with
    | .ok s' => .next { s' with host := s.host.advanced }
    | .fault f => .fault f
    | .refused r => .refused r
  | .bnz t mask distance => .next { s with host := s.host.branched t mask distance }

/-- The host's turn: its next statement, or nothing when its program has ended. -/
def hostTurn (s : State) : Host.Outcome State Fault Refusal :=
  match s.host.prog[s.host.pos]? with
  | some stmt => runStmt s stmt
  | none => .next s

/-! The statements and pseudo-instructions of host programs (30_encoding.md R99 and R100). -/

/-- `W32 NAME, v`. -/
def w32 (r : RegName) (v : Word) : HostStmt := .store (regOffset r) 4 v

/-- `R32 NAME -> t`. -/
def r32 (r : RegName) (t : Nat) : HostStmt := .load (regOffset r) 4 t

/-- `WMEM a: b0 b1 …`, 1-byte HostMemWrites at a, a+1, and so on. -/
def wmem : Nat → List Byte → List HostStmt
  | _, [] => []
  | a, b :: bs => .store (pmemBase + a) 1 (b.setWidth 32) :: wmem (a + 1) bs

/-- `RMEM a, n -> t`, n 1-byte HostMemReads, named t, t+1, and so on. -/
def rmem (a : Nat) : Nat → Nat → List HostStmt
  | 0, _ => []
  | n + 1, t => .load (pmemBase + a) 1 t :: rmem (a + 1) n (t + 1)

/-- `ARGS x0, x1, x2`: "Fewer operands write fewer registers, starting at ARG0." -/
def args (xs : List Word) : List HostStmt := (([.arg0, .arg1, .arg2] : List RegName).zip xs).map fun rx => w32 rx.1 rx.2

/-- `ISSUE cmd`. -/
def issue (i : Instr) : HostStmt := w32 .cmd (encode i)

/-- `WAIT -> s`: `LOOP: R32 STATUS -> s; BNZ s AND 1, LOOP`. -/
def wait (t : Nat) : List HostStmt := [r32 .status t, .bnz t 1 (-1)]

/-- `DO cmd [; x0, x1, x2]`: `ARGS x0, x1, x2; ISSUE cmd; WAIT -> s`, with s named `t`. -/
def doCommand (i : Instr) (xs : List Word) (t : Nat) : List HostStmt := args xs ++ [issue i] ++ wait t

end Sys2Proof.Machine
end

