-- ==== Sys2Proof/Machine/Control.lean ====
section
/-! DEFINITION. The control command NOP (43_control.md R200) and the completion of an illegal word (60_exceptions.md R211). -/

namespace Sys2Proof.Machine

/-- `NOP`: `complete(SUCCESS, 0, 0, 0, 0)` (43_control.md R200). -/
def execNop (s : State) : Host.Outcome State Fault Refusal := .next (s.complete .success Results.zero)

/-- The completion of a word that spells no command: `complete(ILLEGAL_COMMAND, 0, 0, 0, 0)` (60_exceptions.md R211). -/
def completeIllegal (s : State) : Host.Outcome State Fault Refusal := .next (s.raise .illegalCommand)

end Sys2Proof.Machine
end

