-- ==== Sys2Proof/Machine/Scalar.lean ====
section
/-! DEFINITION. The scalar GF commands (40_gf256.md R120 to R123). -/

namespace Sys2Proof.Machine

/-- `result/0/0/0` (30_encoding.md R92). -/
def scalarResult (b : Byte) : Results := { Results.zero with r0 := zext32 b }

/-- `GF_ADD a, b` (40_gf256.md R120). -/
def execGfAdd (a b : Byte) (s : State) : Host.Outcome State Fault Refusal :=
  .next (s.complete .success (scalarResult (gfAdd a b)))

/-- `GF_MUL a, b` (40_gf256.md R121). -/
def execGfMul (a b : Byte) (s : State) : Host.Outcome State Fault Refusal :=
  .next (s.complete .success (scalarResult (gfMul s.cfg.gfPoly a b)))

/-- `GF_DIV a, b` (40_gf256.md R122): INVALID_INPUT iff b = 0. -/
def execGfDiv (a b : Byte) (s : State) : Host.Outcome State Fault Refusal :=
  if b = 0 then .next (s.raise .invalidInput)
  else .next (s.complete .success (scalarResult (gfDiv s.cfg.gfPoly a b)))

/-- `GF_CAUCHY row, col` (40_gf256.md R123): the row check comes before the den check. -/
def execGfCauchy (row col : Byte) (s : State) : Host.Outcome State Fault Refusal :=
  if row = 0 then .next (s.raise .invalidInput)
  else if den s.cfg row col = 0 then .next (s.raise .degenerate)
  else .next (s.complete .success (scalarResult (cauchy s.cfg row col)))

end Sys2Proof.Machine
end

