-- ==== Sys2Proof/Machine/Dispatch.lean ====
section
/-! DEFINITION. The meaning of each command, one arm per constructor of Instr (30_encoding.md R92 and R96). -/

namespace Sys2Proof.Machine

def exec (i : Instr) (s : State) : Host.Outcome State Fault Refusal :=
  match i with
  | .nop => Sys2Proof.Machine.execNop s
  | .gfAdd a b => Sys2Proof.Machine.execGfAdd a b s
  | .gfMul a b => Sys2Proof.Machine.execGfMul a b s
  | .gfDiv a b => Sys2Proof.Machine.execGfDiv a b s
  | .gfCauchy row col => Sys2Proof.Machine.execGfCauchy row col s
  | .muladdMem c => Sys2Proof.Machine.execMuladdMem c s
  | .mulMem c => Sys2Proof.Machine.execMulMem c s
  | .genRow row => Sys2Proof.Machine.execGenRow row s
  | .encOriginal => Sys2Proof.Machine.execEncOriginal s
  | .encRecovery => Sys2Proof.Machine.execEncRecovery s
  | .encReset => Sys2Proof.Machine.execEncReset s
  | .solve => Sys2Proof.Machine.execSolve s

end Sys2Proof.Machine
end

