-- ==== Sys2Proof/Machine/Engine.lean ====
section
/-! DEFINITION. The engine's turn and the order of turns (00_scope.md R15; 30_encoding.md R96; 60_exceptions.md R222). -/

namespace Sys2Proof.Machine

/-- The engine's turn: "While busy = 1 the engine has exactly one enabled step, `Complete`" (30_encoding.md R96), which
decodes the latched word, performs its command's rule and completes; a word that spells no command completes with
ILLEGAL_COMMAND (R93). An idle engine has no step (70_reset_and_hazards.md R240). -/
def engineTurn (s : State) : Host.Outcome State Fault Refusal :=
  if s.latch.busy then
    match decode s.latch.lcmd with
    | .command i => exec i s
    | .illegal _ => completeIllegal s
  else .next s

/-- Whose turn comes next: the schedule's first, and where the schedule has ended the engine's while a command is latched,
else the host's (assumption log 5). -/
def State.turn (s : State) : Turn :=
  match s.sched with
  | t :: _ => t
  | [] => if s.latch.busy then .engine else .host

/-- The state with its schedule moved on by one turn. -/
def State.nextTurn (s : State) : State := { s with sched := s.sched.tail }

/-- One turn. -/
def takeTurn (t : Turn) (s : State) : Host.Outcome State Fault Refusal :=
  match t with
  | .host => hostTurn s
  | .engine => engineTurn s
  | .hwReset => .next s.hwReset

/-- `s` with the word `w` accepted into the command latch (30_encoding.md R95) and the engine's turn next. -/
def State.withCommand (s : State) (w : Word) : State :=
  { s.accept w with sched := .engine :: s.sched }

end Sys2Proof.Machine
end

