-- ==== Sys2Proof/Machine/Step.lean ====
section
/-! DEFINITION. One step of the machine: one host access, one completion or one reset (20_memory.md R75;
60_exceptions.md R222). -/

namespace Sys2Proof.Machine

/-- One step: the next turn is taken. -/
def step (s : State) : Host.Outcome State Fault Refusal := takeTurn s.turn s.nextTurn

/-- `s` with a command word where the engine takes its next command, the command latch, as an accepted CMD write leaves it
(30_encoding.md R95), and the engine's turn next. -/
def State.withFetchWord (s : State) (nbits w : Nat) : State := s.withCommand (tableWord nbits w)

end Sys2Proof.Machine
end

