-- ==== Sys2Proof/WellFormed.lean ====
section
/-! DEFINITION. The checks on terms: the constraints on the parameters (00_scope.md R7), and the form of a command and of a
command word (30_encoding.md R90, R92 and R93). -/

namespace Sys2Proof

/-- x times the element `e` of GF(2)[x]/(poly): one step of the reduction of 40_gf256.md R112. -/
def xTimes (poly : BitVec 9) (e : Byte) : Byte :=
  ((e.setWidth 9 <<< 1) ^^^ (if e.getLsbD 7 then poly else 0)).setWidth 8

/-- Whether some power x^j with 1 ≤ j ≤ k equals 1, starting from the power `e`. -/
def reachesOne (poly : BitVec 9) : Nat → Byte → Bool
  | 0, _ => false
  | k + 1, e => e == 1 || reachesOne poly k (xTimes poly e)

/-- x to the power k in GF(2)[x]/(poly). -/
def xPower (poly : BitVec 9) : Nat → Byte
  | 0 => 1
  | k + 1 => xTimes poly (xPower poly k)

/-- "irreducible, with x of order 255 (primitive)" (00_scope.md R7): the polynomial has degree 8, x^255 = 1 and no smaller
power of x is 1. An x of order 255 makes every nonzero byte a power of x, so the ring is a field and the polynomial
irreducible. DEDUCED (assumption log 2). -/
def primitive (poly : BitVec 9) : Bool :=
  poly.getLsbD 8 && xPower poly 255 == 1 && !reachesOne poly 254 (xPower poly 1)

/-- The constraints of 00_scope.md R7 on the parameters. BLOCK_BASE is the platform's: no rule constrains it. -/
def Config.wf (cfg : Config) : Bool :=
  primitive cfg.gfPoly
  && decide (2 ≤ cfg.encWindow) && decide (cfg.encWindow ≤ cfg.maxCols)
  && decide (cfg.maxCols ≤ 256)
  && decide (cfg.maxCols ≤ cfg.maxRows) && decide (cfg.maxRows ≤ 65535)
  && decide (1 ≤ cfg.maxPayload) && decide (cfg.maxPayload ≤ 65533)
  && decide (4096 ≤ cfg.pmemBytes) && decide (cfg.pmemBytes ≤ 0x100000)
  && decide (cfg.pmemBytes % 4 = 0)

/-- The opcodes of the opcode map (30_encoding.md R92). -/
def definedOpcodes : List Byte :=
  [0x00, 0x01, 0x02, 0x03, 0x04, 0x08, 0x09, 0x10, 0x11, 0x12, 0x13, 0x20]

/-- The opcodes whose A field is an operand (30_encoding.md R92); in every other row it must be 0. -/
def opcodesWithA : List Byte := [0x01, 0x02, 0x03, 0x04, 0x08, 0x09, 0x10]

/-- The opcodes whose B field is an operand (30_encoding.md R92); in every other row it must be 0. -/
def opcodesWithB : List Byte := [0x01, 0x02, 0x03, 0x04]

/-- "A latched command word `w` spells a command iff" (30_encoding.md R93): its OP is defined, Z is 0 and every field that
the row marks 0 is 0. It is stated apart from the decoder, so that the two can be compared. -/
def spellsCommand (w : Word) : Bool :=
  let op := w.extractLsb' 0 8
  definedOpcodes.contains op
  && w.extractLsb' 24 8 == 0
  && (opcodesWithA.contains op || w.extractLsb' 8 8 == 0)
  && (opcodesWithB.contains op || w.extractLsb' 16 8 == 0)

/-- Well-formedness of a command. Each immediate's type is exactly as wide as its field (30_encoding.md R90 and R91: bytes,
never extended, scaled or shifted), and the spec restricts no immediate at decoding, so no check is left to make here: a
row or divisor that a rule refuses (GF_CAUCHY with row 0, GF_DIV by 0) is a command that runs and reports INVALID_INPUT. -/
def Instr.wf : Instr → Bool
  | .nop => true
  | .gfAdd _ _ => true
  | .gfMul _ _ => true
  | .gfDiv _ _ => true
  | .gfCauchy _ _ => true
  | .muladdMem _ => true
  | .mulMem _ => true
  | .genRow _ => true
  | .encOriginal => true
  | .encRecovery => true
  | .encReset => true
  | .solve => true

end Sys2Proof
end

