-- ==== Sys2Proof/Safety.lean ====
section
/-! DEFINITION. The terms that statements use: what a completion leaves (30_encoding.md R97 and R98), and the invariant of
the machine (10_state.md R43; 60_exceptions.md R210 and R224). -/

namespace Sys2Proof.Machine

/-! What a command leaves. -/

/-- `t` is `s` after a completion that reports `code` and `r` (30_encoding.md R97), with every part of the state unchanged
but RES0 to RES3, RESULT, LAST_OP, DONE and busy; the encoder state, PMEM and SLV_* are left for the statement to say. -/
structure Completed (s t : State) (code : ResultCode) (r : Results) : Prop where
  res0 : t.regs.res0 = r.r0
  res1 : t.regs.res1 = r.r1
  res2 : t.regs.res2 = r.r2
  res3 : t.regs.res3 = r.r3
  result : t.regs.result = code
  lastOp : t.regs.lastOp = fieldOp s.latch.lcmd
  done : t.regs.done = true
  latch : t.latch = { s.latch with busy := false }
  irqEn : t.regs.irqEn = s.regs.irqEn
  overrun : t.regs.overrun = s.regs.overrun
  arg0 : t.regs.arg0 = s.regs.arg0
  arg1 : t.regs.arg1 = s.regs.arg1
  arg2 : t.regs.arg2 = s.regs.arg2
  cfg : t.cfg = s.cfg
  host : t.host = s.host
  sched : t.sched = s.sched
  draws : t.draws = s.draws

/-- SLV_FAILS and SLV_LOWEST are unchanged. -/
def SlvSame (s t : State) : Prop := t.regs.slvFails = s.regs.slvFails ∧ t.regs.slvLowest = s.regs.slvLowest

/-- Every byte of PMEM reads as before. -/
def PmemSame (s t : State) : Prop := ∀ a, t.pmem.read a = s.pmem.read a

/-- Every byte of PMEM outside [lo, lo + n) reads as before. -/
def PmemSameOutside (s t : State) (lo n : Nat) : Prop :=
  ∀ a, ¬(lo ≤ a ∧ a < lo + n) → t.pmem.read a = s.pmem.read a

/-- `t` is `s` after a command that only reports: "no effect but the completion" (00_scope.md R11). -/
structure OnlyReported (s t : State) (code : ResultCode) (r : Results) : Prop where
  completed : Completed s t code r
  enc : t.enc = s.enc
  slv : SlvSame s t
  pmem : PmemSame s t

/-! Numbers and polynomials that statements compare with. -/

/-- `f 0 XOR f 1 XOR … XOR f (n-1)`. -/
def xorOver (n : Nat) (f : Nat → Byte) : Byte := (List.range n).foldr (fun k acc => f k ^^^ acc) 0

/-- `len` is the greatest of the `n` prefixed lengths of the descriptors `es` (41_rowgen_encoder.md R140). -/
def LongestPrefixed (n : Nat) (es : Nat → Odesc) (len : Nat) : Prop :=
  (∀ k, k < n → (es k).len.toNat + 2 ≤ len) ∧ ∃ k, k < n ∧ (es k).len.toNat + 2 = len

/-- The polynomial over GF(2) whose coefficients are the bits of `v`: "a byte `a = a[7:0]` stands for the polynomial
a[7]·x^7 + … + a[1]·x + a[0]" (00_scope.md R12), and GF_POLY's bits are the coefficients of p(x) (40_gf256.md R110). -/
noncomputable def bitsPoly {w : Nat} (v : BitVec w) : Polynomial (ZMod 2) :=
  ∑ k ∈ Finset.range w, if v.getLsbD k then Polynomial.X ^ k else 0

/-- The result codes that a command may report: the "raised by" column of 60_exceptions.md R210. -/
def mayReport : Instr → List ResultCode
  | .nop => [.success]
  | .gfAdd _ _ => [.success]
  | .gfMul _ _ => [.success]
  | .gfDiv _ _ => [.success, .invalidInput]
  | .gfCauchy _ _ => [.success, .invalidInput, .degenerate]
  | .muladdMem _ => [.success, .invalidInput]
  | .mulMem _ => [.success, .invalidInput]
  | .genRow _ => [.success, .invalidInput, .degenerate]
  | .encOriginal => [.success, .invalidInput]
  | .encRecovery => [.success, .needsMoreData, .invalidInput, .degenerate]
  | .encReset => [.success]
  | .solve => [.success, .needsMoreData, .invalidInput, .degenerate]

/-! The invariant. -/

/-- The encoder invariants of 10_state.md R43 that hold of every state a run reaches, with the ring's own bounds (R37, R38
and R41). R43 (5) is read with the range rule of 20_memory.md R72: ADDR of an empty original is unbounded (assumption
log 9). -/
structure Encoder.Ok (cfg : Config) (e : Encoder) : Prop where
  /-- The window has ENC_WINDOW slots (10_state.md R41). -/
  slots : e.slots.length = cfg.encWindow
  /-- CURSOR is 0..ENC_WINDOW-1 (10_state.md R38). -/
  cursor : e.cursor.toNat < cfg.encWindow
  /-- COUNT is 0..ENC_WINDOW (10_state.md R37). -/
  count : e.count.toNat ≤ cfg.encWindow
  /-- 10_state.md R43 (1). -/
  column : e.nextColumn.toNat = e.nextSeq.toNat % 256
  /-- 10_state.md R43 (3). -/
  sequences : ∀ j, j < e.count.toNat → (liveSlot cfg e j).seq = e.nextSeq - e.count.setWidth 64 + BitVec.ofNat 64 j
  /-- 10_state.md R43 (4). -/
  row : e.nextRow ≠ 0
  /-- 10_state.md R43 (5), by the range rule. -/
  payloads : ∀ j, j < e.count.toNat → (liveSlot cfg e j).payloadOk cfg = true

/-- 10_state.md R43 (5) as the spec writes it: every live slot has ADDR + LEN ≤ PMEM_BYTES and LEN ≤ MAX_PAYLOAD. It is an
inference of the spec that an ENC_ORIGINAL of length 0 can break (assumption log 9). -/
def Encoder.SlotsInPmem (cfg : Config) (e : Encoder) : Prop :=
  ∀ j, j < e.count.toNat → (liveSlot cfg e j).addr.toNat + (liveSlot cfg e j).len.toNat ≤ cfg.pmemBytes
    ∧ (liveSlot cfg e j).len.toNat ≤ cfg.maxPayload

/-- The invariant of the machine: legal parameters, R43, a canonical PMEM inside its size, DONE = 0 while a command is in
flight ("A completion while DONE is still 1 cannot happen", 60_exceptions.md R224), and no reserved result code
(60_exceptions.md R210). -/
structure State.Inv (s : State) : Prop where
  cfg : s.cfg.wf = true
  enc : s.enc.Ok s.cfg
  pmemWf : s.pmem.wf = true
  pmemWithin : s.pmem.within s.cfg.pmemBytes = true
  protocol : s.latch.busy = true → s.regs.done = false
  result : s.regs.result ≠ .duplicateData ∧ s.regs.result ≠ .outOfMemory

end Sys2Proof.Machine
end

