-- ==== Sys2Proof/Certificates/Slice0/Obligations.lean ====
section
/-! DEFINITION. The statements for the provers: what the commands, the registers, the bus, reset and the machine as a whole
do, each from the rule of spec/ that its docstring names. -/

open Sys2Proof Sys2Proof.Machine

/-! What the spec writes out, apart from the model's own functions: the statements compare the model with these. -/

/-- The byte `(s mod 256 + CAUCHY_OFFSET) mod 256` that a row byte meets at sequence `q`: den is 0 where the row equals it
(40_gf256.md R117 and R118). -/
def columnAt (cfg : Config) (q : Nat) : Byte := BitVec.ofNat 8 (q % 256 + cfg.cauchyOffset.toNat)

/-- `coef(row, s)`: 1 for row 0, and else the inverse of row XOR (s mod 256 + CAUCHY_OFFSET) (40_gf256.md R117 and R118). -/
def coefAt (cfg : Config) (row : Byte) (q : Nat) : Byte :=
  if row = 0 then 1 else gfInv cfg.gfPoly (row ^^^ columnAt cfg q)

/-- `Prefixed(addr, len)[k]`: the low byte of the length, its high byte, the payload, then zeros (20_memory.md R66). -/
def prefixedByte (m : Memory) (addr len : Nat) : Nat → Byte
  | 0 => BitVec.ofNat 8 (len % 256)
  | 1 => BitVec.ofNat 8 (len / 256)
  | k + 2 => if k < len then m.read (addr + k) else 0

/-! The fields of the problem at `d` in PMEM, by the offsets of 20_memory.md R67 to R71: row entry `i`, column entry `j` of a
problem with `r` rows, received entry `k` of one with `r` rows and `c` columns. -/

/-- START of row entry `i`. -/
def startOf (m : Memory) (d i : Nat) : Nat := m.readLE (d + 8 + 24 * i) 8

/-- COUNT of row entry `i`. -/
def countOf (m : Memory) (d i : Nat) : Nat := m.readLE (d + 8 + 24 * i + 8) 2

/-- ROW of row entry `i`. -/
def rowOf (m : Memory) (d i : Nat) : Byte := m.read (d + 8 + 24 * i + 10)

/-- PADDR of row entry `i`. -/
def paddrOf (m : Memory) (d i : Nat) : Nat := m.readLE (d + 8 + 24 * i + 12) 4

/-- PLEN of row entry `i`. -/
def plenOf (m : Memory) (d i : Nat) : Nat := m.readLE (d + 8 + 24 * i + 16) 2

/-- SEQ of column entry `j`. -/
def lostOf (m : Memory) (d r j : Nat) : Nat := m.readLE (d + 8 + 24 * r + 16 * j) 8

/-- DST of column entry `j`. -/
def dstOf (m : Memory) (d r j : Nat) : Nat := m.readLE (d + 8 + 24 * r + 16 * j + 8) 4

/-- SEQ of received entry `k`. -/
def receivedOf (m : Memory) (d r c k : Nat) : Nat := m.readLE (d + 8 + 24 * r + 16 * c + 16 * k) 8

/-- ADDR of received entry `k`. -/
def receivedAddrOf (m : Memory) (d r c k : Nat) : Nat := m.readLE (d + 8 + 24 * r + 16 * c + 16 * k + 8) 4

/-- LEN of received entry `k`. -/
def receivedLenOf (m : Memory) (d r c k : Nat) : Nat := m.readLE (d + 8 + 24 * r + 16 * c + 16 * k + 12) 2

/-- Whether `q` lies in span_i (42_solver.md R171). -/
abbrev inSpan (m : Memory) (d i q : Nat) : Prop := startOf m d i ≤ q ∧ q < startOf m d i + countOf m d i

/-- Whether `q` lies in U, the union of the `r` spans (42_solver.md R171). -/
def inUnion (m : Memory) (d r q : Nat) : Prop := ∃ i, i < r ∧ inSpan m d i q

/-! The solver's working arrays and their solution, as 42_solver.md R174 to R180 describe them. -/

/-- `S`, the greatest PLEN of the `r` rows (42_solver.md R174). -/
def LongestRow (m : Memory) (d r len : Nat) : Prop :=
  (∀ i, i < r → plenOf m d i ≤ len) ∧ ∃ i, i < r ∧ plenOf m d i = len

/-- `M[i][j]`: coef(ROW_i, SEQ_j) where SEQ_j lies in span_i, else 0 (42_solver.md R174). -/
def matrixAt (cfg : Config) (m : Memory) (d r i j : Nat) : Byte :=
  if inSpan m d i (lostOf m d r j) then coefAt cfg (rowOf m d i) (lostOf m d r j) else 0

/-- `Dg[i][b]` after EliminateOriginals: the row's payload byte, 0 past its end, XOR the contributions of the received
originals in its span (42_solver.md R174 and R176). -/
def lostPartAt (cfg : Config) (m : Memory) (d r c n i b : Nat) : Byte :=
  (if b < plenOf m d i then m.read (paddrOf m d i + b) else 0)
    ^^^ xorOver n fun k =>
      if inSpan m d i (receivedOf m d r c k) then
        gfMul cfg.gfPoly (coefAt cfg (rowOf m d i) (receivedOf m d r c k))
          (prefixedByte m (receivedAddrOf m d r c k) (receivedLenOf m d r c k) b)
      else 0

/-- The `c` columns of the matrix `a` of `r` rows are linearly dependent: its rank is below `c`. -/
def DependentColumns (poly : BitVec 9) (a : Nat → Nat → Byte) (r c : Nat) : Prop :=
  ∃ x : Nat → Byte, (∃ j, j < c ∧ x j ≠ 0) ∧ ∀ i, i < r → xorOver c (fun j => gfMul poly (a i j) (x j)) = 0

/-- Row `i` of the matrix `a`, at column `j`, with `f k` times each pivot row `piv[k]` added. -/
def combined (poly : BitVec 9) (a : Nat → Nat → Byte) (piv : List Nat) (f : Nat → Byte) (i j : Nat) : Byte :=
  a i j ^^^ xorOver piv.length fun k => gfMul poly (f k) (a (piv.getD k 0) j)

/-- Row `i` may be the pivot of column `j` after the pivots `piv` of the columns before it: it is no pivot yet, and adding
multiples of the pivot rows that clear its columns before `j` leaves column `j` nonzero (42_solver.md R177 and R178). -/
def PivotCandidate (poly : BitVec 9) (a : Nat → Nat → Byte) (piv : List Nat) (j i : Nat) : Prop :=
  i ∉ piv ∧ ∃ f, (∀ j', j' < j → combined poly a piv f i j' = 0) ∧ combined poly a piv f i j ≠ 0

/-- `piv` holds one row for each of the `c` columns, in order, each the lowest-numbered candidate (42_solver.md R177 and
R178). -/
def PivotRows (poly : BitVec 9) (a : Nat → Nat → Byte) (r c : Nat) (piv : List Nat) : Prop :=
  piv.length = c ∧ ∀ j, j < c → piv.getD j 0 < r ∧ PivotCandidate poly a (piv.take j) j (piv.getD j 0)
    ∧ ∀ i, i < piv.getD j 0 → ¬PivotCandidate poly a (piv.take j) j i

/-- `L_j` of a recovered prefixed payload: its first byte and 256 times its second, which is read as 0 where there is none
(42_solver.md R180). -/
def storedLen (x : List Byte) : Nat := (x.getD 0 0).toNat + 256 * (x.getD 1 0).toNat

/-! Encoding and steps. -/

/-- 30_encoding.md R92, R93 and R99: the decoder reads back every command that the encoder writes, with every operand.
-/
def Obligations.DecodeInvertsEncode : Prop := ∀ i : Instr, decode (encode i) = .command i

/-- 30_encoding.md R93: a word decodes to a command exactly where it spells one, and it is then that command's one
word. -/
def Obligations.WordsSpellOneCommand : Prop :=
  ∀ w : Word, (spellsCommand w = true ↔ ∃ i, decode w = .command i) ∧ ∀ i, decode w = .command i → encode i = w

/-- Words written out from the opcode map (30_encoding.md R92), one or two of each family, and two that spell nothing.
-/
def Obligations.TableWordsDecode : Prop :=
  decode 0x00000000 = .command .nop ∧ decode 0x00CA5301 = .command (.gfAdd 0x53 0xCA)
  ∧ decode 0x00CA5303 = .command (.gfDiv 0x53 0xCA) ∧ decode 0x002A5504 = .command (.gfCauchy 0x55 0x2A)
  ∧ decode 0x00000208 = .command (.muladdMem 0x02) ∧ decode 0x00005309 = .command (.mulMem 0x53)
  ∧ decode 0x00000110 = .command (.genRow 0x01) ∧ decode 0x00000012 = .command .encRecovery
  ∧ decode 0x00000020 = .command .solve ∧ decode 0x00010209 = .illegal .bNotZero
  ∧ decode 0x000000FF = .illegal .undefinedOpcode

/-- 30_encoding.md R96: on the engine's turn, with a latched word that decodes to a command, the step is the command's
meaning, on the state whose schedule has moved on by one turn and is otherwise as it was. -/
def Obligations.StepRunsDecodedCommand : Prop :=
  ∀ (s : State) (i : Instr), s.turn = .engine → s.latch.busy = true → decode s.latch.lcmd = .command i →
    step s = exec i { s with sched := s.sched.tail }

/-- 30_encoding.md R93 and 60_exceptions.md R211: on the engine's turn, a latched word that spells no command
completes with ILLEGAL_COMMAND, LAST_OP = w[7:0], and no other effect. -/
def Obligations.IllegalWordsComplete : Prop :=
  ∀ s : State, s.turn = .engine → s.latch.busy = true → spellsCommand s.latch.lcmd = false →
    ∃ t, step s = .next t ∧ OnlyReported s.nextTurn t .illegalCommand Results.zero
      ∧ t.regs.lastOp = s.latch.lcmd.extractLsb' 0 8

/-- 20_memory.md R75: on the host's turn the step is the host's next statement, a bus write or a bus read that takes effect
completely, or a branch `BNZ t AND mask` (30_encoding.md R99). What the host agent keeps, and that a host whose program has
ended and an engine with no command latched change nothing but the schedule, are the model's choices (assumption log 4
and 5). -/
def Obligations.StepRunsOneAccess : Prop :=
  ∀ s : State,
    (s.turn = .host → ∀ off n v, s.host.prog[s.host.pos]? = some (.store off n v) →
      step s = match busWrite s.nextTurn off n v with
        | .ok s' => .next { s' with host := { s.host with pos := s.host.pos + 1 } }
        | .fault f => .fault f
        | .refused r => .refused r)
    ∧ (s.turn = .host → ∀ off n x, s.host.prog[s.host.pos]? = some (.load off n x) →
      step s = match busRead s.nextTurn off n with
        | .ok v => .next { s.nextTurn with host := s.host.named x v }
        | .fault f => .fault f
        | .refused r => .refused r)
    ∧ (s.turn = .host → ∀ x mask distance, s.host.prog[s.host.pos]? = some (.bnz x mask distance) →
      step s = .next { s.nextTurn with
        host := { s.host with
          pos := if s.host.vars.getD x 0 &&& mask = 0 then s.host.pos + 1 else ((s.host.pos : Int) + distance).toNat } })
    ∧ (s.turn = .host → s.host.prog[s.host.pos]? = none → step s = .next s.nextTurn)
    ∧ (s.turn = .engine → s.latch.busy = false → step s = .next s.nextTurn)

/-- 30_encoding.md R95, acceptance. -/
def Obligations.CommandWordAcceptance : Prop :=
  ∀ (s : State) (w : Word),
    (s.latch.busy = true → busWrite s 0x028 4 w = .ok { s with regs := { s.regs with overrun := true } })
    ∧ (s.latch.busy = false → busWrite s 0x028 4 w = .ok { s with
        regs := { s.regs with done := false }
        latch :=
          { busy := true, lcmd := w, larg0 := s.regs.arg0, larg1 := s.regs.arg1, larg2 := s.regs.arg2 } })

/-! What every command does. -/

/-- 30_encoding.md R96: every command completes, from every state. -/
def Obligations.EveryCommandCompletes : Prop :=
  ∀ (i : Instr) (s : State), ∃ t, exec i s = .next t ∧ t.latch.busy = false ∧ t.regs.done = true

/-- 30_encoding.md R97: every command ends with `complete(code, r0, r1, r2, r3)`: RES0 to RES3 are 0 unless code =
SUCCESS, RESULT is the code, LAST_OP is lcmd[7:0] (the command's opcode where lcmd spells it), busy is 0 and DONE is
1; and no command changes IRQ_EN, OVERRUN, ARG0 to ARG2, the latched word and arguments, or the configuration. -/
def Obligations.EveryCommandReports : Prop :=
  ∀ (i : Instr) (s t : State), exec i s = .next t →
    ∃ (code : ResultCode) (r : Results), Completed s t code r ∧ (code ≠ .success → r = Results.zero)
      ∧ (decode s.latch.lcmd = .command i → t.regs.lastOp = i.opcode)

/-- 30_encoding.md R98: a command that ends with a code other than SUCCESS changes no encoder state, no PMEM byte and no
SLV register, except for a SOLVE that ends with NEEDS_MORE_DATA. -/
def Obligations.FailedCommandsOnlyReport : Prop :=
  ∀ (i : Instr) (s t : State), exec i s = .next t → t.regs.result ≠ .success →
    t.enc = s.enc ∧ PmemSame s t ∧ (SlvSame s t ∨ (i = .solve ∧ t.regs.result = .needsMoreData))

/-- 60_exceptions.md R210: each command reports only the codes that the table lets it raise, so DUPLICATE_DATA,
OUT_OF_MEMORY and (from a command) ILLEGAL_COMMAND are never produced; and the codes have the numbers of the table. -/
def Obligations.CommandsReportListedCodes : Prop :=
  (∀ (i : Instr) (s t : State), exec i s = .next t → t.regs.result ∈ mayReport i)
  ∧ ResultCode.success.number = 0 ∧ ResultCode.needsMoreData.number = 1 ∧ ResultCode.duplicateData.number = 2
  ∧ ResultCode.invalidInput.number = 3 ∧ ResultCode.outOfMemory.number = 4 ∧ ResultCode.degenerate.number = 5
  ∧ ResultCode.illegalCommand.number = 6

/-- 10_state.md R35 to R37: only ENC_ORIGINAL, ENC_RECOVERY and ENC_RESET write encoder state; R39 and R40: only SOLVE
writes the SLV registers; and only the five commands to which 70_reset_and_hazards.md R242 gives a write set write PMEM. -/
def Obligations.OnlyOwnersWriteState : Prop :=
  ∀ (i : Instr) (s t : State), exec i s = .next t →
    ((i ≠ .encOriginal ∧ i ≠ .encRecovery ∧ i ≠ .encReset) → t.enc = s.enc)
    ∧ (i ≠ .solve → SlvSame s t)
    ∧ ((∀ c, i ≠ .muladdMem c) → (∀ c, i ≠ .mulMem c) → (∀ row, i ≠ .genRow row) → i ≠ .encRecovery → i ≠ .solve →
        PmemSame s t)

/-- Whether an address is one of the output bytes of a SOLVE, on the problem at `d` with `r` rows and `c` columns, with the
recovered prefixed payloads `xs` (42_solver.md R181): a recovered byte, RLEN or CFLAGS of a column, or RFLAGS of a row. -/
def solveOutput (m : Memory) (d r c : Nat) (xs : List (List Byte)) (a : Nat) : Prop :=
  (∃ j, j < c ∧ dstOf m d r j ≤ a ∧ a < dstOf m d r j + storedLen (xs.getD j []))
  ∨ (∃ j, j < c ∧ d + 8 + 24 * r + 16 * j + 12 ≤ a ∧ a < d + 8 + 24 * r + 16 * j + 15)
  ∨ ∃ i, i < r ∧ a = d + 8 + 24 * i + 11

/-- The write set that 70_reset_and_hazards.md R242 lists for a command that succeeds from `s` into `t`: [dst, dst + n) for the
bulk commands; [dst, dst + outLen), with outLen as RES3 reports it, for the row generators; for SOLVE the DST ranges and
the RLEN, CFLAGS and RFLAGS fields; nothing for any other command. -/
def listedWriteSet (i : Instr) (s t : State) (a : Nat) : Prop :=
  match i with
  | .nop => False
  | .gfAdd _ _ => False
  | .gfMul _ _ => False
  | .gfDiv _ _ => False
  | .gfCauchy _ _ => False
  | .muladdMem _ => s.latch.larg0.toNat ≤ a ∧ a < s.latch.larg0.toNat + s.latch.larg2.toNat
  | .mulMem _ => s.latch.larg0.toNat ≤ a ∧ a < s.latch.larg0.toNat + s.latch.larg2.toNat
  | .genRow _ => s.latch.larg0.toNat ≤ a ∧ a < s.latch.larg0.toNat + t.regs.res3.toNat
  | .encOriginal => False
  | .encRecovery => s.latch.larg0.toNat ≤ a ∧ a < s.latch.larg0.toNat + t.regs.res3.toNat
  | .encReset => False
  | .solve => ∃ xs piv, (problemAt s.pmem s.latch.larg0.toNat).solution s.cfg s.pmem = some (xs, piv)
      ∧ solveOutput s.pmem s.latch.larg0.toNat (s.pmem.readLE s.latch.larg0.toNat 2)
          (s.pmem.readLE (s.latch.larg0.toNat + 2) 2) xs a

/-- 70_reset_and_hazards.md R242: a command changes no PMEM byte outside its write set; the write set of a command that
succeeds is exactly the one the rule lists; and "A command that would have failed has an empty write set". -/
def Obligations.WriteSetBoundsWrites : Prop :=
  ∀ (i : Instr) (s t : State), exec i s = .next t →
    (∀ a, a ∉ writeSet i s → t.pmem.read a = s.pmem.read a)
    ∧ (t.regs.result = .success → ∀ a, a ∈ writeSet i s ↔ listedWriteSet i s t a)
    ∧ (t.regs.result ≠ .success → writeSet i s = [])

/-! The field. -/

/-- 40_gf256.md R112: gf_mul is the product of the polynomials, reduced modulo p(x), for every p(x) of degree 8. -/
def Obligations.ProductIsReducedPolynomial : Prop :=
  ∀ (poly : BitVec 9) (a b : Byte), poly.getLsbD 8 = true →
    bitsPoly (gfMul poly a b) = (bitsPoly a * bitsPoly b) %ₘ bitsPoly poly

/-- 40_gf256.md R115, which the spec derives: the laws of the field, for every p(x) of degree 8, and the last two for
every primitive one. -/
def Obligations.FieldLawsHold : Prop :=
  (∀ poly : BitVec 9, poly.getLsbD 8 = true → ∀ a b c : Byte,
    gfMul poly a b = gfMul poly b a
    ∧ gfMul poly (gfMul poly a b) c = gfMul poly a (gfMul poly b c)
    ∧ gfMul poly a (gfAdd b c) = gfAdd (gfMul poly a b) (gfMul poly a c)
    ∧ gfMul poly 1 a = a ∧ gfMul poly 0 a = 0)
  ∧ (∀ poly : BitVec 9, primitive poly = true → ∀ a b : Byte,
    (a ≠ 0 → b ≠ 0 → gfMul poly a b ≠ 0) ∧ (b ≠ 0 → gfMul poly (gfDiv poly a b) b = a))
  ∧ gfMul 0x14D 0x53 0xCA = 0x94 ∧ gfMul 0x14D 0x57 0x83 = 0x43 ∧ gfMul 0x14D 0x83 0x57 = 0x43
  ∧ gfMul 0x14D 0x02 0x80 = 0x4D ∧ gfInv 0x14D 0x02 = 0xA6

/-- 40_gf256.md R113, which the spec derives: for b ≠ 0, gf_inv(b) is the unique byte z with gf_mul(b, z) = 1, for
every primitive p(x). -/
def Obligations.InverseIsUnique : Prop :=
  ∀ (poly : BitVec 9) (b : Byte), primitive poly = true → b ≠ 0 →
    gfMul poly b (gfInv poly b) = 1 ∧ ∀ z, gfMul poly b z = 1 → z = gfInv poly b

/-- 40_gf256.md R117 and 90_conflicts.md C1: den is row XOR ((col + CAUCHY_OFFSET) mod 256), and "every row meets exactly one
column where den = 0", whatever CAUCHY_OFFSET is. -/
def Obligations.EachRowHasOneDegenerateColumn : Prop :=
  ∀ (cfg : Config) (row : Byte),
    (∀ col, den cfg row col = row ^^^ BitVec.ofNat 8 (col.toNat + cfg.cauchyOffset.toNat))
    ∧ (∃ col, den cfg row col = 0) ∧ ∀ c c' : Byte, den cfg row c = 0 → den cfg row c' = 0 → c = c'

/-! Scalar and control commands. -/

/-- 43_control.md R200: NOP, its word, and its completion. -/
def Obligations.NopOnlyCompletes : Prop :=
  decode 0x00000000 = .command .nop
  ∧ ∀ s : State, ∃ t, exec .nop s = .next t ∧ OnlyReported s t .success Results.zero

/-- 40_gf256.md R120: GF_ADD, its word, and its result. -/
def Obligations.GfAddReportsSum : Prop :=
  ∀ a b : Byte, decode ((b.setWidth 32 <<< 16) ||| (a.setWidth 32 <<< 8) ||| 0x01) = .command (.gfAdd a b)
    ∧ ∀ s : State, ∃ t, exec (.gfAdd a b) s = .next t
      ∧ OnlyReported s t .success { r0 := (a ^^^ b).setWidth 32, r1 := 0, r2 := 0, r3 := 0 }

/-- 40_gf256.md R121: GF_MUL, its word, and its result. -/
def Obligations.GfMulReportsProduct : Prop :=
  ∀ a b : Byte, decode ((b.setWidth 32 <<< 16) ||| (a.setWidth 32 <<< 8) ||| 0x02) = .command (.gfMul a b)
    ∧ ∀ s : State, ∃ t, exec (.gfMul a b) s = .next t
      ∧ OnlyReported s t .success { r0 := (gfMul s.cfg.gfPoly a b).setWidth 32, r1 := 0, r2 := 0, r3 := 0 }

/-- 40_gf256.md R114 and R122: GF_DIV, its word, INVALID_INPUT iff b = 0, and else the quotient a times gf_inv(b). That the
quotient's product with b is a is R115's law, which the spec derives. -/
def Obligations.GfDivReportsQuotient : Prop :=
  ∀ a b : Byte, decode ((b.setWidth 32 <<< 16) ||| (a.setWidth 32 <<< 8) ||| 0x03) = .command (.gfDiv a b)
    ∧ ∀ s : State, s.cfg.wf = true →
      (b = 0 → ∃ t, exec (.gfDiv a b) s = .next t ∧ OnlyReported s t .invalidInput Results.zero)
      ∧ (b ≠ 0 → ∃ t q, exec (.gfDiv a b) s = .next t
          ∧ OnlyReported s t .success { r0 := q.setWidth 32, r1 := 0, r2 := 0, r3 := 0 }
          ∧ q = gfMul s.cfg.gfPoly a (gfInv s.cfg.gfPoly b) ∧ gfMul s.cfg.gfPoly q b = a)

/-- 40_gf256.md R123: GF_CAUCHY, its word, its two checks in order, and else the inverse of den. That the inverse's product
with den is 1 is R113, which the spec derives. -/
def Obligations.GfCauchyReportsCoefficient : Prop :=
  ∀ row col : Byte,
    decode ((col.setWidth 32 <<< 16) ||| (row.setWidth 32 <<< 8) ||| 0x04) = .command (.gfCauchy row col)
    ∧ ∀ s : State, s.cfg.wf = true →
      (row = 0 → ∃ t, exec (.gfCauchy row col) s = .next t ∧ OnlyReported s t .invalidInput Results.zero)
      ∧ (row ≠ 0 → row = col + s.cfg.cauchyOffset →
          ∃ t, exec (.gfCauchy row col) s = .next t ∧ OnlyReported s t .degenerate Results.zero)
      ∧ (row ≠ 0 → row ≠ col + s.cfg.cauchyOffset →
          ∃ t z, exec (.gfCauchy row col) s = .next t
            ∧ OnlyReported s t .success { r0 := z.setWidth 32, r1 := 0, r2 := 0, r3 := 0 }
            ∧ z = gfInv s.cfg.gfPoly (row ^^^ (col + s.cfg.cauchyOffset))
            ∧ gfMul s.cfg.gfPoly (row ^^^ (col + s.cfg.cauchyOffset)) z = 1)

/-! Bulk commands. -/

/-- The byte that the ascending loop reads at src + i: what it wrote there where src + i lies in [dst, dst + i), else
what was there before (40_gf256.md R130 and R131). -/
def readInLoop (s t : State) (dst src i : Nat) : Byte :=
  if dst ≤ src + i ∧ src + i < dst + i then t.pmem.read (src + i) else s.pmem.read (src + i)

/-- 40_gf256.md R130: MULADD_MEM, its word, its check, and every byte of PMEM after it, overlapping ranges included. -/
def Obligations.MulAddMemFollowsAscendingLoop : Prop :=
  ∀ c : Byte, decode ((c.setWidth 32 <<< 8) ||| 0x08) = .command (.muladdMem c)
    ∧ ∀ (s : State) (dst src n : Nat), s.latch.larg0.toNat = dst → s.latch.larg1.toNat = src →
      s.latch.larg2.toNat = n →
      (n ≠ 0 → (s.cfg.pmemBytes < dst + n ∨ s.cfg.pmemBytes < src + n) →
        ∃ t, exec (.muladdMem c) s = .next t ∧ OnlyReported s t .invalidInput Results.zero)
      ∧ (s.pmem.wf = true → (n = 0 ∨ (dst + n ≤ s.cfg.pmemBytes ∧ src + n ≤ s.cfg.pmemBytes)) →
        ∃ t, exec (.muladdMem c) s = .next t ∧ Completed s t .success Results.zero ∧ t.enc = s.enc ∧ SlvSame s t
          ∧ (∀ i, i < n → t.pmem.read (dst + i)
              = s.pmem.read (dst + i) ^^^ gfMul s.cfg.gfPoly (readInLoop s t dst src i) c)
          ∧ PmemSameOutside s t dst n)

/-- 40_gf256.md R131: MUL_MEM, its word, its check, and every byte of PMEM after it, overlapping ranges included. -/
def Obligations.MulMemFollowsAscendingLoop : Prop :=
  ∀ c : Byte, decode ((c.setWidth 32 <<< 8) ||| 0x09) = .command (.mulMem c)
    ∧ ∀ (s : State) (dst src n : Nat), s.latch.larg0.toNat = dst → s.latch.larg1.toNat = src →
      s.latch.larg2.toNat = n →
      (n ≠ 0 → (s.cfg.pmemBytes < dst + n ∨ s.cfg.pmemBytes < src + n) →
        ∃ t, exec (.mulMem c) s = .next t ∧ OnlyReported s t .invalidInput Results.zero)
      ∧ (s.pmem.wf = true → (n = 0 ∨ (dst + n ≤ s.cfg.pmemBytes ∧ src + n ≤ s.cfg.pmemBytes)) →
        ∃ t, exec (.mulMem c) s = .next t ∧ Completed s t .success Results.zero ∧ t.enc = s.enc ∧ SlvSame s t
          ∧ (∀ i, i < n → t.pmem.read (dst + i) = gfMul s.cfg.gfPoly (readInLoop s t dst src i) c)
          ∧ PmemSameOutside s t dst n)

/-! The row generator and the encoder. -/

/-- Byte `b` of a recovery payload over the `n` originals `es`: the XOR of their prefixed payloads, each times its
coefficient (41_rowgen_encoder.md R140), with the coefficient of 40_gf256.md R118 and the prefix of 20_memory.md R66. -/
def payloadByte (s : State) (row : Byte) (n : Nat) (es : Nat → Odesc) (b : Nat) : Byte :=
  xorOver n fun k => gfMul s.cfg.gfPoly (coefAt s.cfg row (es k).seq.toNat)
    (prefixedByte s.pmem (es k).addr.toNat (es k).len.toNat b)

/-- The conditions under which GEN_ROW makes its writes (41_rowgen_encoder.md R144, checks 1 to 6), on the `n` ODESCs
from `list` up and the output length `len`. -/
structure GenRowRuns (row : Byte) (s : State) (dst list n len : Nat) : Prop where
  larg0 : s.latch.larg0.toNat = dst
  larg1 : s.latch.larg1.toNat = list
  larg2 : s.latch.larg2.toNat = n
  atLeastOne : 1 ≤ n
  atMost : n ≤ s.cfg.maxCols
  listInRange : list + 16 * n ≤ s.cfg.pmemBytes
  contiguous : ∀ k, k < n →
    (odescAt s.pmem (list + 16 * k)).seq = (odescAt s.pmem list).seq + BitVec.ofNat 64 k
  payloads : ∀ k, k < n → (odescAt s.pmem (list + 16 * k)).payloadOk s.cfg = true
  coefs : row ≠ 0 → ∀ k, k < n →
    row ≠ columnAt s.cfg (odescAt s.pmem (list + 16 * k)).seq.toNat
  longest : LongestPrefixed n (fun k => odescAt s.pmem (list + 16 * k)) len
  dstInRange : dst + len ≤ s.cfg.pmemBytes

/-- 41_rowgen_encoder.md R140 and R144: GEN_ROW, its word, and its completion where its six checks hold: RES, the output
bytes, all read before any is written, and every other byte and register as before. -/
def Obligations.GenRowWritesRowPayload : Prop :=
  ∀ row : Byte, decode ((row.setWidth 32 <<< 8) ||| 0x10) = .command (.genRow row)
    ∧ ∀ (s : State) (dst list n len : Nat), s.cfg.wf = true → s.pmem.wf = true → GenRowRuns row s dst list n len →
      ∃ t, exec (.genRow row) s = .next t
        ∧ Completed s t .success
          { r0 := (odescAt s.pmem list).seq.extractLsb' 0 32
            r1 := (odescAt s.pmem list).seq.extractLsb' 32 32
            r2 := (row.setWidth 32 <<< 16) ||| BitVec.ofNat 32 n
            r3 := BitVec.ofNat 32 len }
        ∧ t.enc = s.enc ∧ SlvSame s t
        ∧ (∀ b, b < len → t.pmem.read (dst + b)
            = payloadByte s row n (fun k => odescAt s.pmem (list + 16 * k)) b)
        ∧ PmemSameOutside s t dst len

/-- 41_rowgen_encoder.md R144 and 60_exceptions.md R213: a failure of GEN_ROW's checks 1 to 4 ends it with
INVALID_INPUT; where those hold, one of check 5 with DEGENERATE; where 1 to 5 hold, one of check 6 with INVALID_INPUT;
each with no effect. -/
def Obligations.GenRowReportsFirstFailure : Prop :=
  ∀ (row : Byte) (s : State) (dst list n len : Nat), s.latch.larg0.toNat = dst → s.latch.larg1.toNat = list →
    s.latch.larg2.toNat = n →
    ((n < 1 ∨ s.cfg.maxCols < n ∨ s.cfg.pmemBytes < list + 16 * n
        ∨ (∃ k, k < n ∧ (odescAt s.pmem (list + 16 * k)).seq ≠ (odescAt s.pmem list).seq + BitVec.ofNat 64 k)
        ∨ ∃ k, k < n ∧ (odescAt s.pmem (list + 16 * k)).payloadOk s.cfg = false) →
      ∃ t, exec (.genRow row) s = .next t ∧ OnlyReported s t .invalidInput Results.zero)
    ∧ (1 ≤ n → n ≤ s.cfg.maxCols → list + 16 * n ≤ s.cfg.pmemBytes →
      (∀ k, k < n → (odescAt s.pmem (list + 16 * k)).seq = (odescAt s.pmem list).seq + BitVec.ofNat 64 k) →
      (∀ k, k < n → (odescAt s.pmem (list + 16 * k)).payloadOk s.cfg = true) →
      (row ≠ 0 → (∃ k, k < n ∧ row = columnAt s.cfg (odescAt s.pmem (list + 16 * k)).seq.toNat) →
        ∃ t, exec (.genRow row) s = .next t ∧ OnlyReported s t .degenerate Results.zero)
      ∧ ((row ≠ 0 → ∀ k, k < n → row ≠ columnAt s.cfg (odescAt s.pmem (list + 16 * k)).seq.toNat) →
        LongestPrefixed n (fun k => odescAt s.pmem (list + 16 * k)) len → s.cfg.pmemBytes < dst + len →
        ∃ t, exec (.genRow row) s = .next t ∧ OnlyReported s t .invalidInput Results.zero))

/-- 41_rowgen_encoder.md R140: "For row = 0 this is the XOR of all covered originals (length-prefixed, padded to the
maximum)". -/
def Obligations.ParityPayloadIsPlainXor : Prop :=
  ∀ (cfg : Config) (m : Memory) (es : List Odesc) (b : Nat), b < outLen es →
    (rowPayload cfg m 0 es).getD b 0 = es.foldr (fun e acc => prefixedByte m e.addr.toNat e.len.toNat b ^^^ acc) 0

/-- 41_rowgen_encoder.md R151: ENC_ORIGINAL, its word, its check, and the encoder state and RES after it. -/
def Obligations.EncOriginalAppendsSlot : Prop :=
  decode 0x00000011 = .command .encOriginal
  ∧ ∀ (s : State) (addr len : Nat), s.latch.larg0.toNat = addr → s.latch.larg1.toNat = len →
    ((s.cfg.maxPayload < len ∨ (len ≠ 0 ∧ s.cfg.pmemBytes < addr + len)) →
      ∃ t, exec .encOriginal s = .next t ∧ OnlyReported s t .invalidInput Results.zero)
    ∧ (s.cfg.wf = true → s.enc.Ok s.cfg → len ≤ s.cfg.maxPayload → (len = 0 ∨ addr + len ≤ s.cfg.pmemBytes) →
      ∃ t, exec .encOriginal s = .next t
        ∧ Completed s t .success
          { r0 := s.enc.nextSeq.extractLsb' 0 32, r1 := s.enc.nextSeq.extractLsb' 32 32, r2 := 0, r3 := 0 }
        ∧ SlvSame s t ∧ PmemSame s t
        ∧ t.enc.slots[s.enc.cursor.toNat]?
          = some { seq := s.enc.nextSeq, addr := BitVec.ofNat 32 addr, len := BitVec.ofNat 16 len }
        ∧ (∀ k, k ≠ s.enc.cursor.toNat → t.enc.slots[k]? = s.enc.slots[k]?)
        ∧ t.enc.cursor.toNat = (s.enc.cursor.toNat + 1) % s.cfg.encWindow
        ∧ t.enc.count.toNat = min (s.enc.count.toNat + 1) s.cfg.encWindow
        ∧ t.enc.nextSeq.toNat = (s.enc.nextSeq.toNat + 1) % 2 ^ 64
        ∧ t.enc.nextColumn.toNat = (s.enc.nextColumn.toNat + 1) % 256
        ∧ t.enc.newData = true ∧ t.enc.nextRow = s.enc.nextRow ∧ t.enc.nextParity = s.enc.nextParity)

/-- The row of the next recovery (41_rowgen_encoder.md R153 and R154): start = (NextSequence - COUNT) mod 2^64, and
row 0 iff start ≥ NextParitySequence, unsigned. -/
def chosenRow (e : Encoder) (start : Nat) : Byte := if e.nextParity.toNat ≤ start then 0 else e.nextRow

/-- 41_rowgen_encoder.md R153 to R155: ENC_RECOVERY, its word, and its completion where its four checks hold, on an
encoder that meets 10_state.md R43: RES, the output bytes, the encoder state, and every other byte and register as
before. -/
def Obligations.EncRecoveryEmitsPacket : Prop :=
  decode 0x00000012 = .command .encRecovery
  ∧ ∀ (s : State) (dst n start len : Nat) (row : Byte), s.cfg.wf = true → s.pmem.wf = true → s.enc.Ok s.cfg →
    s.latch.larg0.toNat = dst → s.enc.count.toNat = n → 2 ≤ n → s.enc.newData = true →
    start = (s.enc.nextSeq.toNat + 2 ^ 64 - n) % 2 ^ 64 → row = chosenRow s.enc start →
    (row ≠ 0 → ∀ j, j < n → row ≠ columnAt s.cfg (liveSlot s.cfg s.enc j).seq.toNat) →
    LongestPrefixed n (liveSlot s.cfg s.enc) len → dst + len ≤ s.cfg.pmemBytes →
    ∃ t, exec .encRecovery s = .next t
      ∧ Completed s t .success
        { r0 := (BitVec.ofNat 64 start).extractLsb' 0 32
          r1 := (BitVec.ofNat 64 start).extractLsb' 32 32
          r2 := (row.setWidth 32 <<< 16) ||| BitVec.ofNat 32 n
          r3 := BitVec.ofNat 32 len }
      ∧ SlvSame s t
      ∧ (∀ b, b < len → t.pmem.read (dst + b) = payloadByte s row n (liveSlot s.cfg s.enc) b)
      ∧ PmemSameOutside s t dst len
      ∧ t.enc.newData = false
      ∧ (row = 0 → t.enc.nextParity = s.enc.nextSeq ∧ t.enc.nextRow = s.enc.nextRow)
      ∧ (row ≠ 0 → t.enc.nextParity = s.enc.nextParity
          ∧ t.enc.nextRow.toNat = if s.enc.nextRow.toNat = 255 then 1 else s.enc.nextRow.toNat + 1)
      ∧ t.enc.nextSeq = s.enc.nextSeq ∧ t.enc.nextColumn = s.enc.nextColumn ∧ t.enc.count = s.enc.count
      ∧ t.enc.cursor = s.enc.cursor ∧ t.enc.slots = s.enc.slots

/-- 41_rowgen_encoder.md R155 and 60_exceptions.md R213: ENC_RECOVERY's failures in order, COUNT, then NEW_DATA, then
DEGENERATE, then the output range, each with no effect. -/
def Obligations.EncRecoveryReportsFirstFailure : Prop :=
  ∀ (s : State) (dst n start len : Nat) (row : Byte), s.enc.Ok s.cfg → s.cfg.wf = true →
    s.latch.larg0.toNat = dst → s.enc.count.toNat = n → start = (s.enc.nextSeq.toNat + 2 ^ 64 - n) % 2 ^ 64 →
    row = chosenRow s.enc start →
    ((n < 2 ∨ s.enc.newData = false) →
      ∃ t, exec .encRecovery s = .next t ∧ OnlyReported s t .needsMoreData Results.zero)
    ∧ (2 ≤ n → s.enc.newData = true → row ≠ 0 →
      (∃ j, j < n ∧ row = columnAt s.cfg (liveSlot s.cfg s.enc j).seq.toNat) →
      ∃ t, exec .encRecovery s = .next t ∧ OnlyReported s t .degenerate Results.zero)
    ∧ (2 ≤ n → s.enc.newData = true →
      (row ≠ 0 → ∀ j, j < n → row ≠ columnAt s.cfg (liveSlot s.cfg s.enc j).seq.toNat) →
      LongestPrefixed n (liveSlot s.cfg s.enc) len → s.cfg.pmemBytes < dst + len →
      ∃ t, exec .encRecovery s = .next t ∧ OnlyReported s t .invalidInput Results.zero)

/-- 41_rowgen_encoder.md R160: ENC_RESET, its word, and the encoder after it; the slots, PMEM and the SLV registers
are not touched. -/
def Obligations.EncResetEmptiesWindow : Prop :=
  decode 0x00000013 = .command .encReset
  ∧ ∀ s : State, ∃ t, exec .encReset s = .next t ∧ Completed s t .success Results.zero ∧ PmemSame s t ∧ SlvSame s t
    ∧ t.enc = { nextSeq := 0, nextParity := 0, nextColumn := 0, nextRow := 1, count := 0, cursor := 0,
                newData := false, slots := s.enc.slots }

/-- 41_rowgen_encoder.md R149, which the spec derives: in an encoder that meets 10_state.md R43, the column
`(NextColumn − span_size + j) mod 256` that ENC_RECOVERY checks for the j-th original is the column byte of its sequence,
s mod 256. -/
def Obligations.ColumnByteIsSequenceByte : Prop :=
  (∀ q : Nat, (columnByte q).toNat = q % 256)
  ∧ ∀ (cfg : Config) (e : Encoder) (j : Nat),
    ((e.column j).toNat : Int) = ((e.nextColumn.toNat : Int) - e.count.toNat + j) % 256
    ∧ (e.Ok cfg → j < e.count.toNat → e.column j = columnByte (liveSlot cfg e j).seq.toNat)

/-- 41_rowgen_encoder.md R157, which the spec derives: ENC_RECOVERY's output and RES values equal those of GEN_ROW
with the same row, over the live slots written as ODESCs in oldest-first order, in a PMEM with the same payloads. -/
def Obligations.EncRecoveryEqualsGenRow : Prop :=
  ∀ (s u t : State) (list : Nat), s.cfg.wf = true → s.enc.Ok s.cfg → s.pmem.wf = true → u.pmem.wf = true →
    u.cfg = s.cfg → u.latch.larg0 = s.latch.larg0 → u.latch.larg1.toNat = list →
    u.latch.larg2.toNat = s.enc.count.toNat → list + 16 * s.enc.count.toNat ≤ s.cfg.pmemBytes →
    (∀ k, k < s.enc.count.toNat → ∀ b, b < 16 →
      u.pmem.read (list + 16 * k + b) = (odescBytes (liveSlot s.cfg s.enc k)).getD b 0) →
    (∀ k, k < s.enc.count.toNat → ∀ b, b < (liveSlot s.cfg s.enc k).len.toNat →
      u.pmem.read ((liveSlot s.cfg s.enc k).addr.toNat + b) = s.pmem.read ((liveSlot s.cfg s.enc k).addr.toNat + b)) →
    exec .encRecovery s = .next t → t.regs.result = .success →
    ∃ v, exec (.genRow s.enc.recoveryRow) u = .next v ∧ v.regs.result = .success
      ∧ v.regs.res0 = t.regs.res0 ∧ v.regs.res1 = t.regs.res1 ∧ v.regs.res2 = t.regs.res2
      ∧ v.regs.res3 = t.regs.res3
      ∧ ∀ b, b < t.regs.res3.toNat →
        v.pmem.read (s.latch.larg0.toNat + b) = t.pmem.read (s.latch.larg0.toNat + b)

/-- 41_rowgen_encoder.md R158, which the spec derives: a row-0 recovery starts at or after the end of the one before
it, and sets NextParitySequence to its own end; no other command but ENC_RESET changes NextParitySequence. -/
def Obligations.ParitySlicesAreDisjoint : Prop :=
  ∀ (i : Instr) (s t : State), exec i s = .next t →
    (t.enc.nextParity ≠ s.enc.nextParity → i = .encRecovery ∨ i = .encReset)
    ∧ (i = .encRecovery → t.regs.result = .success → t.regs.res2.extractLsb' 16 16 = 0 → s.enc.Ok s.cfg →
        s.cfg.wf = true →
        s.enc.nextParity.toNat ≤ (t.regs.res1 ++ t.regs.res0).toNat
        ∧ t.enc.nextParity = t.regs.res1 ++ t.regs.res0 + (t.regs.res2.extractLsb' 0 16).setWidth 64)
    ∧ (i = .encRecovery → t.regs.result = .success → t.regs.res2.extractLsb' 16 16 ≠ 0 →
        t.enc.nextParity = s.enc.nextParity)

/-- 10_state.md R43 (2), which the spec derives: CURSOR = NextSequence mod ENC_WINDOW and COUNT = min(NextSequence,
ENC_WINDOW), kept by every step that does not carry NextSequence past 2^64 - 1. -/
def Obligations.RingFollowsSequence : Prop :=
  ∀ s t : State, s.Inv → step s = .next t → s.enc.nextSeq.toNat < 2 ^ 64 - 1 →
    s.enc.cursor.toNat = s.enc.nextSeq.toNat % s.cfg.encWindow →
    s.enc.count.toNat = min s.enc.nextSeq.toNat s.cfg.encWindow →
    t.enc.cursor.toNat = t.enc.nextSeq.toNat % t.cfg.encWindow
    ∧ t.enc.count.toNat = min t.enc.nextSeq.toNat t.cfg.encWindow

/-- 10_state.md R43 (5) against 20_memory.md R72 and 41_rowgen_encoder.md R151. With a length of 0 ENC_ORIGINAL succeeds
whatever ADDR is, and the slot keeps that ADDR; so it can break R43 (5), which the spec infers (the model follows R151 and
R72; assumption log 9). No other step breaks it: R43 (5) as the spec writes it is kept by every step but the completion of
an ENC_ORIGINAL of length 0 with ADDR > PMEM_BYTES. -/
def Obligations.EmptyOriginalMayLieAnywhere : Prop :=
  (∀ (s : State) (addr : Word), s.latch.larg0 = addr → s.latch.larg1 = 0 →
    ∃ t, exec .encOriginal s = .next t ∧ t.regs.result = .success
      ∧ (s.enc.Ok s.cfg →
          t.enc.slots[s.enc.cursor.toNat]? = some { seq := s.enc.nextSeq, addr := addr, len := 0 }))
  ∧ ∀ s t : State, s.Inv → s.enc.SlotsInPmem s.cfg → step s = .next t →
    (s.turn = .engine → s.latch.busy = true → decode s.latch.lcmd = .command .encOriginal → s.latch.larg1 = 0 →
      s.latch.larg0.toNat ≤ s.cfg.pmemBytes) →
    t.enc.SlotsInPmem t.cfg

/-! The solver. -/

/-- The checks 1 to 3 of 42_solver.md R172, with R = r, C = c and N = n. -/
structure HeaderChecks (cfg : Config) (d r c n : Nat) : Prop where
  check1 : d + 8 ≤ cfg.pmemBytes
  check2 : 1 ≤ c ∧ c ≤ cfg.maxCols ∧ c ≤ r ∧ r ≤ cfg.maxRows
  check3 : d + (8 + 24 * r + 16 * c + 16 * n) ≤ cfg.pmemBytes

/-- The checks 4 to 8 of 42_solver.md R172, which report INVALID_INPUT. -/
structure FormChecks (cfg : Config) (m : Memory) (d r c n : Nat) : Prop where
  check4 : ∀ i, i < r → 1 ≤ countOf m d i ∧ countOf m d i ≤ cfg.maxCols ∧ startOf m d i + countOf m d i ≤ 2 ^ 64
    ∧ 1 ≤ plenOf m d i ∧ plenOf m d i ≤ cfg.maxPayload + 2 ∧ paddrOf m d i + plenOf m d i ≤ cfg.pmemBytes
  check5 : (∀ j j', j < j' → j' < c → lostOf m d r j < lostOf m d r j') ∧ ∀ j, j < c → inUnion m d r (lostOf m d r j)
  check6 : (∀ k k', k < k' → k' < n → receivedOf m d r c k < receivedOf m d r c k')
    ∧ ∀ k, k < n → inUnion m d r (receivedOf m d r c k) ∧ (∀ j, j < c → receivedOf m d r c k ≠ lostOf m d r j)
      ∧ receivedLenOf m d r c k ≤ cfg.maxPayload
      ∧ (receivedLenOf m d r c k = 0 ∨ receivedAddrOf m d r c k + receivedLenOf m d r c k ≤ cfg.pmemBytes)
  check7 : ∀ q, inUnion m d r q → (∃ j, j < c ∧ q = lostOf m d r j) ∨ ∃ k, k < n ∧ q = receivedOf m d r c k
  check8 : ∀ i k, i < r → k < n → inSpan m d i (receivedOf m d r c k) → receivedLenOf m d r c k + 2 ≤ plenOf m d i

/-- The check 9 of 42_solver.md R172, which reports DEGENERATE. -/
def CoefCheck (cfg : Config) (m : Memory) (d r : Nat) : Prop :=
  ∀ i q, i < r → rowOf m d i ≠ 0 → inSpan m d i q → rowOf m d i ≠ columnAt cfg q

/-- 42_solver.md R172: SOLVE ends with INVALID_INPUT and no effect where one of its checks 1 to 8 fails, with DEGENERATE and no
effect where those hold and check 9 fails, and has no failure to report exactly where all nine hold; and the problem that it
works on has the fields of 20_memory.md R67 to R71 (42_solver.md R171). -/
def Obligations.SolveReportsFirstFailure : Prop :=
  ∀ (s : State) (d r c n : Nat), s.latch.larg0.toNat = d → s.pmem.readLE d 2 = r → s.pmem.readLE (d + 2) 2 = c →
    s.pmem.readLE (d + 4) 2 = n →
    ((¬HeaderChecks s.cfg d r c n ∨ ¬FormChecks s.cfg s.pmem d r c n) →
      ∃ t, exec .solve s = .next t ∧ OnlyReported s t .invalidInput Results.zero)
    ∧ (HeaderChecks s.cfg d r c n → FormChecks s.cfg s.pmem d r c n → ¬CoefCheck s.cfg s.pmem d r →
      ∃ t, exec .solve s = .next t ∧ OnlyReported s t .degenerate Results.zero)
    ∧ (solveFailure s.cfg s.pmem d = none ↔
      HeaderChecks s.cfg d r c n ∧ FormChecks s.cfg s.pmem d r c n ∧ CoefCheck s.cfg s.pmem d r)
    ∧ problemAt s.pmem d =
      { rows := (List.range r).map fun i =>
          { start := startOf s.pmem d i, count := countOf s.pmem d i, row := rowOf s.pmem d i,
            paddr := paddrOf s.pmem d i, plen := plenOf s.pmem d i }
        cols := (List.range c).map fun j => { seq := lostOf s.pmem d r j, dst := dstOf s.pmem d r j }
        recv := (List.range n).map fun k =>
          { seq := receivedOf s.pmem d r c k, addr := receivedAddrOf s.pmem d r c k, len := receivedLenOf s.pmem d r c k } }

/-- 42_solver.md R185: rank deficiency adds 1 to SLV_FAILS modulo 2^32, sets SLV_LOWEST to SEQ_0, and ends SOLVE with
NEEDS_MORE_DATA and no other effect. Where the checks hold it is exactly that the columns of M are linearly dependent, so that
some column finds no pivot (R174 and R177). -/
def Obligations.RankDeficiencyIsCounted : Prop :=
  ∀ (s : State) (d r c : Nat), s.latch.larg0.toNat = d → s.pmem.readLE d 2 = r → s.pmem.readLE (d + 2) 2 = c →
    solveFailure s.cfg s.pmem d = none →
    ((problemAt s.pmem d).solution s.cfg s.pmem = none →
      ∃ t, exec .solve s = .next t ∧ Completed s t .needsMoreData Results.zero ∧ t.enc = s.enc ∧ PmemSame s t
        ∧ t.regs.slvFails.toNat = (s.regs.slvFails.toNat + 1) % 2 ^ 32 ∧ t.regs.slvLowest.toNat = lostOf s.pmem d r 0)
    ∧ (s.cfg.wf = true → ((problemAt s.pmem d).solution s.cfg s.pmem = none ↔
        DependentColumns s.cfg.gfPoly (matrixAt s.cfg s.pmem d r) r c))

/-- 42_solver.md R175, R178, R180, R181 and R186: where the checks hold, the pivots exist and every recovered prefix fits,
SOLVE completes with RES = (C, S, 0, 0); the pivots are the rows that R177 and R178 choose from the matrix M of R174; each RLEN,
CFLAGS and RFLAGS is written; each recovered byte that no later write overlaps is written; and every byte that is no output,
and every other register, is as before. `SingleLossIsOneDivision` says what the recovered payloads `xs` solve. -/
def Obligations.SolveWritesBack : Prop :=
  decode 0x00000020 = .command .solve
  ∧ ∀ (s : State) (d r c len : Nat) (xs : List (List Byte)) (piv : List Nat), s.cfg.wf = true →
    s.pmem.wf = true → s.latch.larg0.toNat = d → s.pmem.readLE d 2 = r → s.pmem.readLE (d + 2) 2 = c →
    solveFailure s.cfg s.pmem d = none → (problemAt s.pmem d).solution s.cfg s.pmem = some (xs, piv) →
    LongestRow s.pmem d r len →
    (∀ j, j < c → storedLen (xs.getD j []) + 2 ≤ len
      ∧ (storedLen (xs.getD j []) = 0 ∨ dstOf s.pmem d r j + storedLen (xs.getD j []) ≤ s.cfg.pmemBytes)) →
    PivotRows s.cfg.gfPoly (matrixAt s.cfg s.pmem d r) r c piv
    ∧ ∃ t, exec .solve s = .next t
      ∧ Completed s t .success { r0 := BitVec.ofNat 32 c, r1 := BitVec.ofNat 32 len, r2 := 0, r3 := 0 }
      ∧ t.enc = s.enc ∧ SlvSame s t
      ∧ (∀ j, j < c →
          t.pmem.readLE (d + 8 + 24 * r + 16 * j + 12) 2 = storedLen (xs.getD j [])
          ∧ t.pmem.read (d + 8 + 24 * r + 16 * j + 14) = 0x01)
      ∧ (∀ i, i < r → t.pmem.read (d + 8 + 24 * i + 11) = if i ∈ piv then 0x01 else 0x00)
      ∧ (∀ j b, j < c → b < storedLen (xs.getD j []) →
          (∀ k, j < k → k < c →
            ¬(dstOf s.pmem d r k ≤ dstOf s.pmem d r j + b
              ∧ dstOf s.pmem d r j + b < dstOf s.pmem d r k + storedLen (xs.getD k []))) →
          (∀ k, k < c → ¬(d + 8 + 24 * r + 16 * k + 12 ≤ dstOf s.pmem d r j + b
            ∧ dstOf s.pmem d r j + b < d + 8 + 24 * r + 16 * k + 15)) →
          (∀ i, i < r → dstOf s.pmem d r j + b ≠ d + 8 + 24 * i + 11) →
          t.pmem.read (dstOf s.pmem d r j + b) = (xs.getD j []).getD (2 + b) 0)
      ∧ ∀ a, ¬solveOutput s.pmem d r c xs a → t.pmem.read a = s.pmem.read a

/-- 42_solver.md R180: where a recovered prefix does not fit, SOLVE ends with INVALID_INPUT and writes nothing. -/
def Obligations.SolveRefusesBadPrefix : Prop :=
  ∀ (s : State) (d r c len : Nat) (xs : List (List Byte)) (piv : List Nat), s.latch.larg0.toNat = d →
    s.pmem.readLE d 2 = r → s.pmem.readLE (d + 2) 2 = c → solveFailure s.cfg s.pmem d = none →
    (problemAt s.pmem d).solution s.cfg s.pmem = some (xs, piv) → LongestRow s.pmem d r len →
    (∃ j, j < c ∧ (len < storedLen (xs.getD j []) + 2
      ∨ (storedLen (xs.getD j []) ≠ 0 ∧ s.cfg.pmemBytes < dstOf s.pmem d r j + storedLen (xs.getD j [])))) →
    ∃ t, exec .solve s = .next t ∧ OnlyReported s t .invalidInput Results.zero

/-- 42_solver.md R177 and R178, over C columns. Where a pivot is found for every column, the pivots are C distinct rows; each is
the lowest-numbered row that is not yet a pivot and has a nonzero entry in its column after the elimination of the earlier
columns; and then M[piv[j]][j'] = 0 for every j' < j, and M[piv[j]][j] ≠ 0. Elimination answers none exactly where some
column finds no such row, and that is exactly where the columns of M are linearly dependent, its rank below C. And the rows
that SOLVE eliminates, in the problem's row order, are those of R174 after R176. -/
def Obligations.ForwardEliminationIsTriangular : Prop :=
  (∀ (poly : BitVec 9) (c : Nat) (ws : List WorkRow), primitive poly = true → (∀ w ∈ ws, w.coefs.length = c) →
    (∀ ws' piv, forwardEliminate poly (List.range c) ws [] = some (ws', piv) →
      piv.length = c ∧ piv.Nodup ∧ (∀ i ∈ piv, i < ws.length)
      ∧ (∀ j, j < c → entryAt ws' (piv.getD j 0) j ≠ 0 ∧ ∀ j', j' < j → entryAt ws' (piv.getD j 0) j' = 0)
      ∧ ∀ j, j < c → ∃ wj, forwardEliminate poly (List.range j) ws [] = some (wj, piv.take j)
          ∧ entryAt wj (piv.getD j 0) j ≠ 0 ∧ ∀ i, i < piv.getD j 0 → i ∉ piv.take j → entryAt wj i j = 0)
    ∧ (forwardEliminate poly (List.range c) ws [] = none ↔
        ∃ j wj piv, j < c ∧ forwardEliminate poly (List.range j) ws [] = some (wj, piv)
          ∧ ∀ i, i < ws.length → i ∉ piv → entryAt wj i j = 0)
    ∧ (forwardEliminate poly (List.range c) ws [] = none ↔ DependentColumns poly (entryAt ws) ws.length c))
  ∧ ∀ (cfg : Config) (m : Memory) (d r c n len : Nat), m.readLE d 2 = r → m.readLE (d + 2) 2 = c → m.readLE (d + 4) 2 = n →
    LongestRow m d r len →
    ((problemAt m d).eliminated cfg m).length = r
    ∧ ∀ i w, ((problemAt m d).eliminated cfg m)[i]? = some w →
      w.coefs.length = c ∧ (∀ j, j < c → w.coefs.getD j 0 = matrixAt cfg m d r i j)
      ∧ w.data.length = len ∧ ∀ b, b < len → w.data.getD b 0 = lostPartAt cfg m d r c n i b

/-- The problem's rows are consistent with the prefixed originals `orig`, byte by byte (42_solver.md R182): each row's
payload, zero-padded to S, is the XOR over its span of coefficient times original, and each received original is the
prefixed payload in PMEM. -/
structure Consistent (cfg : Config) (m : Memory) (p : Problem) (orig : Nat → Nat → Byte) : Prop where
  rows : ∀ r ∈ p.rows, ∀ b, b < p.solutionBytes →
    (if b < r.plen then m.read (r.paddr + b) else 0)
      = xorOver r.count fun k => gfMul cfg.gfPoly (coefAt cfg r.row (r.start + k)) (orig (r.start + k) b)
  received : ∀ e ∈ p.recv, ∀ b, b < p.solutionBytes → orig e.seq b = prefixedByte m e.addr e.len b

/-- 42_solver.md R182, which the spec derives: where the checks hold and the rows are consistent with some prefixed originals,
a solution that the model finds is those originals, zero-padded to S. -/
def Obligations.SolveRecoversOriginals : Prop :=
  ∀ (cfg : Config) (m : Memory) (p : Problem) (orig : Nat → Nat → Byte) (xs : List (List Byte)) (piv : List Nat),
    cfg.wf = true → p.failure cfg = none → Consistent cfg m p orig → p.solution cfg m = some (xs, piv) →
    xs = p.lost.map fun q => (List.range p.solutionBytes).map (orig q)

/-- 42_solver.md R176 and R179, for every problem that meets the checks, consistent or not (93_implementation_defined.md U8):
the recovered X_0, …, X_{C-1} have S bytes each, and in every pivot row the XOR over the columns of M[i][j] times X_j is the
row's payload with the received originals of its span removed. R183, which the spec derives: a problem with one row and one
lost column that meets the checks has a solution, that payload divided by the one coefficient left. -/
def Obligations.SingleLossIsOneDivision : Prop :=
  (∀ (cfg : Config) (m : Memory) (d r c n len : Nat) (xs : List (List Byte)) (piv : List Nat), cfg.wf = true →
    m.readLE d 2 = r → m.readLE (d + 2) 2 = c → m.readLE (d + 4) 2 = n → solveFailure cfg m d = none →
    LongestRow m d r len → (problemAt m d).solution cfg m = some (xs, piv) →
    xs.length = c ∧ (∀ x ∈ xs, x.length = len)
    ∧ ∀ i ∈ piv, ∀ b, b < len →
      xorOver c (fun j => gfMul cfg.gfPoly (matrixAt cfg m d r i j) ((xs.getD j []).getD b 0))
        = lostPartAt cfg m d r c n i b)
  ∧ ∀ (cfg : Config) (m : Memory) (p : Problem) (r : RowEntry) (c : ColEntry), cfg.wf = true → p.rows = [r] →
    p.cols = [c] → p.failure cfg = none →
    ∃ x, p.solution cfg m = some ([x], [0]) ∧ x.length = r.plen
      ∧ ∀ b, b < r.plen → gfMul cfg.gfPoly (coefAt cfg r.row c.seq) (x.getD b 0)
        = m.read (r.paddr + b) ^^^ p.recv.foldr
            (fun e acc => gfMul cfg.gfPoly (coefAt cfg r.row e.seq) (prefixedByte m e.addr e.len b) ^^^ acc) 0

/-! Registers and the bus. -/

/-- 10_state.md R31, R47 and 60_exceptions.md R220: the fields that STATUS reads as, and irq. -/
def Obligations.StatusReadsItsFields : Prop :=
  ∀ (s : State) (w : Word), busRead s 0x024 4 = .ok w →
    w.getLsbD 0 = s.latch.busy ∧ w.getLsbD 1 = s.regs.done ∧ w.getLsbD 2 = s.regs.overrun
    ∧ w.getLsbD 3 = (s.regs.irqEn && s.regs.done) ∧ w.getLsbD 3 = s.irq
    ∧ w.extractLsb' 4 4 = 0 ∧ w.extractLsb' 8 4 = s.regs.result.number ∧ w.extractLsb' 12 4 = 0
    ∧ w.extractLsb' 16 8 = s.regs.lastOp ∧ w.extractLsb' 24 8 = 0

/-- 10_state.md R34 to R40: what the read-only registers of results, encoder and solver read as: RES0 to RES3, the two halves
of the counters, the fields of ENC_STATE and ENC_CURSOR, SLV_FAILS, and the two halves of SLV_LOWEST. -/
def Obligations.EncoderRegistersRead : Prop :=
  ∀ s : State, ∃ w cur nlo nhi plo phi llo lhi,
    busRead s 0x060 4 = .ok w ∧ w.extractLsb' 0 8 = s.enc.nextColumn ∧ w.extractLsb' 8 8 = s.enc.nextRow
    ∧ w.extractLsb' 16 9 = s.enc.count ∧ w.getLsbD 25 = s.enc.newData ∧ w.extractLsb' 26 6 = 0
    ∧ busRead s 0x064 4 = .ok cur ∧ cur.extractLsb' 0 8 = s.enc.cursor ∧ cur.extractLsb' 8 24 = 0
    ∧ busRead s 0x050 4 = .ok nlo ∧ busRead s 0x054 4 = .ok nhi ∧ nhi ++ nlo = s.enc.nextSeq
    ∧ busRead s 0x058 4 = .ok plo ∧ busRead s 0x05C 4 = .ok phi ∧ phi ++ plo = s.enc.nextParity
    ∧ busRead s 0x040 4 = .ok s.regs.res0 ∧ busRead s 0x044 4 = .ok s.regs.res1 ∧ busRead s 0x048 4 = .ok s.regs.res2
    ∧ busRead s 0x04C 4 = .ok s.regs.res3 ∧ busRead s 0x070 4 = .ok s.regs.slvFails
    ∧ busRead s 0x074 4 = .ok llo ∧ busRead s 0x078 4 = .ok lhi ∧ lhi ++ llo = s.regs.slvLowest

/-- 10_state.md R24 to R29: ID and the PARAM registers, for legal parameters. -/
def Obligations.IdentityRegistersRead : Prop :=
  ∀ s : State, s.cfg.wf = true → ∃ p0 p1 p2 p3 p4,
    busRead s 0x000 4 = .ok 0x43430001
    ∧ busRead s 0x004 4 = .ok p0 ∧ (p0.extractLsb' 0 16).toNat = s.cfg.encWindow
    ∧ (p0.extractLsb' 16 16).toNat = s.cfg.maxCols
    ∧ busRead s 0x008 4 = .ok p1 ∧ (p1.extractLsb' 0 16).toNat = s.cfg.maxRows ∧ p1.extractLsb' 16 16 = 0
    ∧ busRead s 0x00C 4 = .ok p2 ∧ p2.toNat = s.cfg.maxPayload
    ∧ busRead s 0x010 4 = .ok p3 ∧ p3.toNat = s.cfg.pmemBytes
    ∧ busRead s 0x014 4 = .ok p4 ∧ p4.extractLsb' 0 9 = s.cfg.gfPoly ∧ p4.getLsbD 8 = true
    ∧ p4.extractLsb' 9 7 = 0 ∧ p4.extractLsb' 16 8 = s.cfg.cauchyOffset ∧ p4.extractLsb' 24 8 = 0

/-- The offsets that the register map lists (10_state.md R23). -/
def mappedOffsets : List Nat :=
  [0x000, 0x004, 0x008, 0x00C, 0x010, 0x014, 0x020, 0x024, 0x028, 0x030, 0x034, 0x038, 0x040, 0x044, 0x048, 0x04C, 0x050,
   0x054, 0x058, 0x05C, 0x060, 0x064, 0x070, 0x074, 0x078]

/-- 10_state.md R22 and R23: an aligned offset of the register region that the map does not list reads 0 and ignores writes,
and a write to a read-only register is ignored. -/
def Obligations.UnlistedAndReadOnlyOffsets : Prop :=
  ∀ (s : State) (off : Nat) (v : Word), off < 0x1000 → off % 4 = 0 →
    (off ∉ mappedOffsets → busRead s off 4 = .ok 0 ∧ busWrite s off 4 v = .ok s)
    ∧ (off ∈ mappedOffsets → off ∉ [0x020, 0x024, 0x028, 0x030, 0x034, 0x038] → busWrite s off 4 v = .ok s)
    ∧ busRead s 0x028 4 = .ok 0

/-- 10_state.md R33: ARG0 to ARG2 read back what was written, and a write to one changes nothing else, the command latch
included. -/
def Obligations.ArgumentRegistersHoldWrites : Prop :=
  ∀ (s : State) (v : Word), ∃ t0 t1 t2,
    busWrite s 0x030 4 v = .ok t0 ∧ busRead t0 0x030 4 = .ok v ∧ t0 = { s with regs := { s.regs with arg0 := v } }
    ∧ busWrite s 0x034 4 v = .ok t1 ∧ busRead t1 0x034 4 = .ok v ∧ t1 = { s with regs := { s.regs with arg1 := v } }
    ∧ busWrite s 0x038 4 v = .ok t2 ∧ busRead t2 0x038 4 = .ok v ∧ t2 = { s with regs := { s.regs with arg2 := v } }

/-- 10_state.md R30 and R31, 60_exceptions.md R221: a write to STATUS clears DONE where bit 1 is 1 and OVERRUN where bit 2 is 1,
and changes nothing else; a write to CTRL with bit 1 = 0 stores bit 0 in IRQ_EN and changes nothing else, so that a 0 drops
irq and leaves DONE; and CTRL reads IRQ_EN in bit 0 and 0 in every other bit. -/
def Obligations.StatusWriteClearsFlags : Prop :=
  ∀ (s : State) (v : Word),
    (∃ t, busWrite s 0x024 4 v = .ok t
      ∧ (v.getLsbD 1 = true → t.regs.done = false ∧ t.irq = false) ∧ (v.getLsbD 1 = false → t.regs.done = s.regs.done)
      ∧ (v.getLsbD 2 = true → t.regs.overrun = false) ∧ (v.getLsbD 2 = false → t.regs.overrun = s.regs.overrun)
      ∧ t = { s with regs := { s.regs with done := t.regs.done, overrun := t.regs.overrun } })
    ∧ (v.getLsbD 1 = false → ∃ t, busWrite s 0x020 4 v = .ok t
      ∧ t = { s with regs := { s.regs with irqEn := v.getLsbD 0 } }
      ∧ t.irq = (v.getLsbD 0 && s.regs.done) ∧ t.regs.done = s.regs.done)
    ∧ ∃ w, busRead s 0x020 4 = .ok w ∧ w.getLsbD 0 = s.regs.irqEn ∧ w.extractLsb' 1 31 = 0

/-- 20_memory.md R61, R63 and R64: within the aperture, a host access is answered with a bus error exactly where it is
neither a 32-bit aligned access of the register region nor an aligned access of 1, 2 or 4 bytes wholly inside PMEM. That a
misplaced PMEM access is a bus error even while busy is the model's choice (assumption log 8). -/
def Obligations.BusErrorsExactly : Prop :=
  ∀ (s : State) (off n : Nat) (v : Word), off < 0x200000 →
    ((busRead s off n = .fault .busError ↔ busWrite s off n v = .fault .busError)
    ∧ (busRead s off n = .fault .busError ↔
      ¬(off < 0x1000 ∧ n = 4 ∧ off % 4 = 0)
      ∧ ¬(0x100000 ≤ off ∧ (n = 1 ∨ n = 2 ∨ n = 4) ∧ (off - 0x100000) % n = 0
        ∧ off - 0x100000 + n ≤ s.cfg.pmemBytes)))

/-- 70_reset_and_hazards.md R250: a well-placed host access to PMEM is refused exactly while a command is in flight. -/
def Obligations.PmemAccessRefusedWhileBusy : Prop :=
  ∀ (s : State) (a n : Nat) (v : Word), (n = 1 ∨ n = 2 ∨ n = 4) → a % n = 0 → a + n ≤ s.cfg.pmemBytes →
    s.cfg.pmemBytes ≤ 0x100000 →
    (s.latch.busy = true → busRead s (0x100000 + a) n = .refused .pmemAccessWhileBusy
      ∧ busWrite s (0x100000 + a) n v = .refused .pmemAccessWhileBusy)
    ∧ (s.latch.busy = false → (∃ w, busRead s (0x100000 + a) n = .ok w)
      ∧ ∃ t, busWrite s (0x100000 + a) n v = .ok t)

/-- 20_memory.md R65: an idle block's PMEM takes the low bytes of a host write, least significant first, and every aligned read
inside them, of 1, 2 or 4 bytes, sees those same bytes. -/
def Obligations.HostMemoryIsLittleEndian : Prop :=
  ∀ (s : State) (a n : Nat) (v : Word), s.pmem.wf = true → s.latch.busy = false → (n = 1 ∨ n = 2 ∨ n = 4) →
    a % n = 0 → a + n ≤ s.cfg.pmemBytes → s.cfg.pmemBytes ≤ 0x100000 →
    ∃ t, busWrite s (0x100000 + a) n v = .ok t ∧ t = { s with pmem := t.pmem }
      ∧ (∀ k, k < n → t.pmem.read (a + k) = v.extractLsb' (8 * k) 8) ∧ PmemSameOutside s t a n
      ∧ ∀ k w, (w = 1 ∨ w = 2 ∨ w = 4) → k % w = 0 → k + w ≤ n →
          busRead t (0x100000 + a + k) w = .ok (BitVec.ofNat 32 (v.toNat / 2 ^ (8 * k) % 2 ^ (8 * w)))

/-- 20_memory.md R74: "No read has a side effect": a host read leaves the whole block, and PMEM, as they were. -/
def Obligations.ReadsHaveNoSideEffect : Prop :=
  ∀ (s t : State) (off n x : Nat), s.turn = .host → s.host.prog[s.host.pos]? = some (.load off n x) →
    step s = .next t → t = { s with sched := s.sched.tail, host := t.host } ∧ t.host.prog = s.host.prog

/-- 60_exceptions.md R222: a W1C write to DONE and a completion may come in either order: DONE ends at 1 where the
completion comes second, and at 0 where the write does. The order is the schedule's (assumption log 5). -/
def Obligations.CompletionAndAcknowledgeInEitherOrder : Prop :=
  ∀ (s : State) (v : Word) (rest : List Turn), s.latch.busy = true → v.getLsbD 1 = true →
    s.host.prog[s.host.pos]? = some (.store 0x024 4 v) →
    (s.sched = .host :: .engine :: rest → ∃ t, Sys2Proof.core.run 2 s = .next t ∧ t.regs.done = true)
    ∧ (s.sched = .engine :: .host :: rest → ∃ t, Sys2Proof.core.run 2 s = .next t ∧ t.regs.done = false)

/-! Reset. -/

/-- 70_reset_and_hazards.md R240: the values after reset that the table gives. -/
def Obligations.ResetValuesMatchTable : Prop :=
  State.reset.regs.irqEn = false ∧ State.reset.latch.busy = false ∧ State.reset.regs.done = false
  ∧ State.reset.regs.overrun = false ∧ State.reset.regs.result = .success ∧ State.reset.regs.lastOp = 0
  ∧ State.reset.regs.arg0 = 0 ∧ State.reset.regs.arg1 = 0 ∧ State.reset.regs.arg2 = 0
  ∧ State.reset.regs.res0 = 0 ∧ State.reset.regs.res1 = 0 ∧ State.reset.regs.res2 = 0 ∧ State.reset.regs.res3 = 0
  ∧ State.reset.enc.nextSeq = 0 ∧ State.reset.enc.nextParity = 0 ∧ State.reset.enc.nextColumn = 0
  ∧ State.reset.enc.nextRow = 1 ∧ State.reset.enc.count = 0 ∧ State.reset.enc.cursor = 0
  ∧ State.reset.enc.newData = false ∧ State.reset.regs.slvFails = 0 ∧ State.reset.regs.slvLowest = 0
  ∧ State.reset.irq = false

/-- Every value that 70_reset_and_hazards.md R240 gives, in `t`, but IRQ_EN's. -/
structure AtResetValues (t : State) : Prop where
  regs : t.regs = { Regs.reset with irqEn := t.regs.irqEn }
  busy : t.latch.busy = false
  counters : t.enc.nextSeq = 0 ∧ t.enc.nextParity = 0 ∧ t.enc.nextColumn = 0 ∧ t.enc.nextRow = 1
  ring : t.enc.count = 0 ∧ t.enc.cursor = 0 ∧ t.enc.newData = false

/-- 70_reset_and_hazards.md R241 and R242: a write to CTRL with bit 1 = 1 gives every register and the encoder their
reset values, stores bit 0 in IRQ_EN, abandons a command in flight without DONE, and preserves every PMEM byte but
those of the abandoned command's write set, which take freely drawn values. The drawn values are opaque constants of the
model, of a draw that the reset counts, so that the next reset draws afresh (assumption log 6); the host agent and the schedule
are left as they are (assumption log 13); `WriteSetBoundsWrites` says what the write set is. -/
def Obligations.SoftResetKeepsPmem : Prop :=
  ∀ (s : State) (v : Word), v.getLsbD 1 = true → s.pmem.wf = true →
    ∃ t, busWrite s 0x020 4 v = .ok t ∧ AtResetValues t ∧ t.regs.irqEn = v.getLsbD 0 ∧ t.irq = false
      ∧ t.cfg = s.cfg ∧ t.draws = s.draws + 1 ∧ t.host = s.host ∧ t.sched = s.sched
      ∧ (s.latch.busy = false → PmemSame s t)
      ∧ (∀ why, decode s.latch.lcmd = .illegal why → PmemSame s t)
      ∧ (∀ i, s.latch.busy = true → decode s.latch.lcmd = .command i →
          (∀ a, a ∉ writeSet i s → t.pmem.read a = s.pmem.read a)
          ∧ ∀ a, a ∈ writeSet i s → t.pmem.read a = Config.freeByte s.draws a)

/-- 70_reset_and_hazards.md R240: an assertion of the reset input gives every register and the encoder their reset
values, and every PMEM byte a freely drawn one, "a fresh draw per byte at that reset" (93_implementation_defined.md U2): the
draw is counted (assumption log 6). The host agent is left as it is, and the reset is one turn of the schedule (assumption log
13). -/
def Obligations.HardwareResetDrawsPmem : Prop :=
  ∀ s : State, s.turn = .hwReset →
    ∃ t, step s = .next t ∧ AtResetValues t ∧ t.regs.irqEn = false ∧ t.irq = false ∧ t.cfg = s.cfg
      ∧ t.draws = s.draws + 1 ∧ t.host = s.host ∧ t.sched = s.sched.tail
      ∧ ∀ a, a < s.cfg.pmemBytes → t.pmem.read a = Config.freeByte s.draws a

/-! The invariant. -/

/-- 10_state.md R43 (which the spec derives; (5) as assumption log 9 reads it), 60_exceptions.md R210 and R224, and the
canonical form of PMEM (the model's own, assumption log 1): every step keeps the invariant. -/
def Obligations.StepKeepsInvariant : Prop := ∀ s t : State, s.Inv → step s = .next t → t.Inv

/-- The state after power-on meets the invariant, whatever the legal parameters, the launch memory and the host
program. -/
def Obligations.PowerOnMeetsInvariant : Prop :=
  State.reset.Inv
  ∧ ∀ (cfg : Config) (launch : Memory) (prog : List HostStmt) (sched : List Turn), cfg.wf = true → launch.wf = true →
    launch.within cfg.pmemBytes = true → (State.powerOn cfg launch prog sched).Inv

/-- 10_state.md R20: the parameters are configuration: no step changes them. -/
def Obligations.StepKeepsConfiguration : Prop := ∀ s t : State, step s = .next t → t.cfg = s.cfg
end

