-- ==== Sys2Proof/Laws/Memory.lean ====
section
/-! SUPPORT. The laws of PMEM: a byte read after a write, and the canonical form and the bound kept by every operation. -/

namespace Sys2Proof.Machine

@[simp] theorem Memory.read_nil (a : Nat) : Memory.read [] a = Memory.unlisted := rfl

theorem Memory.read_cons (k : Nat) (v : Byte) (m : Memory) (a : Nat) :
    Memory.read ((k, v) :: m) a = if k = a then v else Memory.read m a := rfl

/-- Below the first listed offset nothing is listed. -/
theorem Memory.read_below {lo : Nat} {m : Memory} (h : Memory.wfFrom lo m = true) {a : Nat} (ha : a < lo) :
    m.read a = Memory.unlisted := by
  induction m generalizing lo with
  | nil => rfl
  | cons c m ih =>
    obtain ⟨k, v⟩ := c
    simp only [Memory.wfFrom, Bool.and_eq_true, decide_eq_true_eq] at h
    rw [Memory.read_cons, if_neg (by omega), ih h.2 (by omega)]

/-- A canonical list from `lo` up is one from any lower offset. -/
theorem Memory.wfFrom_mono {lo lo' : Nat} {m : Memory} (h : Memory.wfFrom lo m = true) (hl : lo' ≤ lo) :
    Memory.wfFrom lo' m = true := by
  cases m with
  | nil => rfl
  | cons c m =>
    obtain ⟨k, v⟩ := c
    simp only [Memory.wfFrom, Bool.and_eq_true, decide_eq_true_eq] at h ⊢
    exact ⟨⟨by omega, h.1.2⟩, h.2⟩

/-- A byte reads as it was written. -/
theorem Memory.read_write_same {m : Memory} (h : m.wf = true) (a : Nat) (b : Byte) : (m.write a b).read a = b := by
  suffices H : ∀ lo, Memory.wfFrom lo m = true → (m.write a b).read a = b from H 0 h
  clear h
  induction m with
  | nil =>
    intro lo _
    by_cases hb : b = Memory.unlisted <;> simp [Memory.write, Memory.read, hb]
  | cons c m ih =>
    intro lo h
    obtain ⟨k, v⟩ := c
    have hm := h
    simp only [Memory.wfFrom, Bool.and_eq_true, decide_eq_true_eq] at hm
    rcases Nat.lt_trichotomy a k with hak | hak | hak
    · by_cases hb : b = Memory.unlisted
      · subst hb
        simp only [Memory.write, hak, if_true]
        rw [Memory.read_cons, if_neg (by omega)]
        exact Memory.read_below hm.2 (by omega)
      · simp [Memory.write, hak, hb, Memory.read]
    · subst hak
      by_cases hb : b = Memory.unlisted
      · subst hb
        simp only [Memory.write, Nat.lt_irrefl, if_false, if_true]
        exact Memory.read_below hm.2 (by omega)
      · simp [Memory.write, hb, Memory.read]
    · rw [Memory.write, if_neg (by omega), if_neg (by omega), Memory.read_cons, if_neg (by omega)]
      exact ih _ hm.2

/-- A write leaves every other byte as it was. -/
theorem Memory.read_write_other (m : Memory) {a x : Nat} (b : Byte) (hx : x ≠ a) : (m.write a b).read x = m.read x := by
  induction m with
  | nil => by_cases hb : b = Memory.unlisted <;> simp [Memory.write, Memory.read, hb, hx.symm]
  | cons c m ih =>
    obtain ⟨k, v⟩ := c
    simp only [Memory.write]
    split
    · split
      · rfl
      · rw [Memory.read_cons, if_neg hx.symm]
    · split
      · rename_i hak
        subst hak
        split <;> simp [Memory.read, hx.symm]
      · rw [Memory.read_cons, Memory.read_cons, ih]

/-- A byte of PMEM after one write. -/
theorem Memory.read_write {m : Memory} (h : m.wf = true) (a x : Nat) (b : Byte) :
    (m.write a b).read x = if x = a then b else m.read x := by
  split
  · rename_i hx
    subst hx
    exact Memory.read_write_same h _ _
  · exact Memory.read_write_other m b ‹_›

theorem Memory.wfFrom_write {m : Memory} (a : Nat) (b : Byte) :
    ∀ lo, Memory.wfFrom lo m = true → Memory.wfFrom (min lo a) (m.write a b) = true := by
  induction m with
  | nil =>
    intro lo _
    by_cases hb : b = Memory.unlisted
    · simp [Memory.write, hb, Memory.wfFrom]
    · simp [Memory.write, hb, Memory.wfFrom]
  | cons c m ih =>
    intro lo h
    obtain ⟨k, v⟩ := c
    have hm := h
    simp only [Memory.wfFrom, Bool.and_eq_true, decide_eq_true_eq] at hm
    simp only [Memory.write]
    split
    · rename_i hak
      split
      · exact Memory.wfFrom_mono h (by omega)
      · rename_i hb
        simp only [Memory.wfFrom, Bool.and_eq_true, decide_eq_true_eq]
        exact ⟨⟨by omega, by simpa using hb⟩, ⟨by omega, hm.1.2⟩, hm.2⟩
    · split
      · rename_i hak
        subst hak
        split
        · exact Memory.wfFrom_mono hm.2 (by omega)
        · rename_i hb
          simp only [Memory.wfFrom, Bool.and_eq_true, decide_eq_true_eq]
          exact ⟨⟨by omega, by simpa using hb⟩, hm.2⟩
      · simp only [Memory.wfFrom, Bool.and_eq_true, decide_eq_true_eq]
        exact ⟨⟨by omega, hm.1.2⟩, Memory.wfFrom_mono (ih _ hm.2) (by omega)⟩

/-- A write keeps the canonical form. -/
theorem Memory.wf_write {m : Memory} (h : m.wf = true) (a : Nat) (b : Byte) : (m.write a b).wf = true :=
  Memory.wfFrom_mono (Memory.wfFrom_write a b 0 h) (by omega)

/-- A write inside PMEM keeps PMEM inside its size. -/
theorem Memory.within_write {m : Memory} {size a : Nat} (h : m.within size = true) (ha : a < size) (b : Byte) :
    (m.write a b).within size = true := by
  induction m with
  | nil => by_cases hb : b = Memory.unlisted <;> simp [Memory.write, hb, Memory.within, ha]
  | cons c m ih =>
    obtain ⟨k, v⟩ := c
    simp only [Memory.within, List.all_cons, Bool.and_eq_true, decide_eq_true_eq] at h ih ⊢
    simp only [Memory.write]
    split
    · split
      · simp [h.1]
        simpa using h.2
      · simp [ha, h.1]
        simpa using h.2
    · split
      · split
        · simpa using h.2
        · simp [ha]
          simpa using h.2
      · simp only [List.all_cons, Bool.and_eq_true, decide_eq_true_eq]
        exact ⟨h.1, ih h.2⟩

/-- The canonical form after ascending byte writes. -/
theorem Memory.wf_writeBytes {m : Memory} (h : m.wf = true) (a : Nat) (bs : List Byte) :
    (m.writeBytes a bs).wf = true := by
  induction bs generalizing m a with
  | nil => exact h
  | cons b bs ih => exact ih (Memory.wf_write h a b) (a + 1)

/-- A byte of PMEM after ascending byte writes. -/
theorem Memory.read_writeBytes {m : Memory} (h : m.wf = true) (a x : Nat) (bs : List Byte) :
    (m.writeBytes a bs).read x = if a ≤ x ∧ x < a + bs.length then bs.getD (x - a) 0 else m.read x := by
  induction bs generalizing m a with
  | nil =>
    rw [if_neg (by simp only [List.length_nil]; omega)]
    rfl
  | cons b bs ih =>
    rw [Memory.writeBytes, ih (Memory.wf_write h a b), Memory.read_write h]
    by_cases hx : x = a
    · subst hx
      simp
    · by_cases hr : a + 1 ≤ x ∧ x < a + 1 + bs.length
      · have e : x - a = (x - (a + 1)) + 1 := by omega
        rw [if_pos hr, if_pos (by simp only [List.length_cons]; omega), e, List.getD_cons_succ]
      · rw [if_neg hr, if_neg hx, if_neg (by simp only [List.length_cons]; omega)]

/-- Ascending byte writes inside PMEM keep PMEM inside its size. -/
theorem Memory.within_writeBytes {m : Memory} {size a : Nat} {bs : List Byte} (h : m.within size = true)
    (ha : bs = [] ∨ a + bs.length ≤ size) : (m.writeBytes a bs).within size = true := by
  induction bs generalizing m a with
  | nil => exact h
  | cons b bs ih =>
    have hl : a + (bs.length + 1) ≤ size := by simpa using ha
    exact ih (Memory.within_write h (by omega) b) (.inr (by omega))

/-- The canonical form after a list of cell writes. -/
theorem Memory.wf_writeAll {m : Memory} (h : m.wf = true) (cs : List Host.Cell) : (m.writeAll cs).wf = true := by
  induction cs generalizing m with
  | nil => exact h
  | cons c cs ih => exact ih (Memory.wf_write h c.1 c.2)

/-- Cell writes leave every other byte as it was. -/
theorem Memory.read_writeAll_other (m : Memory) {x : Nat} {cs : List Host.Cell} (hx : ∀ c ∈ cs, c.1 ≠ x) :
    (m.writeAll cs).read x = m.read x := by
  induction cs generalizing m with
  | nil => rfl
  | cons c cs ih =>
    rw [Memory.writeAll, ih _ (fun d hd => hx d (List.mem_cons_of_mem _ hd)),
      Memory.read_write_other m _ (fun e => hx c List.mem_cons_self e.symm)]

/-- Cell writes inside PMEM keep PMEM inside its size. -/
theorem Memory.within_writeAll {m : Memory} {size : Nat} {cs : List Host.Cell} (h : m.within size = true)
    (hc : ∀ c ∈ cs, c.1 < size) : (m.writeAll cs).within size = true := by
  induction cs generalizing m with
  | nil => exact h
  | cons c cs ih =>
    exact ih (Memory.within_write h (hc c List.mem_cons_self) c.2) (fun d hd => hc d (List.mem_cons_of_mem _ hd))

/-- The canonical form after free draws. -/
theorem Memory.wf_scramble {m : Memory} (h : m.wf = true) (draw : Nat) (as : List Nat) :
    (Memory.scramble draw m as).wf = true := by
  induction as generalizing m with
  | nil => exact h
  | cons a as ih => exact ih (Memory.wf_write h a _)

/-- A byte of PMEM after free draws: drawn where it is in the list, else as it was. -/
theorem Memory.read_scramble {m : Memory} (h : m.wf = true) (draw x : Nat) (as : List Nat) :
    (Memory.scramble draw m as).read x = if x ∈ as then Config.freeByte draw x else m.read x := by
  induction as generalizing m with
  | nil => simp [Memory.scramble]
  | cons a as ih =>
    rw [Memory.scramble, ih (Memory.wf_write h a _), Memory.read_write h]
    by_cases hx : x = a <;> by_cases hm : x ∈ as <;> simp [hx, hm]

/-- Free draws inside PMEM keep PMEM inside its size. -/
theorem Memory.within_scramble {m : Memory} {size draw : Nat} {as : List Nat} (h : m.within size = true)
    (ha : ∀ a ∈ as, a < size) : (Memory.scramble draw m as).within size = true := by
  induction as generalizing m with
  | nil => exact h
  | cons a as ih =>
    exact ih (Memory.within_write h (ha a List.mem_cons_self) _) (fun d hd => ha d (List.mem_cons_of_mem _ hd))

theorem Memory.wfFrom_drawn (draw : Nat) (n : Nat) :
    ∀ lo, Memory.wfFrom lo ((List.range' lo n).filterMap fun a =>
      if Config.freeByte draw a = Memory.unlisted then none else some (a, Config.freeByte draw a)) = true := by
  induction n with
  | zero => intro lo; rfl
  | succ n ih =>
    intro lo
    rw [List.range'_succ, List.filterMap_cons]
    by_cases hb : Config.freeByte draw lo = Memory.unlisted
    · simp only [hb, if_true]
      exact Memory.wfFrom_mono (ih (lo + 1)) (by omega)
    · simp only [hb, if_false, Memory.wfFrom, Bool.and_eq_true, decide_eq_true_eq]
      exact ⟨⟨Nat.le_refl _, by simpa using hb⟩, ih (lo + 1)⟩

/-- The canonical form of a freely drawn PMEM. -/
theorem Memory.wf_drawn (draw size : Nat) : (Memory.drawn draw size).wf = true := by
  rw [Memory.wf, Memory.drawn, List.range_eq_range']
  exact Memory.wfFrom_drawn draw size 0

/-- A freely drawn PMEM lies inside its size. -/
theorem Memory.within_drawn (draw size : Nat) : (Memory.drawn draw size).within size = true := by
  simp only [Memory.within, Memory.drawn, List.all_eq_true, List.mem_filterMap, List.mem_range, decide_eq_true_eq]
  rintro c ⟨a, ha, hc⟩
  split at hc
  · simp at hc
  · simp only [Option.some.injEq] at hc
    subst hc
    exact ha

/-- The ascending loop of the bulk commands keeps the canonical form. -/
theorem Memory.wf_bulkLoop (f : Byte → Byte → Byte) (n : Nat) :
    ∀ (dst src : Nat) (m : Memory), m.wf = true → (bulkLoop f dst src n m).wf = true := by
  induction n with
  | zero => intro _ _ m h; exact h
  | succ n ih => intro dst src m h; exact ih _ _ _ (Memory.wf_write h _ _)

/-- The ascending loop leaves every byte outside [dst, dst + n) as it was. -/
theorem Memory.read_bulkLoop_other (f : Byte → Byte → Byte) (n : Nat) :
    ∀ (dst src : Nat) (m : Memory) (x : Nat), ¬(dst ≤ x ∧ x < dst + n) → (bulkLoop f dst src n m).read x = m.read x := by
  induction n with
  | zero => intro _ _ m x _; rfl
  | succ n ih =>
    intro dst src m x hx
    rw [bulkLoop, ih _ _ _ _ (by omega), Memory.read_write_other m _ (by omega)]

/-- The ascending loop keeps PMEM inside its size. -/
theorem Memory.within_bulkLoop (f : Byte → Byte → Byte) {size : Nat} (n : Nat) :
    ∀ (dst src : Nat) (m : Memory), m.within size = true → (n = 0 ∨ dst + n ≤ size) →
      (bulkLoop f dst src n m).within size = true := by
  induction n with
  | zero => intro _ _ m h _; exact h
  | succ n ih =>
    intro dst src m h hn
    exact ih _ _ _ (Memory.within_write h (by omega) _) (by omega)

@[simp] theorem leBytes_length (n v : Nat) : (leBytes n v).length = n := by
  induction n generalizing v with
  | zero => rfl
  | succ n ih => simp [leBytes, ih]

/-- Reading back the little-endian bytes of a number. -/
theorem leValue_leBytes (n v : Nat) : leValue (leBytes n v) = v % 256 ^ n := by
  induction n generalizing v with
  | zero => simp [leBytes, leValue, Nat.mod_one]
  | succ n ih =>
    rw [leBytes, leValue, ih, Nat.pow_succ', Nat.mod_mul]
    simp

@[simp] theorem Memory.bytes_length (m : Memory) (a n : Nat) : (m.bytes a n).length = n := by
  induction n generalizing a with
  | zero => rfl
  | succ n ih => simp [Memory.bytes, ih]

/-- The canonical form of PMEM right after reset. -/
theorem Memory.wf_reset : State.reset.pmem.wf = true := rfl

end Sys2Proof.Machine
end

