-- ==== Sys2Proof/Laws/State.lean ====
section
/-! SUPPORT. One lemma per field of the state for each of its updates, true by rfl. -/

namespace Sys2Proof.Machine

section
variable (s : State) (code : ResultCode) (r : Results) (w v : Word) (m : Memory) (e : Encoder) (fails : Word)
  (lowest : Seq) (i : Instr) (h : HostAgent)


/-! Completion (30_encoding.md R97). -/

@[simp] theorem State.complete_cfg : (s.complete code r).cfg = s.cfg := rfl
@[simp] theorem State.complete_enc : (s.complete code r).enc = s.enc := rfl
@[simp] theorem State.complete_pmem : (s.complete code r).pmem = s.pmem := rfl
@[simp] theorem State.complete_host : (s.complete code r).host = s.host := rfl
@[simp] theorem State.complete_sched : (s.complete code r).sched = s.sched := rfl
@[simp] theorem State.complete_draws : (s.complete code r).draws = s.draws := rfl
@[simp] theorem State.complete_irqEn : (s.complete code r).regs.irqEn = s.regs.irqEn := rfl
@[simp] theorem State.complete_done : (s.complete code r).regs.done = true := rfl
@[simp] theorem State.complete_overrun : (s.complete code r).regs.overrun = s.regs.overrun := rfl
@[simp] theorem State.complete_result : (s.complete code r).regs.result = code := rfl
@[simp] theorem State.complete_lastOp : (s.complete code r).regs.lastOp = fieldOp s.latch.lcmd := rfl
@[simp] theorem State.complete_arg0 : (s.complete code r).regs.arg0 = s.regs.arg0 := rfl
@[simp] theorem State.complete_arg1 : (s.complete code r).regs.arg1 = s.regs.arg1 := rfl
@[simp] theorem State.complete_arg2 : (s.complete code r).regs.arg2 = s.regs.arg2 := rfl
@[simp] theorem State.complete_res0 : (s.complete code r).regs.res0 = (reported code r).r0 := rfl
@[simp] theorem State.complete_res1 : (s.complete code r).regs.res1 = (reported code r).r1 := rfl
@[simp] theorem State.complete_res2 : (s.complete code r).regs.res2 = (reported code r).r2 := rfl
@[simp] theorem State.complete_res3 : (s.complete code r).regs.res3 = (reported code r).r3 := rfl
@[simp] theorem State.complete_slvFails : (s.complete code r).regs.slvFails = s.regs.slvFails := rfl
@[simp] theorem State.complete_slvLowest : (s.complete code r).regs.slvLowest = s.regs.slvLowest := rfl
@[simp] theorem State.complete_busy : (s.complete code r).latch.busy = false := rfl
@[simp] theorem State.complete_lcmd : (s.complete code r).latch.lcmd = s.latch.lcmd := rfl
@[simp] theorem State.complete_larg0 : (s.complete code r).latch.larg0 = s.latch.larg0 := rfl
@[simp] theorem State.complete_larg1 : (s.complete code r).latch.larg1 = s.latch.larg1 := rfl
@[simp] theorem State.complete_larg2 : (s.complete code r).latch.larg2 = s.latch.larg2 := rfl
@[simp] theorem reported_success : reported .success r = r := rfl
@[simp] theorem reported_failed {code : ResultCode} (hc : code ≠ .success) (r : Results) :
    reported code r = Results.zero := if_neg hc
@[simp] theorem reported_zero : reported code Results.zero = Results.zero := by simp [reported]
theorem State.raise_eq : s.raise code = s.complete code Results.zero := rfl

/-! A command ended by a failing check (30_encoding.md R97). -/

@[simp] theorem State.raise_cfg : (s.raise code).cfg = s.cfg := rfl
@[simp] theorem State.raise_enc : (s.raise code).enc = s.enc := rfl
@[simp] theorem State.raise_pmem : (s.raise code).pmem = s.pmem := rfl
@[simp] theorem State.raise_host : (s.raise code).host = s.host := rfl
@[simp] theorem State.raise_sched : (s.raise code).sched = s.sched := rfl
@[simp] theorem State.raise_draws : (s.raise code).draws = s.draws := rfl
@[simp] theorem State.raise_irqEn : (s.raise code).regs.irqEn = s.regs.irqEn := rfl
@[simp] theorem State.raise_done : (s.raise code).regs.done = true := rfl
@[simp] theorem State.raise_overrun : (s.raise code).regs.overrun = s.regs.overrun := rfl
@[simp] theorem State.raise_result : (s.raise code).regs.result = code := rfl
@[simp] theorem State.raise_lastOp : (s.raise code).regs.lastOp = fieldOp s.latch.lcmd := rfl
@[simp] theorem State.raise_arg0 : (s.raise code).regs.arg0 = s.regs.arg0 := rfl
@[simp] theorem State.raise_arg1 : (s.raise code).regs.arg1 = s.regs.arg1 := rfl
@[simp] theorem State.raise_arg2 : (s.raise code).regs.arg2 = s.regs.arg2 := rfl
@[simp] theorem State.raise_res0 : (s.raise code).regs.res0 = 0 := by
  rw [State.raise_eq, State.complete_res0, reported_zero]; rfl
@[simp] theorem State.raise_res1 : (s.raise code).regs.res1 = 0 := by
  rw [State.raise_eq, State.complete_res1, reported_zero]; rfl
@[simp] theorem State.raise_res2 : (s.raise code).regs.res2 = 0 := by
  rw [State.raise_eq, State.complete_res2, reported_zero]; rfl
@[simp] theorem State.raise_res3 : (s.raise code).regs.res3 = 0 := by
  rw [State.raise_eq, State.complete_res3, reported_zero]; rfl
@[simp] theorem State.raise_slvFails : (s.raise code).regs.slvFails = s.regs.slvFails := rfl
@[simp] theorem State.raise_slvLowest : (s.raise code).regs.slvLowest = s.regs.slvLowest := rfl
@[simp] theorem State.raise_busy : (s.raise code).latch.busy = false := rfl
@[simp] theorem State.raise_lcmd : (s.raise code).latch.lcmd = s.latch.lcmd := rfl
@[simp] theorem State.raise_larg0 : (s.raise code).latch.larg0 = s.latch.larg0 := rfl
@[simp] theorem State.raise_larg1 : (s.raise code).latch.larg1 = s.latch.larg1 := rfl
@[simp] theorem State.raise_larg2 : (s.raise code).latch.larg2 = s.latch.larg2 := rfl

/-! Acceptance (30_encoding.md R95). -/

@[simp] theorem State.accept_cfg : (s.accept w).cfg = s.cfg := rfl
@[simp] theorem State.accept_enc : (s.accept w).enc = s.enc := rfl
@[simp] theorem State.accept_pmem : (s.accept w).pmem = s.pmem := rfl
@[simp] theorem State.accept_host : (s.accept w).host = s.host := rfl
@[simp] theorem State.accept_sched : (s.accept w).sched = s.sched := rfl
@[simp] theorem State.accept_draws : (s.accept w).draws = s.draws := rfl
@[simp] theorem State.accept_irqEn : (s.accept w).regs.irqEn = s.regs.irqEn := rfl
@[simp] theorem State.accept_done : (s.accept w).regs.done = false := rfl
@[simp] theorem State.accept_overrun : (s.accept w).regs.overrun = s.regs.overrun := rfl
@[simp] theorem State.accept_result : (s.accept w).regs.result = s.regs.result := rfl
@[simp] theorem State.accept_lastOp : (s.accept w).regs.lastOp = s.regs.lastOp := rfl
@[simp] theorem State.accept_arg0 : (s.accept w).regs.arg0 = s.regs.arg0 := rfl
@[simp] theorem State.accept_arg1 : (s.accept w).regs.arg1 = s.regs.arg1 := rfl
@[simp] theorem State.accept_arg2 : (s.accept w).regs.arg2 = s.regs.arg2 := rfl
@[simp] theorem State.accept_res0 : (s.accept w).regs.res0 = s.regs.res0 := rfl
@[simp] theorem State.accept_res1 : (s.accept w).regs.res1 = s.regs.res1 := rfl
@[simp] theorem State.accept_res2 : (s.accept w).regs.res2 = s.regs.res2 := rfl
@[simp] theorem State.accept_res3 : (s.accept w).regs.res3 = s.regs.res3 := rfl
@[simp] theorem State.accept_slvFails : (s.accept w).regs.slvFails = s.regs.slvFails := rfl
@[simp] theorem State.accept_slvLowest : (s.accept w).regs.slvLowest = s.regs.slvLowest := rfl
@[simp] theorem State.accept_busy : (s.accept w).latch.busy = true := rfl
@[simp] theorem State.accept_lcmd : (s.accept w).latch.lcmd = w := rfl
@[simp] theorem State.accept_larg0 : (s.accept w).latch.larg0 = s.regs.arg0 := rfl
@[simp] theorem State.accept_larg1 : (s.accept w).latch.larg1 = s.regs.arg1 := rfl
@[simp] theorem State.accept_larg2 : (s.accept w).latch.larg2 = s.regs.arg2 := rfl

/-! The next command word placed in the latch. -/

@[simp] theorem State.withCommand_cfg : (s.withCommand w).cfg = s.cfg := rfl
@[simp] theorem State.withCommand_enc : (s.withCommand w).enc = s.enc := rfl
@[simp] theorem State.withCommand_pmem : (s.withCommand w).pmem = s.pmem := rfl
@[simp] theorem State.withCommand_host : (s.withCommand w).host = s.host := rfl
@[simp] theorem State.withCommand_draws : (s.withCommand w).draws = s.draws := rfl
@[simp] theorem State.withCommand_regs : (s.withCommand w).regs = (s.accept w).regs := rfl
@[simp] theorem State.withCommand_latch : (s.withCommand w).latch = (s.accept w).latch := rfl
@[simp] theorem State.withCommand_sched : (s.withCommand w).sched = .engine :: s.sched := rfl

/-! `setPmem`. -/

@[simp] theorem State.setPmem_cfg : (s.setPmem m).cfg = s.cfg := rfl
@[simp] theorem State.setPmem_regs : (s.setPmem m).regs = s.regs := rfl
@[simp] theorem State.setPmem_enc : (s.setPmem m).enc = s.enc := rfl
@[simp] theorem State.setPmem_latch : (s.setPmem m).latch = s.latch := rfl
@[simp] theorem State.setPmem_pmem : (s.setPmem m).pmem = m := rfl
@[simp] theorem State.setPmem_host : (s.setPmem m).host = s.host := rfl
@[simp] theorem State.setPmem_sched : (s.setPmem m).sched = s.sched := rfl
@[simp] theorem State.setPmem_draws : (s.setPmem m).draws = s.draws := rfl

/-! `setEnc`. -/

@[simp] theorem State.setEnc_cfg : (s.setEnc e).cfg = s.cfg := rfl
@[simp] theorem State.setEnc_regs : (s.setEnc e).regs = s.regs := rfl
@[simp] theorem State.setEnc_enc : (s.setEnc e).enc = e := rfl
@[simp] theorem State.setEnc_latch : (s.setEnc e).latch = s.latch := rfl
@[simp] theorem State.setEnc_pmem : (s.setEnc e).pmem = s.pmem := rfl
@[simp] theorem State.setEnc_host : (s.setEnc e).host = s.host := rfl
@[simp] theorem State.setEnc_sched : (s.setEnc e).sched = s.sched := rfl
@[simp] theorem State.setEnc_draws : (s.setEnc e).draws = s.draws := rfl

/-! The diagnostics of a rank-deficient solve (42_solver.md R185). -/

@[simp] theorem State.setSlv_cfg : (s.setSlv fails lowest).cfg = s.cfg := rfl
@[simp] theorem State.setSlv_enc : (s.setSlv fails lowest).enc = s.enc := rfl
@[simp] theorem State.setSlv_latch : (s.setSlv fails lowest).latch = s.latch := rfl
@[simp] theorem State.setSlv_pmem : (s.setSlv fails lowest).pmem = s.pmem := rfl
@[simp] theorem State.setSlv_host : (s.setSlv fails lowest).host = s.host := rfl
@[simp] theorem State.setSlv_sched : (s.setSlv fails lowest).sched = s.sched := rfl
@[simp] theorem State.setSlv_draws : (s.setSlv fails lowest).draws = s.draws := rfl
@[simp] theorem State.setSlv_irqEn : (s.setSlv fails lowest).regs.irqEn = s.regs.irqEn := rfl
@[simp] theorem State.setSlv_done : (s.setSlv fails lowest).regs.done = s.regs.done := rfl
@[simp] theorem State.setSlv_overrun : (s.setSlv fails lowest).regs.overrun = s.regs.overrun := rfl
@[simp] theorem State.setSlv_result : (s.setSlv fails lowest).regs.result = s.regs.result := rfl
@[simp] theorem State.setSlv_lastOp : (s.setSlv fails lowest).regs.lastOp = s.regs.lastOp := rfl
@[simp] theorem State.setSlv_arg0 : (s.setSlv fails lowest).regs.arg0 = s.regs.arg0 := rfl
@[simp] theorem State.setSlv_arg1 : (s.setSlv fails lowest).regs.arg1 = s.regs.arg1 := rfl
@[simp] theorem State.setSlv_arg2 : (s.setSlv fails lowest).regs.arg2 = s.regs.arg2 := rfl
@[simp] theorem State.setSlv_res0 : (s.setSlv fails lowest).regs.res0 = s.regs.res0 := rfl
@[simp] theorem State.setSlv_res1 : (s.setSlv fails lowest).regs.res1 = s.regs.res1 := rfl
@[simp] theorem State.setSlv_res2 : (s.setSlv fails lowest).regs.res2 = s.regs.res2 := rfl
@[simp] theorem State.setSlv_res3 : (s.setSlv fails lowest).regs.res3 = s.regs.res3 := rfl
@[simp] theorem State.setSlv_slvFails : (s.setSlv fails lowest).regs.slvFails = fails := rfl
@[simp] theorem State.setSlv_slvLowest : (s.setSlv fails lowest).regs.slvLowest = lowest := rfl

/-! The schedule. -/

@[simp] theorem State.nextTurn_cfg : s.nextTurn.cfg = s.cfg := rfl
@[simp] theorem State.nextTurn_regs : s.nextTurn.regs = s.regs := rfl
@[simp] theorem State.nextTurn_enc : s.nextTurn.enc = s.enc := rfl
@[simp] theorem State.nextTurn_latch : s.nextTurn.latch = s.latch := rfl
@[simp] theorem State.nextTurn_pmem : s.nextTurn.pmem = s.pmem := rfl
@[simp] theorem State.nextTurn_host : s.nextTurn.host = s.host := rfl
@[simp] theorem State.nextTurn_sched : s.nextTurn.sched = s.sched.tail := rfl
@[simp] theorem State.nextTurn_draws : s.nextTurn.draws = s.draws := rfl

/-! Reset (70_reset_and_hazards.md R240 to R242). -/

@[simp] theorem State.resetBlock_cfg : s.resetBlock.cfg = s.cfg := rfl
@[simp] theorem State.resetBlock_regs : s.resetBlock.regs = Regs.reset := rfl
@[simp] theorem State.resetBlock_enc : s.resetBlock.enc = Encoder.reset s.cfg.encWindow := rfl
@[simp] theorem State.resetBlock_latch : s.resetBlock.latch = Latch.reset := rfl
@[simp] theorem State.resetBlock_pmem : s.resetBlock.pmem = s.pmem := rfl
@[simp] theorem State.resetBlock_host : s.resetBlock.host = s.host := rfl
@[simp] theorem State.resetBlock_sched : s.resetBlock.sched = s.sched := rfl
@[simp] theorem State.resetBlock_draws : s.resetBlock.draws = s.draws := rfl
@[simp] theorem State.softReset_cfg : s.softReset.cfg = s.cfg := rfl
@[simp] theorem State.softReset_regs : s.softReset.regs = Regs.reset := rfl
@[simp] theorem State.softReset_enc : s.softReset.enc = Encoder.reset s.cfg.encWindow := rfl
@[simp] theorem State.softReset_latch : s.softReset.latch = Latch.reset := rfl
@[simp] theorem State.softReset_pmem : s.softReset.pmem = Memory.scramble s.draws s.pmem s.inFlightWriteSet := rfl
@[simp] theorem State.softReset_host : s.softReset.host = s.host := rfl
@[simp] theorem State.softReset_sched : s.softReset.sched = s.sched := rfl
@[simp] theorem State.softReset_draws : s.softReset.draws = s.draws + 1 := rfl
@[simp] theorem State.hwReset_cfg : s.hwReset.cfg = s.cfg := rfl
@[simp] theorem State.hwReset_regs : s.hwReset.regs = Regs.reset := rfl
@[simp] theorem State.hwReset_enc : s.hwReset.enc = Encoder.reset s.cfg.encWindow := rfl
@[simp] theorem State.hwReset_latch : s.hwReset.latch = Latch.reset := rfl
@[simp] theorem State.hwReset_pmem : s.hwReset.pmem = Memory.drawn s.draws s.cfg.pmemBytes := rfl
@[simp] theorem State.hwReset_host : s.hwReset.host = s.host := rfl
@[simp] theorem State.hwReset_sched : s.hwReset.sched = s.sched := rfl
@[simp] theorem State.hwReset_draws : s.hwReset.draws = s.draws + 1 := rfl

/-! The encoder. -/

@[simp] theorem Encoder.append_nextSeq (cfg : Config) (addr : Word) (len : Nat) :
    (e.append cfg addr len).nextSeq = e.nextSeq + 1 := rfl
@[simp] theorem Encoder.append_nextParity (cfg : Config) (addr : Word) (len : Nat) :
    (e.append cfg addr len).nextParity = e.nextParity := rfl
@[simp] theorem Encoder.append_nextColumn (cfg : Config) (addr : Word) (len : Nat) :
    (e.append cfg addr len).nextColumn = e.nextColumn + 1 := rfl
@[simp] theorem Encoder.append_nextRow (cfg : Config) (addr : Word) (len : Nat) :
    (e.append cfg addr len).nextRow = e.nextRow := rfl
@[simp] theorem Encoder.append_count (cfg : Config) (addr : Word) (len : Nat) :
    (e.append cfg addr len).count = BitVec.ofNat 9 (min (e.count.toNat + 1) cfg.encWindow) := rfl
@[simp] theorem Encoder.append_cursor (cfg : Config) (addr : Word) (len : Nat) :
    (e.append cfg addr len).cursor = BitVec.ofNat 8 ((e.cursor.toNat + 1) % cfg.encWindow) := rfl
@[simp] theorem Encoder.append_newData (cfg : Config) (addr : Word) (len : Nat) :
    (e.append cfg addr len).newData = true := rfl
@[simp] theorem Encoder.append_slots (cfg : Config) (addr : Word) (len : Nat) :
    (e.append cfg addr len).slots = e.slots.set e.cursor.toNat { seq := e.nextSeq, addr := addr, len := BitVec.ofNat 16 len } := rfl
@[simp] theorem Encoder.restarted_nextSeq : e.restarted.nextSeq = 0 := rfl
@[simp] theorem Encoder.restarted_nextParity : e.restarted.nextParity = 0 := rfl
@[simp] theorem Encoder.restarted_nextColumn : e.restarted.nextColumn = 0 := rfl
@[simp] theorem Encoder.restarted_nextRow : e.restarted.nextRow = 1 := rfl
@[simp] theorem Encoder.restarted_count : e.restarted.count = 0 := rfl
@[simp] theorem Encoder.restarted_cursor : e.restarted.cursor = 0 := rfl
@[simp] theorem Encoder.restarted_newData : e.restarted.newData = false := rfl
@[simp] theorem Encoder.restarted_slots : e.restarted.slots = e.slots := rfl
@[simp] theorem Encoder.emitted_nextSeq (row : Byte) : (e.emitted row).nextSeq = e.nextSeq := by
  unfold Encoder.emitted; split <;> rfl
@[simp] theorem Encoder.emitted_nextColumn (row : Byte) : (e.emitted row).nextColumn = e.nextColumn := by
  unfold Encoder.emitted; split <;> rfl
@[simp] theorem Encoder.emitted_count (row : Byte) : (e.emitted row).count = e.count := by
  unfold Encoder.emitted; split <;> rfl
@[simp] theorem Encoder.emitted_cursor (row : Byte) : (e.emitted row).cursor = e.cursor := by
  unfold Encoder.emitted; split <;> rfl
@[simp] theorem Encoder.emitted_slots (row : Byte) : (e.emitted row).slots = e.slots := by
  unfold Encoder.emitted; split <;> rfl
@[simp] theorem Encoder.emitted_newData (row : Byte) : (e.emitted row).newData = false := by
  unfold Encoder.emitted; split <;> rfl
@[simp] theorem Encoder.emitted_nextParity (row : Byte) :
    (e.emitted row).nextParity = if row = 0 then e.nextSeq else e.nextParity := by
  unfold Encoder.emitted; split <;> rfl
@[simp] theorem Encoder.emitted_nextRow (row : Byte) :
    (e.emitted row).nextRow = if row = 0 then e.nextRow else nextCauchyRow e.nextRow := by
  unfold Encoder.emitted; split <;> rfl

end

end Sys2Proof.Machine
end

