-- ==== Sys2Proof/Laws/Meanings.lean ====
section
/-! SUPPORT. Once for each shared operation and each meaning, everything it can do: what a completion leaves, the cases of
each command, of a host access and of a step. -/

namespace Sys2Proof.Machine

/-- What `complete` leaves. -/
theorem completed_complete (s : State) (code : ResultCode) (r : Results) :
    Completed s (s.complete code r) code (reported code r) := by
  constructor <;> rfl

/-- What `raise` leaves: "no other effect of that command" (30_encoding.md R97). -/
theorem onlyReported_raise (s : State) (code : ResultCode) : OnlyReported s (s.raise code) code Results.zero := by
  refine ⟨?_, rfl, ⟨rfl, rfl⟩, fun _ => rfl⟩
  constructor <;> first | rfl | simp [Results.zero]

/-- A command whose only success effect is its report. -/
theorem onlyReported_success (s : State) (r : Results) : OnlyReported s (s.complete .success r) .success r :=
  ⟨completed_complete s .success r, rfl, ⟨rfl, rfl⟩, fun _ => rfl⟩

/-- The cases of GF_DIV. -/
theorem execGfDiv_cases {a b : Byte} {s t : State} (h : execGfDiv a b s = .next t) :
    (b = 0 ∧ t = s.raise .invalidInput)
      ∨ (b ≠ 0 ∧ t = s.complete .success (scalarResult (gfDiv s.cfg.gfPoly a b))) := by
  unfold execGfDiv at h
  split at h <;> simp only [Host.Outcome.next.injEq] at h
  · exact .inl ⟨‹_›, h.symm⟩
  · exact .inr ⟨‹_›, h.symm⟩

/-- The cases of GF_CAUCHY. -/
theorem execGfCauchy_cases {row col : Byte} {s t : State} (h : execGfCauchy row col s = .next t) :
    (row = 0 ∧ t = s.raise .invalidInput)
      ∨ (row ≠ 0 ∧ den s.cfg row col = 0 ∧ t = s.raise .degenerate)
      ∨ (row ≠ 0 ∧ den s.cfg row col ≠ 0 ∧ t = s.complete .success (scalarResult (cauchy s.cfg row col))) := by
  unfold execGfCauchy at h
  split at h
  · simp only [Host.Outcome.next.injEq] at h
    exact .inl ⟨‹_›, h.symm⟩
  · split at h <;> simp only [Host.Outcome.next.injEq] at h
    · exact .inr (.inl ⟨‹_›, ‹_›, h.symm⟩)
    · exact .inr (.inr ⟨‹_›, ‹_›, h.symm⟩)

/-- The cases of a bulk command. -/
theorem bulk_cases {f : Byte → Byte → Byte} {s t : State} (h : bulk f s = .next t) :
    (∃ code, bulkFailure s = some code ∧ t = s.raise code)
      ∨ (bulkFailure s = none
        ∧ t = (s.setPmem (bulkLoop f (argA s) (argB s) (argC s) s.pmem)).complete .success Results.zero) := by
  unfold bulk at h
  split at h <;> simp only [Host.Outcome.next.injEq] at h
  · exact .inl ⟨_, ‹_›, h.symm⟩
  · exact .inr ⟨‹_›, h.symm⟩

/-- The check of a bulk command. -/
theorem bulkFailure_eq_none {s : State} :
    bulkFailure s = none ↔ inRange s.cfg (argA s) (argC s) = true ∧ inRange s.cfg (argB s) (argC s) = true := by
  unfold bulkFailure
  cases inRange s.cfg (argA s) (argC s) <;> cases inRange s.cfg (argB s) (argC s) <;> simp

/-- The cases of GEN_ROW. -/
theorem execGenRow_cases {row : Byte} {s t : State} (h : execGenRow row s = .next t) :
    (∃ code, genRowFailure row s = some code ∧ t = s.raise code)
      ∨ (genRowFailure row s = none
        ∧ t = (s.setPmem ((genRowJob row s).writtenTo s.cfg s.pmem)).complete .success
          ((genRowJob row s).results (genRowJob row s).start)) := by
  unfold execGenRow at h
  split at h <;> simp only [Host.Outcome.next.injEq] at h
  · exact .inl ⟨_, ‹_›, h.symm⟩
  · exact .inr ⟨‹_›, h.symm⟩

/-- The cases of ENC_ORIGINAL. -/
theorem execEncOriginal_cases {s t : State} (h : execEncOriginal s = .next t) :
    (∃ code, encOriginalFailure s = some code ∧ t = s.raise code)
      ∨ (encOriginalFailure s = none
        ∧ t = (s.setEnc (s.enc.append s.cfg s.latch.larg0 (argB s))).complete .success
          { Results.zero with r0 := loWord s.enc.nextSeq, r1 := hiWord s.enc.nextSeq }) := by
  unfold execEncOriginal at h
  split at h <;> simp only [Host.Outcome.next.injEq] at h
  · exact .inl ⟨_, ‹_›, h.symm⟩
  · exact .inr ⟨‹_›, h.symm⟩

/-- The cases of ENC_RECOVERY. -/
theorem execEncRecovery_cases {s t : State} (h : execEncRecovery s = .next t) :
    (∃ code, encRecoveryFailure s = some code ∧ t = s.raise code)
      ∨ (encRecoveryFailure s = none
        ∧ t = ((s.setPmem ((encRecoveryJob s).writtenTo s.cfg s.pmem)).setEnc
          (s.enc.emitted s.enc.recoveryRow)).complete .success ((encRecoveryJob s).results s.enc.spanStart)) := by
  unfold execEncRecovery at h
  split at h <;> simp only [Host.Outcome.next.injEq] at h
  · exact .inl ⟨_, ‹_›, h.symm⟩
  · exact .inr ⟨‹_›, h.symm⟩

/-- The cases of SOLVE. -/
theorem execSolve_cases {s t : State} (h : execSolve s = .next t) :
    (∃ code, solveOutcome s.cfg s.pmem (argA s) = .failed code ∧ t = s.raise code)
      ∨ (∃ lowest, solveOutcome s.cfg s.pmem (argA s) = .rankDeficient lowest
        ∧ t = (s.setSlv (s.regs.slvFails + 1) (BitVec.ofNat 64 lowest)).raise .needsMoreData)
      ∨ (∃ cells c n, solveOutcome s.cfg s.pmem (argA s) = .solved cells c n
        ∧ t = (s.setPmem (s.pmem.writeAll cells)).complete .success
          { Results.zero with r0 := BitVec.ofNat 32 c, r1 := BitVec.ofNat 32 n }) := by
  unfold execSolve at h
  split at h <;> simp only [Host.Outcome.next.injEq] at h
  · exact .inl ⟨_, ‹_›, h.symm⟩
  · exact .inr (.inl ⟨_, ‹_›, h.symm⟩)
  · exact .inr (.inr ⟨_, _, _, ‹_›, h.symm⟩)

/-- The cases of a host write. -/
theorem busWrite_cases {s t : State} {off n : Nat} {v : Word} (h : busWrite s off n v = .ok t) :
    (target s.cfg off n = .register off ∧ t = writeOffset s off v)
      ∨ (∃ a, target s.cfg off n = .pmem a ∧ s.latch.busy = false
        ∧ t = s.setPmem (s.pmem.writeLE a n v.toNat)) := by
  unfold busWrite at h
  split at h
  · rename_i o ho
    have e : o = off := by
      unfold target at ho
      split at ho
      · split at ho <;> simp_all
      · split at ho
        · simp at ho
        · split at ho
          · split at ho <;> simp at ho
          · simp at ho
    subst e
    simp only [Answer.ok.injEq] at h
    exact .inl ⟨ho, h.symm⟩
  · split at h
    · simp at h
    · simp only [Answer.ok.injEq] at h
      exact .inr ⟨_, ‹_›, by simpa using ‹¬s.latch.busy = true›, h.symm⟩
  · simp at h
  · simp at h

/-- The cases of the host's turn. -/
theorem hostTurn_cases {s t : State} (h : hostTurn s = .next t) :
    (s.host.prog[s.host.pos]? = none ∧ t = s)
      ∨ (∃ off n x v, s.host.prog[s.host.pos]? = some (.load off n x) ∧ busRead s off n = .ok v
        ∧ t = { s with host := s.host.named x v })
      ∨ (∃ off n v s', s.host.prog[s.host.pos]? = some (.store off n v) ∧ busWrite s off n v = .ok s'
        ∧ t = { s' with host := s.host.advanced })
      ∨ (∃ x mask d, s.host.prog[s.host.pos]? = some (.bnz x mask d)
        ∧ t = { s with host := s.host.branched x mask d }) := by
  unfold hostTurn at h
  split at h
  · rename_i stmt hs
    cases stmt with
    | load off n x =>
      simp only [runStmt] at h
      split at h <;> simp only [Host.Outcome.next.injEq, reduceCtorEq] at h
      exact .inr (.inl ⟨_, _, _, _, hs, ‹_›, h.symm⟩)
    | store off n v =>
      simp only [runStmt] at h
      split at h <;> simp only [Host.Outcome.next.injEq, reduceCtorEq] at h
      exact .inr (.inr (.inl ⟨_, _, _, _, hs, ‹_›, h.symm⟩))
    | bnz x mask d =>
      simp only [runStmt, Host.Outcome.next.injEq] at h
      exact .inr (.inr (.inr ⟨_, _, _, hs, h.symm⟩))
  · simp only [Host.Outcome.next.injEq] at h
    exact .inl ⟨‹_›, h.symm⟩

/-- The cases of the engine's turn. -/
theorem engineTurn_cases {s t : State} (h : engineTurn s = .next t) :
    (s.latch.busy = false ∧ t = s)
      ∨ (s.latch.busy = true ∧ ∃ i, decode s.latch.lcmd = .command i ∧ exec i s = .next t)
      ∨ (s.latch.busy = true ∧ ∃ why, decode s.latch.lcmd = .illegal why ∧ t = s.raise .illegalCommand) := by
  unfold engineTurn at h
  split at h
  · split at h
    · exact .inr (.inl ⟨‹_›, _, ‹_›, h⟩)
    · simp only [completeIllegal, Host.Outcome.next.injEq] at h
      exact .inr (.inr ⟨‹_›, _, ‹_›, h.symm⟩)
  · simp only [Host.Outcome.next.injEq] at h
    exact .inl ⟨by simpa using ‹¬s.latch.busy = true›, h.symm⟩

/-- The cases of a step. -/
theorem step_cases {s t : State} (h : step s = .next t) :
    (s.turn = .host ∧ hostTurn s.nextTurn = .next t)
      ∨ (s.turn = .engine ∧ engineTurn s.nextTurn = .next t)
      ∨ (s.turn = .hwReset ∧ t = s.nextTurn.hwReset) := by
  unfold step takeTurn at h
  split at h
  · exact .inl ⟨‹_›, h⟩
  · exact .inr (.inl ⟨‹_›, h⟩)
  · simp only [Host.Outcome.next.injEq] at h
    exact .inr (.inr ⟨‹_›, h.symm⟩)

end Sys2Proof.Machine
end

