-- ==== Sys2Proof/Laws/PerInstr.lean ====
section
/-! SUPPORT. Families of statements with one lemma per command. `EncodeFields`: the four fields of a command's word are its
opcode, its operands and 0 (30_encoding.md R90, R92 and R99). -/

namespace Sys2Proof.Laws

/-- OP of a word built by the spelling of 30_encoding.md R99. -/
theorem fieldOp_spelling (op a b : Byte) :
    fieldOp (op.setWidth 32 ||| (a.setWidth 32 <<< 8) ||| (b.setWidth 32 <<< 16)) = op := by
  ext i hi
  simp [fieldOp, hi, show i < 16 by omega, show i < 32 by omega]

/-- A of a word built by the spelling of 30_encoding.md R99. -/
theorem fieldA_spelling (op a b : Byte) :
    fieldA (op.setWidth 32 ||| (a.setWidth 32 <<< 8) ||| (b.setWidth 32 <<< 16)) = a := by
  ext i hi
  simp [fieldA, hi, show 8 + i < 16 by omega, show 8 + i < 32 by omega]

/-- B of a word built by the spelling of 30_encoding.md R99. -/
theorem fieldB_spelling (op a b : Byte) :
    fieldB (op.setWidth 32 ||| (a.setWidth 32 <<< 8) ||| (b.setWidth 32 <<< 16)) = b := by
  ext i hi
  simp [fieldB, hi, show 16 + i < 32 by omega, show 8 ≤ 16 + i by omega, show 8 ≤ 16 + i - 8 by omega]

/-- Z of a word built by the spelling of 30_encoding.md R99. -/
theorem fieldZ_spelling (op a b : Byte) :
    fieldZ (op.setWidth 32 ||| (a.setWidth 32 <<< 8) ||| (b.setWidth 32 <<< 16)) = 0 := by
  ext i hi
  simp [fieldZ, BitVec.getLsbD_of_ge op (24 + i) (by omega), BitVec.getLsbD_of_ge a (24 + i - 8) (by omega),
    BitVec.getLsbD_of_ge b (24 + i - 16) (by omega)]

/-- A row whose A and B must be 0 answers its command exactly where they are. -/
theorem decodePlain_command {a b : Byte} {i j : Instr} : decodePlain a b i = .command j ↔ a = 0 ∧ b = 0 ∧ i = j := by
  unfold decodePlain
  split
  · simp_all
  · split <;> simp_all

/-- A row whose B must be 0 answers its command exactly where it is. -/
theorem decodeA_command {a b : Byte} {f : Byte → Instr} {j : Instr} :
    decodeA a b f = .command j ↔ b = 0 ∧ f a = j := by
  unfold decodeA
  split <;> simp_all

/-- What follows from an answer of either branch of a test follows from the test's answer. -/
theorem command_of_ite {c P : Prop} [Decidable c] {x y : Decoded} {i : Instr} (h : (if c then x else y) = .command i)
    (hx : c → x = .command i → P) (hy : y = .command i → P) : P := by
  by_cases hc : c
  · exact hx hc (by rwa [if_pos hc] at h)
  · exact hy (by rwa [if_neg hc] at h)

/-- What the opcode map answers with a command: the one whose opcode and operands the fields are. -/
theorem decodeOp_command {op a b : Byte} {i : Instr} (h : decodeOp op a b = .command i) :
    op = i.opcode ∧ a = i.immA ∧ b = i.immB := by
  unfold decodeOp at h
  refine command_of_ite h (fun hc h => by obtain ⟨rfl, rfl, rfl⟩ := decodePlain_command.mp h; exact ⟨hc, rfl, rfl⟩) fun h => ?_
  refine command_of_ite h (fun hc h => by cases h; exact ⟨hc, rfl, rfl⟩) fun h => ?_
  refine command_of_ite h (fun hc h => by cases h; exact ⟨hc, rfl, rfl⟩) fun h => ?_
  refine command_of_ite h (fun hc h => by cases h; exact ⟨hc, rfl, rfl⟩) fun h => ?_
  refine command_of_ite h (fun hc h => by cases h; exact ⟨hc, rfl, rfl⟩) fun h => ?_
  refine command_of_ite h (fun hc h => by obtain ⟨rfl, rfl⟩ := decodeA_command.mp h; exact ⟨hc, rfl, rfl⟩) fun h => ?_
  refine command_of_ite h (fun hc h => by obtain ⟨rfl, rfl⟩ := decodeA_command.mp h; exact ⟨hc, rfl, rfl⟩) fun h => ?_
  refine command_of_ite h (fun hc h => by obtain ⟨rfl, rfl⟩ := decodeA_command.mp h; exact ⟨hc, rfl, rfl⟩) fun h => ?_
  refine command_of_ite h (fun hc h => by obtain ⟨rfl, rfl, rfl⟩ := decodePlain_command.mp h; exact ⟨hc, rfl, rfl⟩) fun h => ?_
  refine command_of_ite h (fun hc h => by obtain ⟨rfl, rfl, rfl⟩ := decodePlain_command.mp h; exact ⟨hc, rfl, rfl⟩) fun h => ?_
  refine command_of_ite h (fun hc h => by obtain ⟨rfl, rfl, rfl⟩ := decodePlain_command.mp h; exact ⟨hc, rfl, rfl⟩) fun h => ?_
  refine command_of_ite h (fun hc h => by obtain ⟨rfl, rfl, rfl⟩ := decodePlain_command.mp h; exact ⟨hc, rfl, rfl⟩) fun h => ?_
  cases h

/-- What the decoder answers with a command: Z is 0 and the other fields are the command's. -/
theorem decode_command {w : Word} {i : Instr} (h : decode w = .command i) :
    fieldZ w = 0 ∧ fieldOp w = i.opcode ∧ fieldA w = i.immA ∧ fieldB w = i.immB := by
  unfold decode at h
  split at h
  · cases h
  · exact ⟨Decidable.not_not.mp ‹¬fieldZ w ≠ 0›, decodeOp_command h⟩

/-- A word is made of its four fields. -/
theorem word_of_fields (w : Word) :
    w = (fieldOp w).setWidth 32 ||| ((fieldA w).setWidth 32 <<< 8) ||| ((fieldB w).setWidth 32 <<< 16)
      ||| ((fieldZ w).setWidth 32 <<< 24) := by
  ext i hi
  simp only [fieldOp, fieldA, fieldB, fieldZ, BitVec.getElem_or, BitVec.getElem_setWidth, BitVec.getElem_shiftLeft,
    BitVec.getLsbD_extractLsb']
  rw [← BitVec.getLsbD_eq_getElem]
  interval_cases i <;> simp

/-- The fields of a command's word. -/
def EncodeFields.Statement (i : Instr) : Prop :=
  fieldOp (encode i) = i.opcode ∧ fieldA (encode i) = i.immA ∧ fieldB (encode i) = i.immB ∧ fieldZ (encode i) = 0
    ∧ i.wf = true

/-- The fields of any word built by the spelling, for the lemmas below. -/
theorem encodeFields_of_spelling (i : Instr) (h : i.wf = true) : EncodeFields.Statement i :=
  ⟨fieldOp_spelling _ _ _, fieldA_spelling _ _ _, fieldB_spelling _ _ _, fieldZ_spelling _ _ _, h⟩

theorem EncodeFields.nop : EncodeFields.Statement .nop := encodeFields_of_spelling _ rfl
theorem EncodeFields.gfAdd (a b : Byte) : EncodeFields.Statement (.gfAdd a b) := encodeFields_of_spelling _ rfl
theorem EncodeFields.gfMul (a b : Byte) : EncodeFields.Statement (.gfMul a b) := encodeFields_of_spelling _ rfl
theorem EncodeFields.gfDiv (a b : Byte) : EncodeFields.Statement (.gfDiv a b) := encodeFields_of_spelling _ rfl
theorem EncodeFields.gfCauchy (row col : Byte) : EncodeFields.Statement (.gfCauchy row col) :=
  encodeFields_of_spelling _ rfl
theorem EncodeFields.muladdMem (c : Byte) : EncodeFields.Statement (.muladdMem c) := encodeFields_of_spelling _ rfl
theorem EncodeFields.mulMem (c : Byte) : EncodeFields.Statement (.mulMem c) := encodeFields_of_spelling _ rfl
theorem EncodeFields.genRow (row : Byte) : EncodeFields.Statement (.genRow row) := encodeFields_of_spelling _ rfl
theorem EncodeFields.encOriginal : EncodeFields.Statement .encOriginal := encodeFields_of_spelling _ rfl
theorem EncodeFields.encRecovery : EncodeFields.Statement .encRecovery := encodeFields_of_spelling _ rfl
theorem EncodeFields.encReset : EncodeFields.Statement .encReset := encodeFields_of_spelling _ rfl
theorem EncodeFields.solve : EncodeFields.Statement .solve := encodeFields_of_spelling _ rfl

end Sys2Proof.Laws
end

