-- ==== Sys2Proof/Tests/Slice0.lean ====
section
/-! SUPPORT. The model's own tests: each check of well-formedness on a term it refuses, every command decoded from a word
written out from the opcode map (30_encoding.md R92), one-step runs whose results are the vectors of 95_test_vectors.md, and
for every statement with hypotheses a state and operands that meet them. -/

namespace Sys2Proof.Tests

-- Each kernel evaluation of a test would otherwise hold a thread of its own, and the threads' memory adds up.
set_option Elab.async false

open Sys2Proof.Machine

/-! Well-formedness: 00_scope.md R7 and 30_encoding.md R93. -/

theorem test_default_parameters_accepted : Config.default.wf = true := by decide +kernel
theorem test_other_polynomial_accepted : { Config.default with gfPoly := 0x11D }.wf = true := by decide +kernel
theorem test_irreducible_not_primitive_refused : { Config.default with gfPoly := 0x11B }.wf = false := by decide +kernel
theorem test_reducible_polynomial_refused : { Config.default with gfPoly := 0x101 }.wf = false := by decide +kernel
theorem test_low_degree_polynomial_refused : { Config.default with gfPoly := 0x04D }.wf = false := by decide +kernel
theorem test_window_of_one_refused : { Config.default with encWindow := 1 }.wf = false := by decide +kernel
theorem test_window_past_cols_refused : { Config.default with encWindow := 17 }.wf = false := by decide +kernel
theorem test_257_cols_refused : { Config.default with maxCols := 257, maxRows := 257 }.wf = false := by decide +kernel
theorem test_cols_past_rows_refused : { Config.default with maxCols := 33 }.wf = false := by decide +kernel
theorem test_65536_rows_refused : { Config.default with maxRows := 65536 }.wf = false := by decide +kernel
theorem test_no_payload_refused : { Config.default with maxPayload := 0 }.wf = false := by decide +kernel
theorem test_payload_65534_refused : { Config.default with maxPayload := 65534 }.wf = false := by decide +kernel
theorem test_small_pmem_refused : { Config.default with pmemBytes := 4092 }.wf = false := by decide +kernel
theorem test_large_pmem_refused : { Config.default with pmemBytes := 0x100004 }.wf = false := by decide +kernel
theorem test_odd_pmem_refused : { Config.default with pmemBytes := 4098 }.wf = false := by decide +kernel
theorem test_command_accepted : Instr.wf .solve = true ∧ spellsCommand 0x00000020 = true := by decide +kernel
theorem test_undefined_op_refused : spellsCommand 0x00000105 = false := by decide +kernel
theorem test_nonzero_z_refused : spellsCommand 0x01000001 = false := by decide +kernel
theorem test_nonzero_a_refused : spellsCommand 0x00000120 = false := by decide +kernel
theorem test_nonzero_b_refused : spellsCommand 0x00010008 = false := by decide +kernel

/-! Decoding: words written out field by field from 30_encoding.md R90 and R92, and the words of V-X. -/

theorem test_decode_nop : decode 0x00000000 = .command .nop := by decide +kernel
theorem test_decode_gfAdd : decode 0x00CA5301 = .command (.gfAdd 0x53 0xCA) := by decide +kernel
theorem test_decode_gfMul : decode 0x00835702 = .command (.gfMul 0x57 0x83) := by decide +kernel
theorem test_decode_gfDiv : decode 0x00CA9403 = .command (.gfDiv 0x94 0xCA) := by decide +kernel
theorem test_decode_gfCauchy : decode 0x002A5504 = .command (.gfCauchy 0x55 0x2A) := by decide +kernel
theorem test_decode_muladdMem : decode 0x00000208 = .command (.muladdMem 0x02) := by decide +kernel
theorem test_decode_mulMem : decode 0x00005309 = .command (.mulMem 0x53) := by decide +kernel
theorem test_decode_genRow : decode 0x0000FF10 = .command (.genRow 0xFF) := by decide +kernel
theorem test_decode_encOriginal : decode 0x00000011 = .command .encOriginal := by decide +kernel
theorem test_decode_encRecovery : decode 0x00000012 = .command .encRecovery := by decide +kernel
theorem test_decode_encReset : decode 0x00000013 = .command .encReset := by decide +kernel
theorem test_decode_solve : decode 0x00000020 = .command .solve := by decide +kernel
theorem test_decode_illegal :
    decode 0x000000FF = .illegal .undefinedOpcode ∧ decode 0x01000001 = .illegal .zNotZero
      ∧ decode 0x00000100 = .illegal .aNotZero ∧ decode 0x00010013 = .illegal .bNotZero := by decide +kernel
theorem test_decodeTableWord : decodeTableWord 32 0x00CA5303 = some (.gfDiv 0x53 0xCA) := by decide +kernel

/-! Small states. -/

/-- Bytes from numbers. -/
def bytesOf (xs : List Nat) : List Byte := xs.map (BitVec.ofNat 8)

/-- PMEM with the given bytes from each offset up. -/
def memOf (parts : List (Nat × List Nat)) : Memory := parts.foldl (fun m p => m.writeBytes p.1 (bytesOf p.2)) []

/-- The 16 bytes of an ODESC, from its numbers. -/
def odescOf (seq addr len : Nat) : List Nat :=
  (odescBytes { seq := BitVec.ofNat 64 seq, addr := BitVec.ofNat 32 addr, len := BitVec.ofNat 16 len }).map BitVec.toNat

/-- The state after reset with PMEM `m` and the ARG registers written. -/
def withArgs (m : Memory) (a0 a1 a2 : Nat) : State :=
  { State.reset with
    pmem := m
    regs := { Regs.reset with arg0 := BitVec.ofNat 32 a0, arg1 := BitVec.ofNat 32 a1, arg2 := BitVec.ofNat 32 a2 } }

/-- `withArgs` with the command word `w` accepted. -/
def inFlight (w : Nat) (m : Memory) (a0 a1 a2 : Nat) : State := (withArgs m a0 a1 a2).withFetchWord 32 w

/-- The state of a `next`. -/
def nextOf : Host.Outcome State Fault Refusal → State
  | .next s => s
  | .fault _ => State.reset
  | .refused _ => State.reset

/-- Whether an outcome is a `next`. -/
def isNext : Host.Outcome State Fault Refusal → Bool
  | .next _ => true
  | .fault _ => false
  | .refused _ => false

theorem eq_next_of_isNext {o : Host.Outcome State Fault Refusal} (h : isNext o = true) : o = .next (nextOf o) := by
  cases o with
  | next s => rfl
  | fault f => cases h
  | refused r => cases h

/-- What a step reports: RESULT and RES0 to RES3. -/
def report (o : Host.Outcome State Fault Refusal) : ResultCode × List Word :=
  ((nextOf o).regs.result, [(nextOf o).regs.res0, (nextOf o).regs.res1, (nextOf o).regs.res2, (nextOf o).regs.res3])

/-- Bytes of PMEM after a step. -/
def bytesAfter (o : Host.Outcome State Fault Refusal) (a n : Nat) : List Byte := (nextOf o).pmem.bytes a n

/-- The start of V-M1. -/
def memM : Memory := memOf [(0x10, [1, 2, 3, 4]), (0x20, [0x53, 0xCA, 0x00, 0xFF])]

/-- The start of V-M2's overlaps. -/
def memOverlap : Memory := memOf [(0x40, [0x11, 0x22, 0x33, 0x44, 0x55])]

/-- The originals and the list of V-E2. -/
def memE2 : Memory :=
  memOf [(0x100, [0x78, 0x79, 0x51]), (0x300, odescOf 5 0x100 0 ++ odescOf 6 0x100 2 ++ odescOf 7 0x102 1)]

/-- Two originals "A" and "B" with sequences 0 and 1 at 0x100, and their ODESCs at 0x300. -/
def memAB : Memory := memOf [(0x100, [0x41, 0x42]), (0x300, odescOf 0 0x100 1 ++ odescOf 1 0x101 1)]

/-- The list at 0x700 of V-E3 (sequences 0x81 and 0x82) and the one at 0x720 (sequences 2^64 - 1 and 0). -/
def memE3 : Memory :=
  memOf [(0x100, [0x41, 0x42]), (0x700, odescOf 0x81 0x100 1 ++ odescOf 0x82 0x101 1),
    (0x720, odescOf (2 ^ 64 - 1) 0x100 1 ++ odescOf 0 0x101 1)]

/-- An encoder with the originals 0 to `n` - 1, each of one byte at 0x100 plus its sequence. -/
def encoderOf (n parity : Nat) (newData : Bool) : Encoder :=
  { Encoder.reset 16 with
    nextSeq := BitVec.ofNat 64 n
    nextParity := BitVec.ofNat 64 parity
    nextColumn := BitVec.ofNat 8 n
    count := BitVec.ofNat 9 n
    cursor := BitVec.ofNat 8 n
    newData := newData
    slots := (List.range n).map (fun k => { seq := BitVec.ofNat 64 k, addr := BitVec.ofNat 32 (0x100 + k), len := 1 })
      ++ List.replicate (16 - n) Odesc.blank }

/-- V-E4 before step E7: eleven originals, the first ten covered by a parity recovery. -/
def stateE7 : State :=
  { inFlight 0x12 (memOf [(0x100, (List.range 11).map (0x41 + ·))]) 0x210 0 0 with enc := encoderOf 11 10 true }

/-- Two originals "A" and "B", no recovery yet, and an output range that ends at the end of PMEM. -/
def stateAB : State := { inFlight 0x12 memAB 0xFFFD 0x300 2 with enc := encoderOf 2 0 true }

/-- The SOLVE problem of V-S5, at 0x600, and its payloads. -/
def memS5 : Memory :=
  memOf [(0x100, [0x61]), (0x108, [0x62, 0x62]), (0x120, [0x65]), (0x128, [0x66, 0x66]), (0x138, [0x68, 0x68, 0x68, 0x68]),
    (0x400, [0x5D, 0x00, 0x91, 0xCA, 0x72, 0x72]), (0x410, [0x00, 0x00, 0x60, 0x01, 0x63]),
    (0x420, [0xCC, 0x00, 0xBD, 0x54, 0x8A, 0x87]),
    (0x600, [3, 0, 2, 0, 6, 0, 0, 0]),
    (0x608, [4, 0, 0, 0, 0, 0, 0, 0, 4, 0, 1, 0, 0x00, 4, 0, 0, 6, 0, 0, 0, 0, 0, 0, 0]),
    (0x620, [0, 0, 0, 0, 0, 0, 0, 0, 4, 0, 0, 0, 0x10, 4, 0, 0, 5, 0, 0, 0, 0, 0, 0, 0]),
    (0x638, [0, 0, 0, 0, 0, 0, 0, 0, 8, 0, 2, 0, 0x20, 4, 0, 0, 6, 0, 0, 0, 0, 0, 0, 0]),
    (0x650, [2, 0, 0, 0, 0, 0, 0, 0, 0x00, 5, 0, 0, 0, 0, 0, 0]),
    (0x660, [6, 0, 0, 0, 0, 0, 0, 0, 0x08, 5, 0, 0, 0, 0, 0, 0]),
    (0x670, odescOf 0 0x100 1 ++ odescOf 1 0x108 2 ++ odescOf 3 0x118 0 ++ odescOf 4 0x120 1 ++ odescOf 5 0x128 2
      ++ odescOf 7 0x138 4)]

/-- A problem at 0x600 with two rows, both row `row` over [0, 2) with the payload at 0x400, the columns 0 and 1, and nothing
received: rank-deficient, as V-S7. -/
def memDeficient : Memory :=
  memOf [(0x400, [0x00, 0x00, 0x03]), (0x600, [2, 0, 2, 0, 0, 0, 0, 0]),
    (0x608, [0, 0, 0, 0, 0, 0, 0, 0, 2, 0, 1, 0, 0x00, 4, 0, 0, 3, 0, 0, 0, 0, 0, 0, 0]),
    (0x620, [0, 0, 0, 0, 0, 0, 0, 0, 2, 0, 1, 0, 0x00, 4, 0, 0, 3, 0, 0, 0, 0, 0, 0, 0]),
    (0x638, [0, 0, 0, 0, 0, 0, 0, 0, 0x00, 5, 0, 0, 0, 0, 0, 0]),
    (0x648, [1, 0, 0, 0, 0, 0, 0, 0, 0x01, 5, 0, 0, 0, 0, 0, 0])]

/-- A single loss at 0x600: the parity row over [0, 2) with the payload `payload` at 0x400, "A" received at 0x100, and
sequence 1 lost, its slot at `dst`. -/
def memLost (payload : List Nat) (dst : List Nat) : Memory :=
  memOf [(0x100, [0x41]), (0x400, payload), (0x600, [1, 0, 1, 0, 1, 0, 0, 0]),
    (0x608, [0, 0, 0, 0, 0, 0, 0, 0, 2, 0, 0, 0, 0x00, 4, 0, 0, 3, 0, 0, 0, 0, 0, 0, 0]),
    (0x620, [1, 0, 0, 0, 0, 0, 0, 0] ++ dst ++ [0, 0, 0, 0]), (0x630, odescOf 0 0x100 1)]

/-- The payload 00 00 03 of "A" XOR "B" and a slot that ends at the end of PMEM. -/
def memLostB : Memory := memLost [0x00, 0x00, 0x03] [0xFF, 0xFF, 0, 0]

/-! One step on a small state: the vectors of 95_test_vectors.md. -/

theorem test_nop_clears_results :
    report (step { (inFlight 0x00 [] 0 0 0) with regs := { Regs.reset with res0 := 0x94, result := .invalidInput } })
      = (.success, [0, 0, 0, 0]) := by decide +kernel
theorem test_gfAdd : report (step (inFlight 0x00CA5301 [] 0 0 0)) = (.success, [0x99, 0, 0, 0]) := by decide +kernel
theorem test_gfMul : report (step (inFlight 0x00CA5302 [] 0 0 0)) = (.success, [0x94, 0, 0, 0]) := by decide +kernel
theorem test_gfMul_reduces : report (step (inFlight 0x00FFFF02 [] 0 0 0)) = (.success, [0xF6, 0, 0, 0]) := by decide +kernel
theorem test_gfDiv : report (step (inFlight 0x00CA5303 [] 0 0 0)) = (.success, [0x44, 0, 0, 0]) := by decide +kernel
theorem test_gfDiv_by_zero : report (step (inFlight 0x00000503 [] 0 0 0)) = (.invalidInput, [0, 0, 0, 0]) := by
  decide +kernel
theorem test_gfCauchy : report (step (inFlight 0x00FFFF04 [] 0 0 0)) = (.success, [0x93, 0, 0, 0]) := by decide +kernel
theorem test_gfCauchy_degenerate : report (step (inFlight 0x00810104 [] 0 0 0)) = (.degenerate, [0, 0, 0, 0]) := by
  decide +kernel
theorem test_muladdMem :
    bytesAfter (step (inFlight 0x208 memM 0x10 0x20 4)) 0x10 4 = bytesOf [0xA7, 0xDB, 0x03, 0xB7] := by decide +kernel
theorem test_muladdMem_overlap :
    bytesAfter (step (inFlight 0x208 memOverlap 0x41 0x40 4)) 0x40 5 = bytesOf [0x11, 0x00, 0x33, 0x22, 0x11] := by
  decide +kernel
theorem test_mulMem :
    bytesAfter (step (inFlight 0x5309 memM 0x30 0x20 4)) 0x30 4 = bytesOf [0xE1, 0x94, 0x00, 0xCA] := by decide +kernel
theorem test_mulMem_spreads :
    bytesAfter (step (inFlight 0x109 memOverlap 0x41 0x40 4)) 0x40 5 = bytesOf [0x11, 0x11, 0x11, 0x11, 0x11] := by
  decide +kernel
theorem test_genRow :
    report (step (inFlight 0x310 memE2 0x400 0x300 3)) = (.success, [5, 0, 0x00030003, 4])
      ∧ bytesAfter (step (inFlight 0x310 memE2 0x400 0x300 3)) 0x400 4 = bytesOf [0xF7, 0x00, 0x99, 0x56] := by
  decide +kernel
theorem test_genRow_wraps :
    report (step (inFlight 0x210 memE3 0x400 0x720 2)) = (.success, [0xFFFFFFFF, 0xFFFFFFFF, 0x00020002, 3])
      ∧ bytesAfter (step (inFlight 0x210 memE3 0x400 0x720 2)) 0x400 3 = bytesOf [0xBD, 0x00, 0x25] := by decide +kernel
theorem test_encOriginal :
    encStateWord (nextOf (step (inFlight 0x11 [] 0x100 1 0))).enc = 0x02010101
      ∧ (nextOf (step (inFlight 0x11 [] 0x100 1 0))).enc.nextSeq = 1 := by decide +kernel
theorem test_encOriginal_too_long : report (step (inFlight 0x11 [] 0x100 1025 0)) = (.invalidInput, [0, 0, 0, 0]) := by
  decide +kernel
theorem test_encRecovery_cauchy :
    report (step stateE7) = (.success, [0, 0, 0x0001000B, 3])
      ∧ bytesAfter (step stateE7) 0x210 3 = bytesOf [0x80, 0x00, 0x8D]
      ∧ encStateWord (nextOf (step stateE7)).enc = 0x000B020B := by decide +kernel
theorem test_encRecovery_of_one :
    report (step { (inFlight 0x12 [] 0x200 0 0) with enc := encoderOf 1 0 true }) = (.needsMoreData, [0, 0, 0, 0]) := by
  decide +kernel
theorem test_encReset : encStateWord (nextOf (step { stateE7 with latch := (inFlight 0x13 [] 0 0 0).latch })).enc = 0x100 := by
  decide +kernel
theorem test_solve_pivots :
    report (step (inFlight 0x20 memS5 0x600 0 0)) = (.success, [2, 6, 0, 0])
      ∧ bytesAfter (step (inFlight 0x20 memS5 0x600 0 0)) 0x500 3 = bytesOf [0x63, 0x63, 0x63]
      ∧ bytesAfter (step (inFlight 0x20 memS5 0x600 0 0)) 0x508 1 = bytesOf [0x67]
      ∧ bytesAfter (step (inFlight 0x20 memS5 0x600 0 0)) 0x65C 3 = bytesOf [3, 0, 1]
      ∧ bytesAfter (step (inFlight 0x20 memS5 0x600 0 0)) 0x643 1 = bytesOf [0] := by decide +kernel
theorem test_solve_deficient :
    report (step (inFlight 0x20 memDeficient 0x600 0 0)) = (.needsMoreData, [0, 0, 0, 0])
      ∧ (nextOf (step (inFlight 0x20 memDeficient 0x600 0 0))).regs.slvFails = 1 := by decide +kernel
theorem test_illegal_word :
    report (step (inFlight 0x105 [] 0 0 0)) = (.illegalCommand, [0, 0, 0, 0])
      ∧ (nextOf (step (inFlight 0x105 [] 0 0 0))).regs.lastOp = 0x05 := by decide +kernel

/-- P1: STATUS after GF_MUL with IRQ_EN = 1, and after the acknowledgement. -/
theorem test_status_after_completion :
    statusWord (nextOf (step { (inFlight 0x00CA5302 [] 0 0 0) with regs := { Regs.reset with irqEn := true } }))
        = 0x0002000A
      ∧ statusWord (writeStatus
          (nextOf (step { (inFlight 0x00CA5302 [] 0 0 0) with regs := { Regs.reset with irqEn := true } })) 2)
        = 0x00020000 := by decide +kernel

/-- P1: PARAM0 and PARAM4. -/
theorem test_parameter_registers :
    regRead State.reset .param0 = 0x00100010 ∧ regRead State.reset .param4 = 0x0080014D
      ∧ regRead State.reset .encState = 0x00000100 := by decide +kernel

/-- P5: a soft reset with IRQ_EN = 1 afterwards. -/
theorem test_soft_reset :
    statusWord (writeCtrl (nextOf (step (inFlight 0x208 memM 0x10 0x20 4))) 3) = 0
      ∧ ctrlWord (writeCtrl (nextOf (step (inFlight 0x208 memM 0x10 0x20 4))) 3) = 1
      ∧ (writeCtrl (nextOf (step (inFlight 0x208 memM 0x10 0x20 4))) 3).pmem.bytes 0x10 4
        = bytesOf [0xA7, 0xDB, 0x03, 0xB7] := by decide +kernel

/-- 20_memory.md R61, R63 and R64: where bus errors begin and end. -/
theorem test_bus_errors :
    busRead State.reset 0x004 2 = .fault .busError ∧ busRead State.reset 0x006 4 = .fault .busError
      ∧ busRead State.reset 0x1000 4 = .fault .busError ∧ busRead State.reset 0x10FFFF 1 = .ok 0
      ∧ busRead State.reset 0x110000 1 = .fault .busError ∧ busRead State.reset 0x100001 2 = .fault .busError
      ∧ busRead State.reset 0x200000 4 = .fault .outsideAperture := by decide +kernel

/-! Witnesses: for each statement with hypotheses, a state and operands that meet them, one for each of its clauses. -/

/-- The checks of `Encoder.Ok` as one decidable proposition. -/
theorem encoder_ok {cfg : Config} {e : Encoder}
    (h : e.slots.length = cfg.encWindow ∧ e.cursor.toNat < cfg.encWindow ∧ e.count.toNat ≤ cfg.encWindow
      ∧ e.nextColumn.toNat = e.nextSeq.toNat % 256
      ∧ (∀ j, j < e.count.toNat →
          (liveSlot cfg e j).seq = e.nextSeq - e.count.setWidth 64 + BitVec.ofNat 64 j)
      ∧ e.nextRow ≠ 0 ∧ ∀ j, j < e.count.toNat → (liveSlot cfg e j).payloadOk cfg = true) : e.Ok cfg :=
  ⟨h.1, h.2.1, h.2.2.1, h.2.2.2.1, h.2.2.2.2.1, h.2.2.2.2.2.1, h.2.2.2.2.2.2⟩

/-- The checks of `State.Inv` as one decidable proposition and the encoder's. -/
theorem state_inv {s : State} (he : s.enc.Ok s.cfg)
    (h : s.cfg.wf = true ∧ s.pmem.wf = true ∧ s.pmem.within s.cfg.pmemBytes = true
      ∧ (s.latch.busy = true → s.regs.done = false)
      ∧ s.regs.result ≠ .duplicateData ∧ s.regs.result ≠ .outOfMemory) : s.Inv :=
  ⟨h.1, he, h.2.1, h.2.2.1, h.2.2.2.1, h.2.2.2.2⟩

theorem stateAB_encoder_ok : stateAB.enc.Ok stateAB.cfg := encoder_ok (by decide +kernel)

/-- The state of `StepKeepsInvariant`'s witness: two live originals and a command in flight. -/
theorem stateAB_inv : stateAB.Inv := state_inv stateAB_encoder_ok (by decide +kernel)

theorem witness_WordsSpellOneCommand :
    (spellsCommand 0x00CA5302 = true ∧ decode 0x00CA5302 = .command (.gfMul 0x53 0xCA))
      ∧ spellsCommand 0x00010013 = false := by decide +kernel

theorem witness_StepRunsDecodedCommand :
    (inFlight 0x00CA5302 [] 0 0 0).turn = .engine ∧ (inFlight 0x00CA5302 [] 0 0 0).latch.busy = true
      ∧ decode (inFlight 0x00CA5302 [] 0 0 0).latch.lcmd = .command (.gfMul 0x53 0xCA) := by decide +kernel

theorem witness_IllegalWordsComplete :
    (inFlight 0x00010013 [] 0 0 0).turn = .engine ∧ (inFlight 0x00010013 [] 0 0 0).latch.busy = true
      ∧ spellsCommand (inFlight 0x00010013 [] 0 0 0).latch.lcmd = false := by decide +kernel

/-- A host program of one write and one read, from power-on. -/
def hostState : State :=
  State.powerOn Config.default [] [w32 .arg0 0x100, r32 .arg0 0] [.host, .host, .host, .engine]

/-- A host whose next statement is a branch, from power-on. -/
def branchState : State := State.powerOn Config.default [] [.bnz 0 1 (-1)] [.host]

theorem witness_StepRunsOneAccess :
    (hostState.turn = .host ∧ hostState.host.prog[hostState.host.pos]? = some (.store 0x030 4 0x100))
      ∧ ((nextOf (step hostState)).turn = .host
        ∧ (nextOf (step hostState)).host.prog[(nextOf (step hostState)).host.pos]? = some (.load 0x030 4 0))
      ∧ ((nextOf (hostState.nextTurn |> fun s => step (nextOf (step s)))).turn = .engine
        ∧ (nextOf (hostState.nextTurn |> fun s => step (nextOf (step s)))).latch.busy = false)
      ∧ (branchState.turn = .host ∧ branchState.host.prog[branchState.host.pos]? = some (.bnz 0 1 (-1)))
      ∧ (State.reset.turn = .host ∧ State.reset.host.prog[State.reset.host.pos]? = none) := by decide +kernel

theorem witness_CommandWordAcceptance :
    (inFlight 0x00000000 [] 0 0 0).latch.busy = true ∧ State.reset.latch.busy = false := by decide +kernel

/-- The hypotheses of `EveryCommandReports`, `CommandsReportListedCodes` and `OnlyOwnersWriteState`. -/
theorem witness_commands_answer :
    ∃ t, exec .encRecovery stateAB = .next t ∧ t.regs.result = .success ∧ t.regs.res2.extractLsb' 16 16 = 0 :=
  ⟨_, eq_next_of_isNext (by decide +kernel), by decide +kernel, by decide +kernel⟩

/-- The hypotheses of `FailedCommandsOnlyReport` and of the second clause of `WriteSetBoundsWrites`. -/
theorem witness_FailedCommandsOnlyReport :
    ∃ t, exec .solve (inFlight 0x20 memDeficient 0x600 0 0) = .next t ∧ t.regs.result ≠ .success :=
  ⟨_, eq_next_of_isNext (by decide +kernel), by decide +kernel⟩

/-- `WriteSetBoundsWrites`: a success, with an offset inside and one outside the write set. -/
theorem witness_WriteSetBoundsWrites :
    ∃ t, exec (.mulMem 0x53) (inFlight 0x5309 memM 0x30 0x20 4) = .next t ∧ t.regs.result = .success
      ∧ 0x34 ∉ writeSet (.mulMem 0x53) (inFlight 0x5309 memM 0x30 0x20 4)
      ∧ 0x33 ∈ writeSet (.mulMem 0x53) (inFlight 0x5309 memM 0x30 0x20 4) :=
  ⟨_, eq_next_of_isNext (by decide +kernel), by decide +kernel, by decide +kernel, by decide +kernel⟩

/-- The hypotheses of `ProductIsReducedPolynomial`, `FieldLawsHold` and `InverseIsUnique`. -/
theorem witness_field :
    (0x14D : BitVec 9).getLsbD 8 = true ∧ (0x101 : BitVec 9).getLsbD 8 = true ∧ primitive 0x14D = true
      ∧ primitive 0x11D = true ∧ (0x02 : Byte) ≠ 0 ∧ gfMul 0x14D 0x02 0xA6 = 1 := by decide +kernel

theorem witness_EachRowHasOneDegenerateColumn :
    den Config.default 0x80 0x00 = 0 ∧ den Config.default 0xFF 0x7F = 0 ∧ den Config.default 0x80 0x01 ≠ 0 := by
  decide +kernel

/-- The hypothesis on the parameters of `GfDivReportsQuotient`, `GfCauchyReportsCoefficient` and `IdentityRegistersRead`,
and the operands of each clause. -/
theorem witness_scalars :
    State.reset.cfg.wf = true ∧ (0xCA : Byte) ≠ 0
      ∧ (0x80 : Byte) = 0x00 + State.reset.cfg.cauchyOffset ∧ (0x80 : Byte) ≠ 0x01 + State.reset.cfg.cauchyOffset
      ∧ (0xFF : Byte) = 0x7F + State.reset.cfg.cauchyOffset := by decide +kernel

/-- The hypotheses of `MulAddMemFollowsAscendingLoop` and `MulMemFollowsAscendingLoop`: a range one byte past the end, the
last range that fits, and n = 0 beyond PMEM. -/
theorem witness_bulk :
    ((4 : Nat) ≠ 0 ∧ State.reset.cfg.pmemBytes < 0xFFFD + 4) ∧ memM.wf = true
      ∧ (0xFFFC + 4 ≤ State.reset.cfg.pmemBytes ∧ 0x20 + 4 ≤ State.reset.cfg.pmemBytes)
      ∧ (inFlight 0x5309 memM 0xFFFC 0x20 4).latch.larg0.toNat = 0xFFFC
      ∧ (inFlight 0x5309 memM 0xFFFC 0x20 4).latch.larg1.toNat = 0x20
      ∧ (inFlight 0x5309 memM 0xFFFC 0x20 4).latch.larg2.toNat = 4
      ∧ (inFlight 0x5309 memM 0x20000 0x30000 0).latch.larg2.toNat = 0 := by decide +kernel

/-- GEN_ROW over "A" and "B" with an output range that ends at the end of PMEM. -/
theorem witness_GenRowWritesRowPayload :
    GenRowRuns 0x01 (inFlight 0x110 memAB 0xFFFD 0x300 2) 0xFFFD 0x300 2 3
      ∧ (inFlight 0x110 memAB 0xFFFD 0x300 2).cfg.wf = true ∧ (inFlight 0x110 memAB 0xFFFD 0x300 2).pmem.wf = true :=
  ⟨⟨by decide +kernel, by decide +kernel, by decide +kernel, by decide +kernel, by decide +kernel, by decide +kernel,
    by decide +kernel, by decide +kernel, by decide +kernel, ⟨by decide +kernel, 0, by decide +kernel⟩, by decide +kernel⟩,
    by decide +kernel, by decide +kernel⟩

/-- The first clause of `GenRowReportsFirstFailure` at the bounds of n, a list one byte too long, a sequence out of place
and a payload out of range. -/
theorem witness_GenRowReportsFirstFailure_invalid :
    (0 < 1 ∧ State.reset.cfg.maxCols < 17 ∧ State.reset.cfg.pmemBytes < 0xFFF1 + 16 * 1)
      ∧ (∃ k, k < 2 ∧ (odescAt (memOf [(0x310, odescOf 5 0x101 1)]) (0x300 + 16 * k)).seq
        ≠ (odescAt (memOf [(0x310, odescOf 5 0x101 1)]) 0x300).seq + BitVec.ofNat 64 k)
      ∧ ∃ k, k < 1 ∧ (odescAt (memOf [(0x300, odescOf 0 0x100 1025)]) (0x300 + 16 * k)).payloadOk Config.default = false := by
  decide +kernel

/-- The second and the third clause of `GenRowReportsFirstFailure`: the degenerate column of V-E3, and an output range one
byte past the end. -/
theorem witness_GenRowReportsFirstFailure :
    ((inFlight 0x110 memE3 0x400 0x700 2).latch.larg1.toNat = 0x700
      ∧ 0x700 + 16 * 2 ≤ State.reset.cfg.pmemBytes
      ∧ (∀ k, k < 2 → (odescAt memE3 (0x700 + 16 * k)).seq = (odescAt memE3 0x700).seq + BitVec.ofNat 64 k)
      ∧ (∀ k, k < 2 → (odescAt memE3 (0x700 + 16 * k)).payloadOk State.reset.cfg = true)
      ∧ ∃ k, k < 2 ∧ 0x01 = columnAt State.reset.cfg (odescAt memE3 (0x700 + 16 * k)).seq.toNat)
    ∧ ((inFlight 0x110 memAB 0xFFFE 0x300 2).latch.larg0.toNat = 0xFFFE
      ∧ 0x300 + 16 * 2 ≤ State.reset.cfg.pmemBytes
      ∧ (∀ k, k < 2 → (odescAt memAB (0x300 + 16 * k)).seq = (odescAt memAB 0x300).seq + BitVec.ofNat 64 k)
      ∧ (∀ k, k < 2 → (odescAt memAB (0x300 + 16 * k)).payloadOk State.reset.cfg = true)
      ∧ (∀ k, k < 2 → 0x01 ≠ columnAt State.reset.cfg (odescAt memAB (0x300 + 16 * k)).seq.toNat)
      ∧ (∀ k, k < 2 → (odescAt memAB (0x300 + 16 * k)).len.toNat + 2 = 3)
      ∧ State.reset.cfg.pmemBytes < 0xFFFE + 3) := by
  decide +kernel

theorem witness_ParityPayloadIsPlainXor : 3 < outLen (odescList memE2 0x300 3) := by decide +kernel

/-- `EncOriginalAppendsSlot`: a payload one byte too long, one that ends past PMEM, and one that ends at its end, appended
after two originals. -/
theorem witness_EncOriginalAppendsSlot :
    (State.reset.cfg.maxPayload < 1025 ∧ ((2 : Nat) ≠ 0 ∧ State.reset.cfg.pmemBytes < 0xFFFF + 2))
      ∧ ({ stateAB with latch := (inFlight 0x11 [] 0xFC00 1024 0).latch }.latch.larg0.toNat = 0xFC00
        ∧ { stateAB with latch := (inFlight 0x11 [] 0xFC00 1024 0).latch }.latch.larg1.toNat = 1024
        ∧ stateAB.cfg.wf = true ∧ stateAB.enc.Ok stateAB.cfg ∧ 1024 ≤ stateAB.cfg.maxPayload
        ∧ 0xFC00 + 1024 ≤ stateAB.cfg.pmemBytes) :=
  ⟨by decide +kernel, by decide +kernel, by decide +kernel, by decide +kernel, stateAB_encoder_ok, by decide +kernel,
    by decide +kernel⟩

/-- `EncRecoveryEmitsPacket` on the fewest originals, with row 0 and an output range that ends at the end of PMEM. -/
theorem witness_EncRecoveryEmitsPacket_parity :
    stateAB.cfg.wf = true ∧ stateAB.pmem.wf = true ∧ stateAB.enc.Ok stateAB.cfg ∧ stateAB.latch.larg0.toNat = 0xFFFD
      ∧ stateAB.enc.count.toNat = 2 ∧ stateAB.enc.newData = true
      ∧ (stateAB.enc.nextSeq.toNat + 2 ^ 64 - 2) % 2 ^ 64 = 0 ∧ chosenRow stateAB.enc 0 = 0
      ∧ LongestPrefixed 2 (liveSlot stateAB.cfg stateAB.enc) 3 ∧ 0xFFFD + 3 ≤ stateAB.cfg.pmemBytes :=
  ⟨by decide +kernel, by decide +kernel, stateAB_encoder_ok, by decide +kernel, by decide +kernel, by decide +kernel,
    by decide +kernel, by decide +kernel, ⟨by decide +kernel, 0, by decide +kernel⟩, by decide +kernel⟩

/-- `EncRecoveryEmitsPacket` with a Cauchy row. -/
theorem witness_EncRecoveryEmitsPacket_cauchy :
    stateE7.pmem.wf = true ∧ stateE7.enc.Ok stateE7.cfg ∧ stateE7.enc.count.toNat = 11 ∧ stateE7.enc.newData = true
      ∧ (stateE7.enc.nextSeq.toNat + 2 ^ 64 - 11) % 2 ^ 64 = 0 ∧ chosenRow stateE7.enc 0 = 1
      ∧ (∀ j, j < 11 → 1 ≠ columnAt stateE7.cfg (liveSlot stateE7.cfg stateE7.enc j).seq.toNat)
      ∧ LongestPrefixed 11 (liveSlot stateE7.cfg stateE7.enc) 3 :=
  ⟨by decide +kernel, encoder_ok (by decide +kernel), by decide +kernel, by decide +kernel, by decide +kernel,
    by decide +kernel, by decide +kernel, ⟨by decide +kernel, 0, by decide +kernel⟩⟩

/-- An encoder whose next Cauchy row, 0x80, meets its degenerate column 0 at the oldest original. -/
def degenerateEncoder : Encoder := { encoderOf 2 1 true with nextRow := 0x80 }

/-- `EncRecoveryReportsFirstFailure`: COUNT = 1, NEW_DATA = 0, a degenerate column, and an output range one byte past the
end. -/
theorem witness_EncRecoveryReportsFirstFailure :
    ((encoderOf 1 0 true).Ok Config.default ∧ (encoderOf 1 0 true).count.toNat < 2)
      ∧ ((encoderOf 2 2 false).Ok Config.default ∧ (encoderOf 2 2 false).newData = false)
      ∧ (degenerateEncoder.Ok Config.default ∧ chosenRow degenerateEncoder 0 = 0x80
        ∧ ∃ j, j < 2 ∧ 0x80 = columnAt Config.default (liveSlot Config.default degenerateEncoder j).seq.toNat)
      ∧ Config.default.pmemBytes < 0xFFFE + 3 :=
  ⟨⟨encoder_ok (by decide +kernel), by decide +kernel⟩, ⟨encoder_ok (by decide +kernel), by decide +kernel⟩,
    ⟨encoder_ok (by decide +kernel), by decide +kernel, by decide +kernel⟩, by decide +kernel⟩

theorem witness_ColumnByteIsSequenceByte : stateE7.enc.Ok stateE7.cfg ∧ 10 < stateE7.enc.count.toNat :=
  ⟨encoder_ok (by decide +kernel), by decide +kernel⟩

theorem witness_EncRecoveryEqualsGenRow :
    ∃ t, stateAB.enc.Ok stateAB.cfg ∧ stateAB.pmem.wf = true
      ∧ 0x300 + 16 * stateAB.enc.count.toNat ≤ stateAB.cfg.pmemBytes
      ∧ stateAB.latch.larg1.toNat = 0x300 ∧ stateAB.latch.larg2.toNat = stateAB.enc.count.toNat
      ∧ (∀ k, k < stateAB.enc.count.toNat → ∀ b, b < 16 →
        stateAB.pmem.read (0x300 + 16 * k + b) = (odescBytes (liveSlot stateAB.cfg stateAB.enc k)).getD b 0)
      ∧ exec .encRecovery stateAB = .next t ∧ t.regs.result = .success :=
  ⟨_, stateAB_encoder_ok, by decide +kernel, by decide +kernel, by decide +kernel, by decide +kernel, by decide +kernel,
    eq_next_of_isNext (by decide +kernel), by decide +kernel⟩

/-- `ParitySlicesAreDisjoint`: ENC_RESET changes NextParitySequence, a parity recovery and a Cauchy recovery. -/
theorem witness_ParitySlicesAreDisjoint :
    (nextOf (exec .encReset stateE7)).enc.nextParity ≠ stateE7.enc.nextParity
      ∧ ((nextOf (exec .encRecovery stateAB)).regs.result = .success
        ∧ (nextOf (exec .encRecovery stateAB)).regs.res2.extractLsb' 16 16 = 0)
      ∧ ((nextOf (exec .encRecovery stateE7)).regs.result = .success
        ∧ (nextOf (exec .encRecovery stateE7)).regs.res2.extractLsb' 16 16 ≠ 0) := by decide +kernel

theorem witness_RingFollowsSequence :
    ∃ t, stateAB.Inv ∧ step stateAB = .next t ∧ stateAB.enc.nextSeq.toNat < 2 ^ 64 - 1
      ∧ stateAB.enc.cursor.toNat = stateAB.enc.nextSeq.toNat % stateAB.cfg.encWindow
      ∧ stateAB.enc.count.toNat = min stateAB.enc.nextSeq.toNat stateAB.cfg.encWindow :=
  ⟨_, stateAB_inv, eq_next_of_isNext (by decide +kernel), by decide +kernel, by decide +kernel, by decide +kernel⟩

/-- Two live originals and an ENC_ORIGINAL of length 0 in flight, with ADDR at the end of PMEM. -/
def emptyOriginal : State := { inFlight 0x11 [] 0x10000 0 0 with enc := encoderOf 2 0 true }

/-- `EmptyOriginalMayLieAnywhere`: an empty original at the greatest ADDR, and a step from a state whose slots lie in PMEM. -/
theorem witness_EmptyOriginalMayLieAnywhere :
    ((inFlight 0x11 [] 0xFFFFFFFF 0 0).latch.larg0 = 0xFFFFFFFF ∧ (inFlight 0x11 [] 0xFFFFFFFF 0 0).latch.larg1 = 0
        ∧ State.reset.cfg.pmemBytes < 0xFFFFFFFF)
      ∧ ∃ t, emptyOriginal.Inv ∧ emptyOriginal.enc.SlotsInPmem emptyOriginal.cfg ∧ step emptyOriginal = .next t
        ∧ decode emptyOriginal.latch.lcmd = .command .encOriginal ∧ emptyOriginal.latch.larg1 = 0
        ∧ emptyOriginal.latch.larg0.toNat ≤ emptyOriginal.cfg.pmemBytes :=
  ⟨by decide +kernel, _, state_inv (encoder_ok (by decide +kernel)) (by decide +kernel),
    by unfold Encoder.SlotsInPmem; decide +kernel, eq_next_of_isNext (by decide +kernel), by decide +kernel,
    by decide +kernel, by decide +kernel⟩

/-- `SolveReportsFirstFailure`, the header checks at their bounds: D + 8 past the end, C = 0, C = 17, R < C, R = 33, and a
problem one byte past the end. -/
theorem witness_SolveReportsFirstFailure_header :
    ¬HeaderChecks Config.default 0xFFF9 1 1 0 ∧ ¬HeaderChecks Config.default 0x600 1 0 1
      ∧ ¬HeaderChecks Config.default 0x600 17 17 0 ∧ ¬HeaderChecks Config.default 0x600 1 2 0
      ∧ ¬HeaderChecks Config.default 0x600 33 1 0 ∧ ¬HeaderChecks Config.default 0xFFC1 1 1 1
      ∧ HeaderChecks Config.default 0xFFC0 1 1 1 := by
  refine ⟨fun h => ?_, fun h => ?_, fun h => ?_, fun h => ?_, fun h => ?_, fun h => ?_,
    ⟨by decide +kernel, by decide +kernel, by decide +kernel⟩⟩
  · exact absurd h.check1 (by decide +kernel)
  · exact absurd h.check2 (by decide +kernel)
  · exact absurd h.check2 (by decide +kernel)
  · exact absurd h.check2 (by decide +kernel)
  · exact absurd h.check2 (by decide +kernel)
  · exact absurd h.check3 (by decide +kernel)

/-- The form checks on the problem of one row over [0, 2) with one lost and one received sequence. -/
theorem formChecks_lostB : FormChecks Config.default memLostB 0x600 1 1 1 where
  check4 := by decide +kernel
  check5 := by
    refine ⟨by omega, fun j hj => ⟨0, by decide, ?_⟩⟩
    obtain rfl : j = 0 := by omega
    exact ⟨by decide +kernel, by decide +kernel⟩
  check6 := by
    refine ⟨by omega, fun k hk => ?_⟩
    obtain rfl : k = 0 := by omega
    exact ⟨⟨0, by decide, by decide +kernel, by decide +kernel⟩, by decide +kernel, by decide +kernel, by decide +kernel⟩
  check7 := by
    rintro q ⟨i, hi, -, h2⟩
    obtain rfl : i = 0 := by omega
    have hs : startOf memLostB 0x600 0 + countOf memLostB 0x600 0 = 2 := by decide +kernel
    have hl : lostOf memLostB 0x600 1 0 = 1 := by decide +kernel
    have hr : receivedOf memLostB 0x600 1 1 0 = 0 := by decide +kernel
    have : q = 0 ∨ q = 1 := by omega
    exact this.elim (fun h => .inr ⟨0, by decide, by omega⟩) fun h => .inl ⟨0, by decide, by omega⟩
  check8 := by
    intro i k hi hk _
    obtain rfl : i = 0 := by omega
    obtain rfl : k = 0 := by omega
    decide +kernel

/-- A problem at 0x600 of one row, row 1 over sequence 0x81 alone, which is lost: its coefficient is degenerate. -/
def memDegenerate : Memory :=
  memOf [(0x400, [0x01, 0x00, 0x42]), (0x600, [1, 0, 1, 0, 0, 0, 0, 0]),
    (0x608, [0x81, 0, 0, 0, 0, 0, 0, 0, 1, 0, 1, 0, 0x00, 4, 0, 0, 3, 0, 0, 0, 0, 0, 0, 0]),
    (0x620, [0x81, 0, 0, 0, 0, 0, 0, 0, 0, 5, 0, 0, 0, 0, 0, 0])]

/-- `SolveReportsFirstFailure`, the checks of the third clause, on the single loss. -/
theorem witness_SolveReportsFirstFailure_none :
    HeaderChecks Config.default 0x600 1 1 1 ∧ FormChecks Config.default memLostB 0x600 1 1 1
      ∧ CoefCheck Config.default memLostB 0x600 1
      ∧ memLostB.readLE 0x600 2 = 1 ∧ memLostB.readLE 0x602 2 = 1 ∧ memLostB.readLE 0x604 2 = 1 := by
  refine ⟨⟨by decide +kernel, by decide +kernel, by decide +kernel⟩, formChecks_lostB, fun i q hi h => absurd ?_ h,
    by decide +kernel, by decide +kernel, by decide +kernel⟩
  obtain rfl : i = 0 := by omega
  decide +kernel

/-- `SolveReportsFirstFailure`, the first clause at a lost sequence outside U, with the header checks met. -/
theorem witness_SolveReportsFirstFailure_form :
    HeaderChecks Config.default 0x600 1 1 1 ∧ ¬FormChecks Config.default (memLostB.write 0x620 0x02) 0x600 1 1 1 := by
  refine ⟨⟨by decide +kernel, by decide +kernel, by decide +kernel⟩, fun h => ?_⟩
  obtain ⟨i, hi, -, h2⟩ := h.check5.2 0 (by decide)
  obtain rfl : i = 0 := by omega
  exact absurd h2 (by decide +kernel)

/-- `SolveReportsFirstFailure`, the second clause. -/
theorem witness_SolveReportsFirstFailure_degenerate :
    HeaderChecks Config.default 0x600 1 1 0 ∧ FormChecks Config.default memDegenerate 0x600 1 1 0
      ∧ ¬CoefCheck Config.default memDegenerate 0x600 1 := by
  refine ⟨⟨by decide +kernel, by decide +kernel, by decide +kernel⟩, ⟨by decide +kernel, ⟨by omega, ?_⟩,
    ⟨by omega, by omega⟩, ?_, by omega⟩, fun h => ?_⟩
  · intro j hj
    obtain rfl : j = 0 := by omega
    exact ⟨0, by decide, by decide +kernel, by decide +kernel⟩
  · rintro q ⟨i, hi, h1, h2⟩
    obtain rfl : i = 0 := by omega
    have hs : startOf memDegenerate 0x600 0 = 0x81 := by decide +kernel
    have hc : countOf memDegenerate 0x600 0 = 1 := by decide +kernel
    have hl : lostOf memDegenerate 0x600 1 0 = 0x81 := by decide +kernel
    exact .inl ⟨0, by decide, by omega⟩
  · exact absurd (h 0 0x81 (by decide) (by decide +kernel) ⟨by decide +kernel, by decide +kernel⟩) (by decide +kernel)

/-- `RankDeficiencyIsCounted`, both sides: the columns of two equal rows are dependent, each times the other's entry. -/
theorem witness_RankDeficiencyIsCounted :
    Config.default.wf = true ∧ memDeficient.readLE 0x600 2 = 2 ∧ memDeficient.readLE 0x602 2 = 2
      ∧ solveFailure Config.default memDeficient 0x600 = none
      ∧ (problemAt memDeficient 0x600).solution Config.default memDeficient = none
      ∧ DependentColumns Config.default.gfPoly (matrixAt Config.default memDeficient 0x600 2) 2 2 :=
  ⟨by decide +kernel, by decide +kernel, by decide +kernel, by decide +kernel, by decide +kernel,
    fun j => matrixAt Config.default memDeficient 0x600 2 0 (1 - j), ⟨0, by decide, by decide +kernel⟩, by decide +kernel⟩

/-- The recovered prefixed payloads and the pivots of V-S5. -/
theorem witness_solution_of_S5 :
    solveFailure Config.default memS5 0x600 = none
      ∧ (problemAt memS5 0x600).solution Config.default memS5
        = some ([bytesOf [3, 0, 0x63, 0x63, 0x63, 0], bytesOf [1, 0, 0x67, 0, 0, 0]], [1, 0]) := by decide +kernel

/-- `SolveWritesBack` and `SingleLossIsOneDivision` on V-S5. -/
theorem witness_SolveWritesBack :
    Config.default.wf = true ∧ memS5.wf = true ∧ LongestRow memS5 0x600 (memS5.readLE 0x600 2) 6
      ∧ memS5.readLE 0x602 2 = 2
      ∧ ∀ j, j < 2 →
        storedLen ([bytesOf [3, 0, 0x63, 0x63, 0x63, 0], bytesOf [1, 0, 0x67, 0, 0, 0]].getD j []) + 2 ≤ 6
        ∧ dstOf memS5 0x600 (memS5.readLE 0x600 2) j
            + storedLen ([bytesOf [3, 0, 0x63, 0x63, 0x63, 0], bytesOf [1, 0, 0x67, 0, 0, 0]].getD j [])
          ≤ Config.default.pmemBytes :=
  ⟨by decide +kernel, by decide +kernel, ⟨by decide +kernel, 0, by decide +kernel, by decide +kernel⟩, by decide +kernel,
    by decide +kernel⟩

/-- `SolveWritesBack` on a slot that ends at the end of PMEM. -/
theorem witness_SolveWritesBack_last :
    memLostB.wf = true ∧ solveFailure Config.default memLostB 0x600 = none
      ∧ (problemAt memLostB 0x600).solution Config.default memLostB = some ([bytesOf [1, 0, 0x42]], [0])
      ∧ LongestRow memLostB 0x600 1 3 ∧ storedLen (bytesOf [1, 0, 0x42]) + 2 ≤ 3
      ∧ dstOf memLostB 0x600 1 0 + storedLen (bytesOf [1, 0, 0x42]) = Config.default.pmemBytes :=
  ⟨by decide +kernel, by decide +kernel, by decide +kernel, ⟨by decide +kernel, 0, by decide +kernel, by decide +kernel⟩,
    by decide +kernel, by decide +kernel⟩

/-- In the matrix M of V-S5 row 0 has no entry in column 0 and row 1 has one, so the first pivot is row 1. -/
theorem test_pivot_of_S5 :
    matrixAt Config.default memS5 0x600 (memS5.readLE 0x600 2) 0 0 = 0
      ∧ matrixAt Config.default memS5 0x600 (memS5.readLE 0x600 2) 1 0 ≠ 0 := by decide +kernel

/-- `SolveRefusesBadPrefix`: a prefix that says 2 bytes where S = 3, and a slot one byte past the end. -/
theorem witness_SolveRefusesBadPrefix :
    (solveFailure Config.default (memLost [3, 0, 3] [0, 5, 0, 0]) 0x600 = none
      ∧ (problemAt (memLost [3, 0, 3] [0, 5, 0, 0]) 0x600).solution Config.default (memLost [3, 0, 3] [0, 5, 0, 0])
        = some ([bytesOf [2, 0, 0x42]], [0])
      ∧ LongestRow (memLost [3, 0, 3] [0, 5, 0, 0]) 0x600 1 3 ∧ 3 < storedLen (bytesOf [2, 0, 0x42]) + 2)
    ∧ (solveFailure Config.default (memLost [0, 0, 3] [0, 0, 1, 0]) 0x600 = none
      ∧ (problemAt (memLost [0, 0, 3] [0, 0, 1, 0]) 0x600).solution Config.default (memLost [0, 0, 3] [0, 0, 1, 0])
        = some ([bytesOf [1, 0, 0x42]], [0])
      ∧ LongestRow (memLost [0, 0, 3] [0, 0, 1, 0]) 0x600 1 3
      ∧ Config.default.pmemBytes
        < dstOf (memLost [0, 0, 3] [0, 0, 1, 0]) 0x600 1 0 + storedLen (bytesOf [1, 0, 0x42])) :=
  ⟨⟨by decide +kernel, by decide +kernel, ⟨by decide +kernel, 0, by decide +kernel, by decide +kernel⟩, by decide +kernel⟩,
    by decide +kernel, by decide +kernel, ⟨by decide +kernel, 0, by decide +kernel, by decide +kernel⟩, by decide +kernel⟩

/-- V-S2's working rows after EliminateOriginals: "M after forward elimination = [01 01; 00 E0]". -/
theorem witness_ForwardEliminationIsTriangular :
    (forwardEliminate 0x14D (List.range 2)
      [⟨bytesOf [0x01, 0x01], bytesOf [0x00, 0x00, 0x0C]⟩, ⟨bytesOf [0xB2, 0x52], bytesOf [0xE0, 0x00, 0x1C]⟩] []).map
        (fun r => (r.1.map WorkRow.coefs, r.2))
      = some ([bytesOf [0x01, 0x01], bytesOf [0x00, 0xE0]], [0, 1]) := by decide +kernel

/-- V-S7's working rows: two equal rows, so that column 1 has no pivot, and a combination of the columns that is 0. -/
theorem witness_ForwardEliminationIsTriangular_none :
    forwardEliminate 0x14D (List.range 2) [⟨bytesOf [0xB2, 0x52], []⟩, ⟨bytesOf [0xB2, 0x52], []⟩] [] = none
      ∧ gfMul 0x14D 0xB2 0x52 ^^^ gfMul 0x14D 0x52 0xB2 = 0 := by decide +kernel

/-- The prefixed originals of V-S5: sequence 2 is "ccc" and sequence 6 is "g", and the others are in PMEM. -/
def originalsS5 (q b : Nat) : Byte :=
  if q = 2 then (bytesOf [3, 0, 0x63, 0x63, 0x63]).getD b 0
  else if q = 6 then (bytesOf [1, 0, 0x67]).getD b 0
  else prefixed memS5 (0x100 + 8 * q) (([1, 2, 3, 0, 1, 2, 1, 4] : List Nat).getD q 0) b

theorem witness_SolveRecoversOriginals :
    Config.default.wf = true ∧ (problemAt memS5 0x600).failure Config.default = none
      ∧ Consistent Config.default memS5 (problemAt memS5 0x600) originalsS5 :=
  ⟨by decide +kernel, by decide +kernel, ⟨by decide +kernel, by decide +kernel⟩⟩

theorem witness_SingleLossIsOneDivision :
    ∃ r c, (problemAt memLostB 0x600).rows = [r] ∧ (problemAt memLostB 0x600).cols = [c]
      ∧ (problemAt memLostB 0x600).failure Config.default = none :=
  ⟨rowEntryAt memLostB 0x608, colEntryAt memLostB 0x620, by decide +kernel, by decide +kernel, by decide +kernel⟩

theorem witness_StatusReadsItsFields : ∃ w, busRead stateAB 0x024 4 = .ok w := ⟨_, rfl⟩

/-- `UnlistedAndReadOnlyOffsets`: the last offset of the region is unlisted, SLV_LOWEST_HI is read-only. -/
theorem witness_UnlistedAndReadOnlyOffsets :
    (0xFFC < 0x1000 ∧ 0xFFC % 4 = 0 ∧ 0xFFC ∉ mappedOffsets)
      ∧ (0x078 % 4 = 0 ∧ 0x078 ∈ mappedOffsets ∧ 0x078 ∉ [0x020, 0x024, 0x028, 0x030, 0x034, 0x038]) := by
  decide +kernel

theorem witness_StatusWriteClearsFlags :
    (0x2 : Word).getLsbD 1 = true ∧ (0x2 : Word).getLsbD 2 = false ∧ (0x4 : Word).getLsbD 1 = false
      ∧ (0x4 : Word).getLsbD 2 = true ∧ (0x1 : Word).getLsbD 1 = false ∧ (0x0 : Word).getLsbD 1 = false := by decide +kernel

/-- `PmemAccessRefusedWhileBusy` and `HostMemoryIsLittleEndian` on the last word of PMEM, busy and idle. -/
theorem witness_host_memory :
    0xFFFC % 4 = 0 ∧ 0xFFFC + 4 ≤ stateAB.cfg.pmemBytes ∧ stateAB.cfg.pmemBytes ≤ 0x100000 ∧ stateAB.latch.busy = true
      ∧ 0xFFFC + 4 ≤ State.reset.cfg.pmemBytes ∧ State.reset.latch.busy = false ∧ State.reset.pmem.wf = true
      ∧ 2 % 2 = 0 ∧ 2 + 2 ≤ 4 := by
  decide +kernel

theorem witness_ReadsHaveNoSideEffect :
    ∃ t, (nextOf (step hostState)).turn = .host
      ∧ (nextOf (step hostState)).host.prog[(nextOf (step hostState)).host.pos]? = some (.load 0x030 4 0)
      ∧ step (nextOf (step hostState)) = .next t :=
  ⟨_, by decide +kernel, by decide +kernel, eq_next_of_isNext (by decide +kernel)⟩

/-- `CompletionAndAcknowledgeInEitherOrder`: a command in flight and the host about to acknowledge, in each order. -/
def acknowledging (order : List Turn) : State :=
  { inFlight 0x00CA5302 [] 0 0 0 with host := { HostAgent.idle with prog := [w32 .status 2] }, sched := order }

theorem witness_CompletionAndAcknowledgeInEitherOrder :
    (acknowledging [.host, .engine]).latch.busy = true
      ∧ (acknowledging [.host, .engine]).host.prog[(acknowledging [.host, .engine]).host.pos]? = some (.store 0x024 4 2)
      ∧ (acknowledging [.host, .engine]).sched = [.host, .engine]
      ∧ (acknowledging [.engine, .host]).sched = [.engine, .host] := by decide +kernel

/-- `SoftResetKeepsPmem`: an idle block, an illegal word, and a bulk command in flight with a byte inside and one outside its
write set. -/
theorem witness_SoftResetKeepsPmem :
    ((0x3 : Word).getLsbD 1 = true ∧ memM.wf = true ∧ (withArgs memM 0 0 0).latch.busy = false)
      ∧ decode (inFlight 0x105 memM 0 0 0).latch.lcmd = .illegal .undefinedOpcode
      ∧ ((inFlight 0x208 memM 0x10 0x20 4).latch.busy = true
        ∧ decode (inFlight 0x208 memM 0x10 0x20 4).latch.lcmd = .command (.muladdMem 2)
        ∧ 0x13 ∈ writeSet (.muladdMem 2) (inFlight 0x208 memM 0x10 0x20 4)
        ∧ 0x14 ∉ writeSet (.muladdMem 2) (inFlight 0x208 memM 0x10 0x20 4)) := by decide +kernel

theorem witness_HardwareResetDrawsPmem :
    { stateAB with sched := [.hwReset] }.turn = .hwReset ∧ 0xFFFF < stateAB.cfg.pmemBytes := by decide +kernel

/-- The hypotheses of `StepKeepsInvariant` and `StepKeepsConfiguration`. -/
theorem witness_StepKeepsInvariant : ∃ t, stateAB.Inv ∧ step stateAB = .next t :=
  ⟨_, stateAB_inv, eq_next_of_isNext (by decide +kernel)⟩

theorem witness_PowerOnMeetsInvariant :
    Config.default.wf = true ∧ memAB.wf = true ∧ memAB.within Config.default.pmemBytes = true := by decide +kernel

end Sys2Proof.Tests
end

section
/-! SUPPORT and the statements of 10_state.md on STATUS, ID and the PARAM registers: what a host read of a mapped register
answers, the fields of the words STATUS and PARAM4, and what legal parameters are. -/

namespace Sys2Proof.Machine

/-! Host reads of the register region. -/

/-- The map has each register once (10_state.md R23). -/
@[simp] theorem regAt_regOffset (r : RegName) : regAt (regOffset r) = some r := by
  cases r <;> rfl

theorem regOffset_lt (r : RegName) : regOffset r < regRegionBytes := by
  cases r <;> decide

theorem regOffset_aligned (r : RegName) : regOffset r % 4 = 0 := by
  cases r <;> rfl

/-- A 32-bit aligned access in the register region is no bus error (20_memory.md R61). -/
theorem target_of_aligned (cfg : Config) {off : Nat} (hlt : off < regRegionBytes) (hal : off % 4 = 0) :
    target cfg off 4 = .register off := by
  simp [target, hlt, hal]

/-- `busRead` in the register region; the map need not list the offset. -/
theorem busRead_of_aligned (s : State) {off : Nat} (hlt : off < regRegionBytes) (hal : off % 4 = 0) :
    busRead s off 4 = .ok (readOffset s off) := by
  simp only [busRead, target_of_aligned s.cfg hlt hal]

@[simp] theorem readOffset_regOffset (s : State) (r : RegName) : readOffset s (regOffset r) = regRead s r := by
  simp only [readOffset, regAt_regOffset]

/-- A host read of a mapped register answers the register's value, in every state. -/
theorem busRead_regOffset (s : State) (r : RegName) : busRead s (regOffset r) 4 = .ok (regRead s r) := by
  rw [busRead_of_aligned s (regOffset_lt r) (regOffset_aligned r), readOffset_regOffset]

/-! Fields of a register word. A word is the bitwise OR of fields, each a narrower value shifted to its place; a field is
read back where it stands, and adds only zeros elsewhere. -/

/-- A field reads back at its own place. -/
theorem extractLsb'_field {v : Nat} (x : BitVec v) {k : Nat} (h : k + v ≤ 32) :
    (x.setWidth 32 <<< k).extractLsb' k v = x := by
  ext i hi
  simp [hi, show k + i < 32 by omega]

/-- A field is 0 at every place that it does not reach. -/
theorem extractLsb'_field_disjoint {v : Nat} (x : BitVec v) {k st n : Nat} (h : st + n ≤ k ∨ k + v ≤ st) :
    (x.setWidth 32 <<< k).extractLsb' st n = 0 := by
  ext i hi
  obtain hbelow | habove := h
  · simp [show st + i < k by omega]
  · simp [BitVec.getLsbD_of_ge x (st + i - k) (by omega)]

/-- The field in the low bits reads back there. -/
theorem extractLsb'_lowField {v : Nat} (x : BitVec v) (h : v ≤ 32) : (x.setWidth 32).extractLsb' 0 v = x := by
  simpa using extractLsb'_field x (k := 0) (by omega)

/-- The field in the low bits is 0 above them. -/
theorem extractLsb'_lowField_above {v : Nat} (x : BitVec v) {st n : Nat} (h : v ≤ st) :
    (x.setWidth 32).extractLsb' st n = 0 := by
  simpa using extractLsb'_field_disjoint x (k := 0) (n := n) (.inr (by omega : 0 + v ≤ st))

/-- A flag's word holds the flag in bit 0 and nothing above it. -/
@[simp] theorem getElem_bitWord (b : Bool) (i : Nat) (hi : i < 32) : (bitWord b)[i] = (decide (i = 0) && b) := by
  simp [bitWord, BitVec.getElem_setWidth]

/-! The word STATUS (10_state.md R31). -/

theorem statusWord_busy (s : State) : (statusWord s).getLsbD 0 = s.latch.busy := by
  simp [statusWord]

theorem statusWord_done (s : State) : (statusWord s).getLsbD 1 = s.regs.done := by
  simp [statusWord]

theorem statusWord_overrun (s : State) : (statusWord s).getLsbD 2 = s.regs.overrun := by
  simp [statusWord]

theorem statusWord_irq (s : State) : (statusWord s).getLsbD 3 = s.irq := by
  simp [statusWord]

/-- Above the flags of bits [3:0], STATUS holds RESULT and LAST_OP alone. -/
theorem extractLsb'_statusWord (s : State) {st n : Nat} (h : 4 ≤ st) :
    (statusWord s).extractLsb' st n =
      (s.regs.result.number.setWidth 32 <<< 8).extractLsb' st n
        ||| (s.regs.lastOp.setWidth 32 <<< 16).extractLsb' st n := by
  simp (disch := omega) [statusWord, bitWord, BitVec.extractLsb'_or, extractLsb'_lowField_above, extractLsb'_field_disjoint]

theorem statusWord_result (s : State) : (statusWord s).extractLsb' 8 4 = s.regs.result.number := by
  simp (disch := omega) [extractLsb'_statusWord, extractLsb'_field, extractLsb'_field_disjoint]

theorem statusWord_lastOp (s : State) : (statusWord s).extractLsb' 16 8 = s.regs.lastOp := by
  simp (disch := omega) [extractLsb'_statusWord, extractLsb'_field, extractLsb'_field_disjoint]

/-- The reserved bits of STATUS, [7:4], [15:12] and [31:24], read 0. -/
theorem statusWord_reserved (s : State) {st n : Nat} (h : 4 ≤ st)
    (hr : st + n ≤ 8 ∨ 12 ≤ st ∧ st + n ≤ 16 ∨ 24 ≤ st) : (statusWord s).extractLsb' st n = 0 := by
  simp (disch := omega) [extractLsb'_statusWord, extractLsb'_field_disjoint]

/-- Settles O44: `busRead` answers the word STATUS, and each of its fields is read off. -/
theorem statusReadsItsFields : Obligations.StatusReadsItsFields := by
  intro s w hw
  obtain rfl : statusWord s = w := Answer.ok.inj ((busRead_regOffset s .status).symm.trans hw)
  exact ⟨statusWord_busy s, statusWord_done s, statusWord_overrun s, statusWord_irq s, statusWord_irq s,
    statusWord_reserved s (by decide) (by decide), statusWord_result s, statusWord_reserved s (by decide) (by decide),
    statusWord_lastOp s, statusWord_reserved s (by decide) (by decide)⟩

/-! Legal parameters (00_scope.md R7) and the PARAM registers (10_state.md R25 to R29). -/

/-- What the check of the parameters says, constraint by constraint. -/
theorem config_wf_iff (cfg : Config) :
    cfg.wf = true ↔
      primitive cfg.gfPoly = true ∧ (2 ≤ cfg.encWindow ∧ cfg.encWindow ≤ cfg.maxCols) ∧ cfg.maxCols ≤ 256
        ∧ (cfg.maxCols ≤ cfg.maxRows ∧ cfg.maxRows ≤ 65535) ∧ (1 ≤ cfg.maxPayload ∧ cfg.maxPayload ≤ 65533)
        ∧ (4096 ≤ cfg.pmemBytes ∧ cfg.pmemBytes ≤ 0x100000) ∧ cfg.pmemBytes % 4 = 0 := by
  simp only [Config.wf, Bool.and_eq_true, decide_eq_true_eq, and_assoc]

/-- A primitive GF_POLY has degree 8 (40_gf256.md R110). -/
theorem getLsbD_of_primitive {poly : BitVec 9} (h : primitive poly = true) : poly.getLsbD 8 = true := by
  simp only [primitive, Bool.and_eq_true] at h
  obtain ⟨⟨hdegree, _⟩, _⟩ := h
  exact hdegree

/-- PARAM0[15:0] is ENC_WINDOW, where the field can hold it (10_state.md R25). -/
theorem param0_encWindow (s : State) (h : s.cfg.encWindow < 2 ^ 16) :
    ((regRead s .param0).extractLsb' 0 16).toNat = s.cfg.encWindow := by
  rw [regRead, BitVec.extractLsb'_append_eq_right, BitVec.toNat_ofNat, Nat.mod_eq_of_lt h]

/-- PARAM0[31:16] is MAX_COLS, where the field can hold it (10_state.md R25). -/
theorem param0_maxCols (s : State) (h : s.cfg.maxCols < 2 ^ 16) :
    ((regRead s .param0).extractLsb' 16 16).toNat = s.cfg.maxCols := by
  rw [regRead, BitVec.extractLsb'_append_eq_left, BitVec.toNat_ofNat, Nat.mod_eq_of_lt h]

/-- PARAM1[15:0] is MAX_ROWS, where the field can hold it (10_state.md R26). -/
theorem param1_maxRows (s : State) (h : s.cfg.maxRows < 2 ^ 16) :
    ((regRead s .param1).extractLsb' 0 16).toNat = s.cfg.maxRows := by
  rw [regRead, extractLsb'_lowField _ (by decide), BitVec.toNat_ofNat, Nat.mod_eq_of_lt h]

theorem param1_reserved (s : State) : (regRead s .param1).extractLsb' 16 16 = 0 :=
  extractLsb'_lowField_above _ (by decide)

/-- PARAM2 is MAX_PAYLOAD, where a word can hold it (10_state.md R27). -/
theorem param2_maxPayload (s : State) (h : s.cfg.maxPayload < 2 ^ 32) :
    (regRead s .param2).toNat = s.cfg.maxPayload := by
  rw [regRead, BitVec.toNat_ofNat, Nat.mod_eq_of_lt h]

/-- PARAM3 is PMEM_BYTES, where a word can hold it (10_state.md R28). -/
theorem param3_pmemBytes (s : State) (h : s.cfg.pmemBytes < 2 ^ 32) :
    (regRead s .param3).toNat = s.cfg.pmemBytes := by
  rw [regRead, BitVec.toNat_ofNat, Nat.mod_eq_of_lt h]

theorem param4_gfPoly (s : State) : (regRead s .param4).extractLsb' 0 9 = s.cfg.gfPoly := by
  simp (disch := omega) [regRead, BitVec.extractLsb'_or, extractLsb'_lowField, extractLsb'_field_disjoint]

theorem param4_degreeBit (s : State) : (regRead s .param4).getLsbD 8 = s.cfg.gfPoly.getLsbD 8 := by
  simp [regRead]

theorem param4_cauchyOffset (s : State) : (regRead s .param4).extractLsb' 16 8 = s.cfg.cauchyOffset := by
  simp (disch := omega) [regRead, BitVec.extractLsb'_or, extractLsb'_lowField_above, extractLsb'_field]

/-- The reserved bits of PARAM4, [15:9] and [31:24], read 0 (10_state.md R29). -/
theorem param4_reserved (s : State) {st n : Nat} (h : 9 ≤ st) (hr : st + n ≤ 16 ∨ 24 ≤ st) :
    (regRead s .param4).extractLsb' st n = 0 := by
  simp (disch := omega) [regRead, BitVec.extractLsb'_or, extractLsb'_lowField_above, extractLsb'_field_disjoint]

/-- Settles O46: the constraints on legal parameters bound each of them by the width of its field. -/
theorem identityRegistersRead : Obligations.IdentityRegistersRead := by
  intro s hwf
  obtain ⟨hpoly, ⟨_, hwindow⟩, hcols, ⟨_, hrows⟩, ⟨_, hpayload⟩, ⟨_, hpmem⟩, _⟩ := (config_wf_iff s.cfg).mp hwf
  refine ⟨_, _, _, _, _, busRead_regOffset s .id,
    busRead_regOffset s .param0, param0_encWindow s ?_, param0_maxCols s ?_,
    busRead_regOffset s .param1, param1_maxRows s ?_, param1_reserved s,
    busRead_regOffset s .param2, param2_maxPayload s ?_,
    busRead_regOffset s .param3, param3_pmemBytes s ?_,
    busRead_regOffset s .param4, param4_gfPoly s, (param4_degreeBit s).trans (getLsbD_of_primitive hpoly),
    param4_reserved s (by decide) (by decide), param4_cauchyOffset s, param4_reserved s (by decide) (by decide)⟩
  all_goals omega

end Sys2Proof.Machine
end

section
/-! SUPPORT and the statement of 30_encoding.md on a write to CMD: what a host write to a mapped register does, and the two
cases of a command word's acceptance. -/

namespace Sys2Proof.Machine

/-! Host writes to the register region. -/

/-- `busWrite` in the register region; the map need not list the offset. -/
theorem busWrite_of_aligned (s : State) (v : Word) {off : Nat} (hlt : off < regRegionBytes) (hal : off % 4 = 0) :
    busWrite s off 4 v = .ok (writeOffset s off v) := by
  simp only [busWrite, target_of_aligned s.cfg hlt hal]

@[simp] theorem writeOffset_regOffset (s : State) (r : RegName) (v : Word) :
    writeOffset s (regOffset r) v = regWrite s r v := by
  simp only [writeOffset, regAt_regOffset]

/-- A host write to a mapped register is answered, in every state, with the effect of the register's own rule. -/
theorem busWrite_regOffset (s : State) (r : RegName) (v : Word) :
    busWrite s (regOffset r) 4 v = .ok (regWrite s r v) := by
  rw [busWrite_of_aligned s v (regOffset_lt r) (regOffset_aligned r), writeOffset_regOffset]

/-! A write to CMD (30_encoding.md R95). -/

/-- A command word written while a command is in flight is dropped. -/
theorem State.writeCmd_of_busy {s : State} (h : s.latch.busy = true) (w : Word) :
    s.writeCmd w = { s with regs := { s.regs with overrun := true } } :=
  if_pos h

/-- A command word written while the block is idle is accepted. -/
theorem State.writeCmd_of_idle {s : State} (h : s.latch.busy = false) (w : Word) : s.writeCmd w = s.accept w :=
  if_neg (Bool.eq_false_iff.mp h)

/-- Settles O7: `busWrite` applies `writeCmd`, and its two branches are the two clauses. -/
theorem commandWordAcceptance : Obligations.CommandWordAcceptance := by
  intro s w
  have hwrite : busWrite s 0x028 4 w = .ok (s.writeCmd w) := busWrite_regOffset s .cmd w
  constructor
  · intro hbusy
    rw [hwrite, State.writeCmd_of_busy hbusy]
  · intro hidle
    rw [hwrite, State.writeCmd_of_idle hidle, State.accept]

end Sys2Proof.Machine
end

section
/-! SUPPORT and the statement of 40_gf256.md R112: the polynomial of a byte bit by bit, and the multiplication loop as the
multiplication of polynomials modulo p(x). -/

namespace Sys2Proof.Machine

/-! The polynomial of a bit vector (00_scope.md R12): its coefficients are the bits, so that an operation on bits is read
off coefficient by coefficient. -/

/-- A bit as a coefficient. -/
theorem coeff_bitsPoly {w : Nat} (v : BitVec w) (k : Nat) :
    (bitsPoly v).coeff k = if v.getLsbD k then 1 else 0 := by
  have hterm : ∀ j, ((if v.getLsbD j then Polynomial.X ^ j else 0 : Polynomial (ZMod 2)).coeff k)
      = if k = j then (if v.getLsbD k then 1 else 0) else 0 := by
    intro j
    by_cases hkj : k = j
    · subst hkj
      cases v.getLsbD k <;> simp
    · cases v.getLsbD j <;> simp [Polynomial.coeff_X_pow, hkj]
  simp only [bitsPoly, Polynomial.finsetSum_coeff, hterm, Finset.sum_ite_eq, Finset.mem_range]
  by_cases hk : k < w
  · rw [if_pos hk]
  · rw [if_neg hk, BitVec.getLsbD_of_ge v k (by omega)]
    rfl

@[simp] theorem bitsPoly_zero {w : Nat} : bitsPoly 0#w = 0 := by
  ext k
  simp [coeff_bitsPoly]

/-- XOR is the addition of polynomials over GF(2). -/
theorem bitsPoly_xor {w : Nat} (u v : BitVec w) : bitsPoly (u ^^^ v) = bitsPoly u + bitsPoly v := by
  ext k
  rw [Polynomial.coeff_add, coeff_bitsPoly, coeff_bitsPoly, coeff_bitsPoly, BitVec.getLsbD_xor]
  cases u.getLsbD k <;> cases v.getLsbD k <;> decide

/-- A change of width that loses no bit keeps the polynomial. -/
theorem bitsPoly_setWidth {w : Nat} (v : BitVec w) {n : Nat} (h : ∀ k, n ≤ k → v.getLsbD k = false) :
    bitsPoly (v.setWidth n) = bitsPoly v := by
  ext k
  rw [coeff_bitsPoly, coeff_bitsPoly, BitVec.getLsbD_setWidth]
  by_cases hk : k < n
  · simp [hk]
  · simp [h k (by omega)]

/-- A shift to the left that loses no bit is the product with x. -/
theorem bitsPoly_shiftLeft_one {w : Nat} {v : BitVec w} (h : v.getLsbD (w - 1) = false) :
    bitsPoly (v <<< 1) = Polynomial.X * bitsPoly v := by
  ext k
  cases k with
  | zero => simp [coeff_bitsPoly]
  | succ k =>
    rw [Polynomial.coeff_X_mul, coeff_bitsPoly, coeff_bitsPoly, BitVec.getLsbD_shiftLeft]
    by_cases hk : k + 1 < w
    · simp [hk]
    · have hbit : v.getLsbD k = false := by
        by_cases hlast : k = w - 1
        · rw [hlast, h]
        · exact BitVec.getLsbD_of_ge v k (by omega)
      simp [hk, hbit]

/-- The constant coefficient, and the others as the shift to the right has them. -/
theorem bitsPoly_eq_bit_add_X_mul {w : Nat} (v : BitVec w) :
    bitsPoly v = (if v.getLsbD 0 then 1 else 0 : Polynomial (ZMod 2)) + Polynomial.X * bitsPoly (v >>> 1) := by
  ext k
  cases k with
  | zero => cases h : v.getLsbD 0 <;> simp [coeff_bitsPoly, h]
  | succ k =>
    rw [Polynomial.coeff_add, Polynomial.coeff_X_mul, coeff_bitsPoly, coeff_bitsPoly, BitVec.getLsbD_ushiftRight,
      Nat.add_comm 1 k]
    cases v.getLsbD 0 <;> simp [Polynomial.coeff_one]

theorem degree_bitsPoly_lt {w : Nat} (v : BitVec w) : (bitsPoly v).degree < w := by
  rw [Polynomial.degree_lt_iff_coeff_zero]
  intro k hk
  rw [coeff_bitsPoly, BitVec.getLsbD_of_ge v k hk]
  rfl

/-- p(x) has degree 8 where bit 8 of GF_POLY is 1 (40_gf256.md R110). -/
theorem degree_bitsPoly_of_degreeBit {poly : BitVec 9} (h : poly.getLsbD 8 = true) : (bitsPoly poly).degree = 8 := by
  refine Polynomial.degree_eq_of_le_of_coeff_ne_zero ?_ (by simp [coeff_bitsPoly, h])
  exact Order.lt_succ_iff.mp (degree_bitsPoly_lt poly)

theorem monic_bitsPoly_of_degreeBit {poly : BitVec 9} (h : poly.getLsbD 8 = true) : (bitsPoly poly).Monic :=
  Polynomial.monic_of_degree_le 8 (degree_bitsPoly_of_degreeBit h).le (by rw [coeff_bitsPoly, h]; rfl)

/-! One turn of the loop of 40_gf256.md R112. -/

/-- What one turn makes of `x`: shifted to the left, and reduced by p(x) where bit 8 is then 1. -/
def timesX (poly x : BitVec 9) : BitVec 9 :=
  if (x <<< 1).getLsbD 8 then (x <<< 1) ^^^ poly else x <<< 1

theorem gfMulLoop_succ (poly : BitVec 9) (k : Nat) (r x : BitVec 9) (y : Byte) :
    gfMulLoop poly (k + 1) r x y =
      gfMulLoop poly k (if y.getLsbD 0 then r ^^^ x else r) (timesX poly x) (y >>> 1) := rfl

/-- The reduction clears bit 8. -/
theorem timesX_degreeBit {poly : BitVec 9} (hpoly : poly.getLsbD 8 = true) (x : BitVec 9) :
    (timesX poly x).getLsbD 8 = false := by
  unfold timesX
  split
  · rename_i hbit
    rw [BitVec.getLsbD_xor, hbit, hpoly]
    rfl
  · exact Bool.eq_false_iff.mpr ‹_›

/-- A turn multiplies `x` by the polynomial x, modulo p(x). -/
theorem bitsPoly_timesX {poly x : BitVec 9} (hx : x.getLsbD 8 = false) :
    bitsPoly poly ∣ bitsPoly (timesX poly x) - Polynomial.X * bitsPoly x := by
  unfold timesX
  split
  · rw [bitsPoly_xor, bitsPoly_shiftLeft_one hx, add_sub_cancel_left]
  · rw [bitsPoly_shiftLeft_one hx, sub_self]
    exact dvd_zero _

/-- A turn adds `x` to `r` where bit 0 of `y` is 1. -/
theorem bitsPoly_accumulate (r x : BitVec 9) (bit : Bool) :
    bitsPoly (if bit then r ^^^ x else r) = bitsPoly r + bitsPoly x * (if bit then 1 else 0) := by
  cases bit
  · simp
  · simp [bitsPoly_xor]

/-! The whole loop. -/

/-- The loop keeps its accumulator below degree 8. -/
theorem gfMulLoop_degreeBit {poly : BitVec 9} (hpoly : poly.getLsbD 8 = true) (k : Nat) :
    ∀ (r x : BitVec 9) (y : Byte), r.getLsbD 8 = false → x.getLsbD 8 = false →
      (gfMulLoop poly k r x y).getLsbD 8 = false := by
  induction k with
  | zero => intro r x y hr _; exact hr
  | succ k ih =>
    intro r x y hr hx
    rw [gfMulLoop_succ]
    refine ih _ _ _ ?_ (timesX_degreeBit hpoly x)
    cases y.getLsbD 0
    · exact hr
    · simp only [if_true, BitVec.getLsbD_xor, hr, hx, Bool.xor_self]

/-- `k` turns add `x`·`y` to `r`, modulo p(x), where `y` has `k` bits. With X the polynomial x, y₀ bit 0 of `y` and y' the
rest: r + x·(y₀ + X·y') = (r + x·y₀) + (X·x)·y'. -/
theorem bitsPoly_gfMulLoop {poly : BitVec 9} (hpoly : poly.getLsbD 8 = true) (k : Nat) :
    ∀ (r x : BitVec 9) (y : Byte), x.getLsbD 8 = false → (∀ j, k ≤ j → y.getLsbD j = false) →
      bitsPoly poly ∣ bitsPoly (gfMulLoop poly k r x y) - (bitsPoly r + bitsPoly x * bitsPoly y) := by
  induction k with
  | zero =>
    intro r x y _ hy
    obtain rfl : y = 0 := BitVec.eq_of_getLsbD_eq fun j _ => by simp [hy j (Nat.zero_le j)]
    simp [gfMulLoop]
  | succ k ih =>
    intro r x y hx hy
    have hrest : ∀ j, k ≤ j → (y >>> 1).getLsbD j = false := fun j hj => by
      rw [BitVec.getLsbD_ushiftRight]
      exact hy (1 + j) (by omega)
    have hloop := ih (if y.getLsbD 0 then r ^^^ x else r) (timesX poly x) (y >>> 1) (timesX_degreeBit hpoly x) hrest
    have hturn : bitsPoly poly ∣ (bitsPoly (timesX poly x) - Polynomial.X * bitsPoly x) * bitsPoly (y >>> 1) :=
      (bitsPoly_timesX hx).mul_right _
    rw [bitsPoly_accumulate] at hloop
    rw [gfMulLoop_succ, bitsPoly_eq_bit_add_X_mul y]
    convert dvd_add hloop hturn using 1
    ring

/-- `gf_mul` is congruent to the product of the polynomials, modulo p(x). -/
theorem bitsPoly_dvd_gfMul_sub_mul {poly : BitVec 9} (hpoly : poly.getLsbD 8 = true) (a b : Byte) :
    bitsPoly poly ∣ bitsPoly (gfMul poly a b) - bitsPoly a * bitsPoly b := by
  have hwide : ∀ k, 9 ≤ k → a.getLsbD k = false := fun k hk => BitVec.getLsbD_of_ge a k (by omega)
  have hx : (a.setWidth 9).getLsbD 8 = false := by simp
  have hnarrow : ∀ k, 8 ≤ k → (gfMulLoop poly 8 0#9 (a.setWidth 9) b).getLsbD k = false := by
    intro k hk
    obtain rfl | hk := Nat.eq_or_lt_of_le hk
    · exact gfMulLoop_degreeBit hpoly 8 _ _ _ (by simp) hx
    · exact BitVec.getLsbD_of_ge _ k hk
  have hloop := bitsPoly_gfMulLoop hpoly 8 0#9 (a.setWidth 9) b hx fun j hj => BitVec.getLsbD_of_ge b j hj
  rwa [bitsPoly_zero, zero_add, bitsPoly_setWidth a hwide, ← bitsPoly_setWidth _ hnarrow] at hloop

/-- Settles O14: `gf_mul` is congruent to the product modulo p(x), and its degree is below p(x)'s. -/
theorem productIsReducedPolynomial : Obligations.ProductIsReducedPolynomial := by
  intro poly a b hpoly
  have hmonic := monic_bitsPoly_of_degreeBit hpoly
  have hdegree : (bitsPoly (gfMul poly a b)).degree < (bitsPoly poly).degree := by
    rw [degree_bitsPoly_of_degreeBit hpoly]
    exact degree_bitsPoly_lt _
  calc bitsPoly (gfMul poly a b)
      = bitsPoly (gfMul poly a b) %ₘ bitsPoly poly := ((Polynomial.modByMonic_eq_self_iff hmonic).mpr hdegree).symm
    _ = (bitsPoly a * bitsPoly b) %ₘ bitsPoly poly :=
      Polynomial.modByMonic_eq_of_dvd_sub hmonic (bitsPoly_dvd_gfMul_sub_mul hpoly a b)

end Sys2Proof.Machine
end

section
/-! SUPPORT and the statements of 40_gf256.md on GF_ADD and GF_MUL: the words of commands as the statements spell them,
and a scalar command's report. -/

namespace Sys2Proof.Machine

/-! Command words (30_encoding.md R92 and R99). -/

/-- The opcode map answers a command on the command's own fields. -/
theorem decodeOp_fields (i : Instr) : decodeOp i.opcode i.immA i.immB = .command i := by
  cases i <;> rfl

/-- A command's word decodes to the command. -/
theorem decode_encode (i : Instr) : decode (encode i) = .command i := by
  have hop : fieldOp (encode i) = i.opcode := Laws.fieldOp_spelling _ _ _
  have ha : fieldA (encode i) = i.immA := Laws.fieldA_spelling _ _ _
  have hb : fieldB (encode i) = i.immB := Laws.fieldB_spelling _ _ _
  have hz : fieldZ (encode i) = 0 := Laws.fieldZ_spelling _ _ _
  rw [decode, hop, ha, hb, hz, decodeOp_fields]
  exact if_neg (not_not_intro rfl)

/-- The word `B << 16 | A << 8 | OP` decodes to its command. -/
theorem decode_wordAB (i : Instr) :
    decode ((i.immB.setWidth 32 <<< 16) ||| (i.immA.setWidth 32 <<< 8) ||| i.opcode.setWidth 32) = .command i := by
  rw [← decode_encode i, encode, BitVec.or_assoc, BitVec.or_comm, BitVec.or_comm (i.immA.setWidth 32 <<< 8)]

/-- The word `A << 8 | OP` of a row that marks B as 0 decodes to its command. -/
theorem decode_wordA (i : Instr) (hb : i.immB = 0) :
    decode ((i.immA.setWidth 32 <<< 8) ||| i.opcode.setWidth 32) = .command i := by
  have hzero : i.immB.setWidth 32 <<< 16 = 0#32 := by rw [hb]; rfl
  rw [← decode_wordAB i, hzero, BitVec.zero_or]

/-! The scalar commands. -/

/-- Settles O19: GF_ADD completes with its sum from every state, and a completion only reports. -/
theorem gfAddReportsSum : Obligations.GfAddReportsSum := fun a b =>
  ⟨decode_wordAB (.gfAdd a b), fun s => ⟨_, rfl, onlyReported_success s (scalarResult (gfAdd a b))⟩⟩

/-- Settles O20: GF_MUL completes with its product from every state, and a completion only reports. -/
theorem gfMulReportsProduct : Obligations.GfMulReportsProduct := fun a b =>
  ⟨decode_wordAB (.gfMul a b), fun s => ⟨_, rfl, onlyReported_success s (scalarResult (gfMul s.cfg.gfPoly a b))⟩⟩

end Sys2Proof.Machine
end

section
/-! SUPPORT and the statements of 40_gf256.md on MULADD_MEM and MUL_MEM: the check of a bulk command, and every byte of
PMEM after the ascending loop. -/

namespace Sys2Proof.Machine

/-! The check of a bulk command (20_memory.md R72). -/

theorem inRange_iff (cfg : Config) (a n : Nat) : inRange cfg a n = true ↔ n = 0 ∨ a + n ≤ cfg.pmemBytes := by
  simp [inRange]

/-- The check of a bulk command fails with INVALID_INPUT alone. -/
theorem bulkFailure_eq_some {s : State} (h : bulkFailure s ≠ none) : bulkFailure s = some .invalidInput := by
  unfold bulkFailure at h ⊢
  split at h
  · rw [if_pos ‹_›]
  · exact absurd rfl h

/-- A bulk command whose check fails. -/
theorem bulk_of_failure (f : Byte → Byte → Byte) {s : State} (h : bulkFailure s ≠ none) :
    bulk f s = .next (s.raise .invalidInput) := by
  rw [bulk, bulkFailure_eq_some h]

/-- A bulk command whose check passes. -/
theorem bulk_of_pass (f : Byte → Byte → Byte) {s : State} (h : bulkFailure s = none) :
    bulk f s =
      .next ((s.setPmem (bulkLoop f (argA s) (argB s) (argC s) s.pmem)).complete .success Results.zero) := by
  rw [bulk, h]

/-! The ascending loop (40_gf256.md R130 and R131). -/

/-- The byte at dst + i after the loop, from the byte that stood there and the byte at src + i as turn i finds it: a byte
that an earlier turn has written keeps that value to the end of the loop. -/
theorem Memory.read_bulkLoop (f : Byte → Byte → Byte) (n : Nat) :
    ∀ (dst src : Nat) (m : Memory) (i : Nat), m.wf = true → i < n →
      (bulkLoop f dst src n m).read (dst + i) = f (m.read (dst + i))
        (if dst ≤ src + i ∧ src + i < dst + i then (bulkLoop f dst src n m).read (src + i) else m.read (src + i)) := by
  induction n with
  | zero => intro _ _ _ i _ hi; omega
  | succ n ih =>
    intro dst src m i hwf hi
    generalize hv : f (m.read dst) (m.read src) = v
    have hloop : bulkLoop f dst src (n + 1) m = bulkLoop f (dst + 1) (src + 1) n (m.write dst v) := by
      rw [bulkLoop, hv]
    have hfirst : (bulkLoop f (dst + 1) (src + 1) n (m.write dst v)).read dst = v := by
      rw [Memory.read_bulkLoop_other f n _ _ _ _ (by omega), Memory.read_write_same hwf]
    rw [hloop]
    cases i with
    | zero =>
      rw [if_neg (by omega)]
      exact hfirst.trans hv.symm
    | succ i =>
      have hrest := ih (dst + 1) (src + 1) (m.write dst v) i (Memory.wf_write hwf dst v) (by omega)
      rw [Nat.add_right_comm dst 1 i, Nat.add_right_comm src 1 i, Memory.read_write_other m v (by omega)] at hrest
      rw [← Nat.add_assoc, ← Nat.add_assoc, hrest]
      congr 1
      by_cases hsrc : src + i + 1 = dst
      · rw [if_neg (by omega), if_pos (by omega), hsrc, hfirst, Memory.read_write_same hwf]
      · rw [Memory.read_write_other m v hsrc]
        exact if_congr (by omega) rfl rfl

/-! Every bulk command. -/

section
variable (f : Byte → Byte → Byte) {s : State} {dst src n : Nat} (hdst : s.latch.larg0.toNat = dst)
  (hsrc : s.latch.larg1.toNat = src) (hn : s.latch.larg2.toNat = n)
include hdst hsrc hn

/-- The check of a bulk command passes exactly where both ranges are in PMEM, or n = 0. -/
theorem bulkFailure_eq_none_iff :
    bulkFailure s = none ↔ n = 0 ∨ (dst + n ≤ s.cfg.pmemBytes ∧ src + n ≤ s.cfg.pmemBytes) := by
  subst hdst hsrc hn
  rw [bulkFailure_eq_none, inRange_iff, inRange_iff, ← or_and_left]
  rfl

/-- A bulk command with a range outside PMEM. -/
theorem bulk_refuses (h0 : n ≠ 0) (hout : s.cfg.pmemBytes < dst + n ∨ s.cfg.pmemBytes < src + n) :
    ∃ t, bulk f s = .next t ∧ OnlyReported s t .invalidInput Results.zero := by
  have hfail : bulkFailure s ≠ none := by
    rw [Ne, bulkFailure_eq_none_iff hdst hsrc hn]
    omega
  exact ⟨_, bulk_of_failure f hfail, onlyReported_raise s .invalidInput⟩

/-- A bulk command with both ranges in PMEM, or n = 0. -/
theorem bulk_follows_loop (hwf : s.pmem.wf = true)
    (hin : n = 0 ∨ (dst + n ≤ s.cfg.pmemBytes ∧ src + n ≤ s.cfg.pmemBytes)) :
    ∃ t, bulk f s = .next t ∧ Completed s t .success Results.zero ∧ t.enc = s.enc ∧ SlvSame s t
      ∧ (∀ i, i < n → t.pmem.read (dst + i) = f (s.pmem.read (dst + i)) (readInLoop s t dst src i))
      ∧ PmemSameOutside s t dst n := by
  have hpass := (bulkFailure_eq_none_iff hdst hsrc hn).mpr hin
  subst hdst hsrc hn
  refine ⟨_, bulk_of_pass f hpass, ?_, rfl, ⟨rfl, rfl⟩, fun i hi => ?_, fun a ha => ?_⟩
  · constructor <;> rfl
  · exact Memory.read_bulkLoop f _ _ _ _ i hwf hi
  · exact Memory.read_bulkLoop_other f _ _ _ _ a ha

end

/-- Settles O23: MULADD_MEM is the bulk command whose byte operation adds the product. -/
theorem mulAddMemFollowsAscendingLoop : Obligations.MulAddMemFollowsAscendingLoop := fun c =>
  ⟨decode_wordA (.muladdMem c) rfl, fun s _ _ _ hdst hsrc hn =>
    ⟨bulk_refuses (mulAddByte s.cfg.gfPoly c) hdst hsrc hn, bulk_follows_loop (mulAddByte s.cfg.gfPoly c) hdst hsrc hn⟩⟩

/-- Settles O24: MUL_MEM is the bulk command whose byte operation is the product alone. -/
theorem mulMemFollowsAscendingLoop : Obligations.MulMemFollowsAscendingLoop := fun c =>
  ⟨decode_wordA (.mulMem c) rfl, fun s _ _ _ hdst hsrc hn =>
    ⟨bulk_refuses (mulByte s.cfg.gfPoly c) hdst hsrc hn, bulk_follows_loop (mulByte s.cfg.gfPoly c) hdst hsrc hn⟩⟩

end Sys2Proof.Machine
end

section
/-! SUPPORT and the statements of 41_rowgen_encoder.md on GEN_ROW, ENC_ORIGINAL, ENC_RECOVERY and ENC_RESET: the
coefficients, prefixed payloads and recovery packets as the statements write them out, and each command where its checks
hold. -/

namespace Sys2Proof.Machine

/-! Coefficients (40_gf256.md R117 and R118). -/

/-- The byte that a row meets at sequence `q`, from its column byte. -/
theorem columnByte_add_cauchyOffset (cfg : Config) (q : Nat) : columnByte q + cfg.cauchyOffset = columnAt cfg q := by
  apply BitVec.eq_of_toNat_eq
  simp [columnByte, columnAt]

theorem coef_eq_coefAt (cfg : Config) (row : Byte) (q : Nat) : coef cfg row q = coefAt cfg row q := by
  rw [coef, coefCol, coefAt, cauchy, den, columnByte_add_cauchyOffset]

theorem degenerateAt_columnByte_iff (cfg : Config) (row : Byte) (q : Nat) :
    degenerateAt cfg row (columnByte q) = true ↔ row ≠ 0 ∧ row = columnAt cfg q := by
  simp only [degenerateAt, den, columnByte_add_cauchyOffset, Bool.and_eq_true, bne_iff_ne, beq_iff_eq]
  exact and_congr_right fun _ => BitVec.xor_eq_zero_iff

/-! Prefixed payloads (20_memory.md R66). -/

theorem prefixed_eq_prefixedByte (m : Memory) (addr len k : Nat) : prefixed m addr len k = prefixedByte m addr len k := by
  match k with
  | 0 =>
    apply BitVec.eq_of_toNat_eq
    simp [prefixed, prefixedByte]
  | 1 => rfl
  | k + 2 => simp [prefixed, prefixedByte, ← Nat.add_assoc]

/-! The originals of a packet, as the values of a function at 0, …, n-1. -/

theorem outLen_le_iff (es : List Odesc) (bound : Nat) : outLen es ≤ bound ↔ ∀ e ∈ es, e.prefixedLen ≤ bound := by
  induction es with
  | nil => simp [outLen]
  | cons e es ih =>
    rw [List.forall_mem_cons, ← ih]
    exact Nat.max_le

/-- `outLen` is the greatest prefixed length. -/
theorem outLen_eq_of_longest {n : Nat} {es : Nat → Odesc} {len : Nat} (h : LongestPrefixed n es len) :
    outLen ((List.range n).map es) = len := by
  obtain ⟨hle, k, hk, hlen⟩ := h
  apply Nat.le_antisymm
  · rw [outLen_le_iff, List.forall_mem_map]
    exact fun j hj => hle j (List.mem_range.mp hj)
  · rw [← hlen]
    exact (outLen_le_iff _ _).mp (Nat.le_refl _) _ (List.mem_map_of_mem (List.mem_range.mpr hk))

/-- A byte of the row payload is the XOR that the statements write out. -/
theorem rowByte_eq_payloadByte (s : State) (row : Byte) (n : Nat) (es : Nat → Odesc) (b : Nat) :
    rowByte s.cfg s.pmem row ((List.range n).map es) b = payloadByte s row n es b := by
  simp only [rowByte, List.foldr_map, gfAdd, coef_eq_coefAt, Odesc.prefixedAt, prefixed_eq_prefixedByte, payloadByte,
    xorOver]

theorem any_map_range_eq_false_iff {n : Nat} {es : Nat → Odesc} {p : Odesc → Bool} :
    ((List.range n).map es).any p = false ↔ ∀ k, k < n → p (es k) = false := by
  simp

/-- The check of contiguity (41_rowgen_encoder.md R144, check 3), original by original. -/
theorem contiguousFrom_map_range_iff {n : Nat} {es : Nat → Odesc} {q : Seq} :
    contiguousFrom q ((List.range n).map es) = true ↔ ∀ k, k < n → (es k).seq = q + BitVec.ofNat 64 k := by
  induction n generalizing es q with
  | zero => simp [contiguousFrom]
  | succ n ih =>
    have hsucc : ∀ k, q + 1#64 + BitVec.ofNat 64 k = q + BitVec.ofNat 64 (k + 1) := fun k => by
      rw [BitVec.ofNat_add, BitVec.add_assoc, BitVec.add_comm 1#64]
    rw [List.range_succ_eq_map, List.map_cons, List.map_map, contiguousFrom, Bool.and_eq_true, beq_iff_eq, ih,
      Nat.forall_lt_succ_left]
    simp [hsucc]

/-! Recovery packets: what GEN_ROW and ENC_RECOVERY write (41_rowgen_encoder.md R144 and R155). -/

/-- `{row, n}` with n < 2^16. -/
theorem rowCountWord_eq (row : Byte) {n : Nat} (h : n < 2 ^ 16) :
    rowCountWord row n = (row.setWidth 32 <<< 16) ||| BitVec.ofNat 32 n := by
  have hcount : (BitVec.ofNat 16 n).setWidth 32 = BitVec.ofNat 32 n := by
    apply BitVec.eq_of_toNat_eq
    simp only [BitVec.toNat_setWidth, BitVec.toNat_ofNat]
    omega
  rw [rowCountWord, hcount]

section
variable {s : State} {job : RowJob} {n len : Nat} {es : Nat → Odesc} (hes : job.es = (List.range n).map es)
  (hlong : LongestPrefixed n es len)
include hes hlong

/-- The RES values of a packet over the originals `es 0`, …, `es (n - 1)`. -/
theorem RowJob.results_eq (hn : n < 2 ^ 16) (start : Seq) :
    job.results start =
      { r0 := start.extractLsb' 0 32
        r1 := start.extractLsb' 32 32
        r2 := (job.row.setWidth 32 <<< 16) ||| BitVec.ofNat 32 n
        r3 := BitVec.ofNat 32 len } := by
  simp only [RowJob.results, loWord, hiWord, hes, outLen_eq_of_longest hlong, List.length_map, List.length_range,
    rowCountWord_eq job.row hn]

/-- PMEM after a packet is written: its payload in [dst, dst + len), computed from the memory before, and every other byte
as before. -/
theorem RowJob.read_writtenTo (hwf : s.pmem.wf = true) (a : Nat) :
    (job.writtenTo s.cfg s.pmem).read a =
      if job.dst ≤ a ∧ a < job.dst + len then payloadByte s job.row n es (a - job.dst) else s.pmem.read a := by
  have hlen : (rowPayload s.cfg s.pmem job.row job.es).length = len := by
    rw [rowPayload, List.length_map, List.length_range, hes, outLen_eq_of_longest hlong]
  rw [RowJob.writtenTo, Memory.read_writeBytes hwf, hlen]
  refine if_ctx_congr Iff.rfl (fun ha => ?_) fun _ => rfl
  rw [List.getD_eq_getElem _ _ (by omega)]
  simp only [rowPayload, hes, List.getElem_map, List.getElem_range, rowByte_eq_payloadByte]

/-- The payload of a packet. -/
theorem RowJob.read_writtenTo_payload (hwf : s.pmem.wf = true) {b : Nat} (hb : b < len) :
    (job.writtenTo s.cfg s.pmem).read (job.dst + b) = payloadByte s job.row n es b := by
  rw [RowJob.read_writtenTo hes hlong hwf, if_pos (by omega), Nat.add_sub_cancel_left]

/-- A packet leaves every byte outside its payload as it was. -/
theorem RowJob.read_writtenTo_outside (hwf : s.pmem.wf = true) {a : Nat}
    (ha : ¬(job.dst ≤ a ∧ a < job.dst + len)) : (job.writtenTo s.cfg s.pmem).read a = s.pmem.read a := by
  rw [RowJob.read_writtenTo hes hlong hwf, if_neg ha]

end

/-- A completion after writes to PMEM and to the encoder leaves the other registers as they were. -/
theorem completed_after_writes (s : State) (m : Memory) (e : Encoder) (r : Results) :
    Completed s (((s.setPmem m).setEnc e).complete .success r) .success r := by
  constructor <;> rfl

/-- A sequence of checks reports no failure exactly where its first check passes and the others report none. -/
theorem ite_some_eq_none_iff {c : Prop} [Decidable c] {code : ResultCode} {rest : Option ResultCode} :
    (if c then some code else rest) = none ↔ ¬c ∧ rest = none := by
  by_cases hc : c <;> simp [hc]

/-! GEN_ROW (41_rowgen_encoder.md R144). -/

/-- The checks of GEN_ROW pass exactly where all six do. -/
theorem genRowFailure_eq_none_iff {row : Byte} {s : State} :
    genRowFailure row s = none ↔
      (1 ≤ argC s ∧ argC s ≤ s.cfg.maxCols) ∧ inRange s.cfg (argB s) (16 * argC s) = true
        ∧ contiguousFrom (genRowJob row s).start (genRowJob row s).es = true
        ∧ (genRowJob row s).es.any (fun e => !e.payloadOk s.cfg) = false
        ∧ (genRowJob row s).es.any (fun e => degenerateAt s.cfg row (columnByte e.seq.toNat)) = false
        ∧ inRange s.cfg (argA s) (outLen (genRowJob row s).es) = true := by
  simp [genRowFailure, ite_some_eq_none_iff, Nat.one_le_iff_ne_zero]

/-- GEN_ROW's originals are the ODESCs of its list. -/
theorem genRowJob_es (row : Byte) (s : State) :
    (genRowJob row s).es =
      (List.range s.latch.larg2.toNat).map fun k => odescAt s.pmem (s.latch.larg1.toNat + 16 * k) := rfl

theorem genRowJob_start {row : Byte} {s : State} (h : 1 ≤ s.latch.larg2.toNat) :
    (genRowJob row s).start = (odescAt s.pmem s.latch.larg1.toNat).seq := by
  obtain ⟨n, hn⟩ := Nat.exists_eq_add_of_le' h
  simp [RowJob.start, genRowJob_es, hn, List.range_succ_eq_map]

/-- GEN_ROW with its checks passed. -/
theorem execGenRow_of_pass {row : Byte} {s : State} (h : genRowFailure row s = none) :
    execGenRow row s =
      .next ((s.setPmem ((genRowJob row s).writtenTo s.cfg s.pmem)).complete .success
        ((genRowJob row s).results (genRowJob row s).start)) := by
  rw [execGenRow, h]

/-- The conditions that the statements write out are the six checks. -/
theorem genRowFailure_of_runs {row : Byte} {s : State} {dst list n len : Nat} (h : GenRowRuns row s dst list n len) :
    genRowFailure row s = none := by
  obtain ⟨rfl, rfl, rfl, hleast, hmost, hlist, hcontig, hpayload, hcoef, hlong, hdst⟩ := h
  rw [genRowFailure_eq_none_iff, genRowJob_start hleast, genRowJob_es, outLen_eq_of_longest hlong,
    contiguousFrom_map_range_iff, any_map_range_eq_false_iff, any_map_range_eq_false_iff, inRange_iff, inRange_iff]
  refine ⟨⟨hleast, hmost⟩, .inr hlist, hcontig, fun k hk => ?_, fun k hk => ?_, .inr hdst⟩
  · rw [hpayload k hk]
    rfl
  · rw [Bool.eq_false_iff, Ne, degenerateAt_columnByte_iff]
    exact fun ⟨hrow, hcol⟩ => hcoef hrow k hk hcol

/-- Settles O25: the six checks pass, and the packet over the list's descriptors is written. -/
theorem genRowWritesRowPayload : Obligations.GenRowWritesRowPayload := by
  refine fun row => ⟨decode_wordA (.genRow row) rfl, fun s dst list n len hcfg hwf h => ?_⟩
  have hpass := genRowFailure_of_runs h
  obtain ⟨rfl, rfl, rfl, hleast, hmost, _, _, _, _, hlong, _⟩ := h
  obtain ⟨_, _, hcols, _⟩ := (config_wf_iff s.cfg).mp hcfg
  have hes := genRowJob_es row s
  refine ⟨_, execGenRow_of_pass hpass, ?_, rfl, ⟨rfl, rfl⟩, fun b hb => ?_, fun a ha => ?_⟩
  · rw [RowJob.results_eq hes hlong (by omega), genRowJob_start hleast]
    exact completed_after_writes s ((genRowJob row s).writtenTo s.cfg s.pmem) s.enc _
  · exact RowJob.read_writtenTo_payload hes hlong hwf hb
  · exact RowJob.read_writtenTo_outside hes hlong hwf ha

/-! ENC_ORIGINAL (41_rowgen_encoder.md R151). -/

/-- The check of ENC_ORIGINAL passes exactly where the payload is one an original may have. -/
theorem encOriginalFailure_eq_none_iff {s : State} :
    encOriginalFailure s = none ↔
      argB s ≤ s.cfg.maxPayload ∧ (argB s = 0 ∨ argA s + argB s ≤ s.cfg.pmemBytes) := by
  rw [← inRange_iff]
  simp [encOriginalFailure]

/-- The check of ENC_ORIGINAL fails with INVALID_INPUT alone. -/
theorem execEncOriginal_of_failure {s : State} (h : encOriginalFailure s ≠ none) :
    execEncOriginal s = .next (s.raise .invalidInput) := by
  have hcode : encOriginalFailure s = some .invalidInput := by
    unfold encOriginalFailure at h ⊢
    split at h
    · rw [if_pos ‹_›]
    · exact absurd rfl h
  rw [execEncOriginal, hcode]

/-- ENC_ORIGINAL with its check passed. -/
theorem execEncOriginal_of_pass {s : State} (h : encOriginalFailure s = none) :
    execEncOriginal s =
      .next ((s.setEnc (s.enc.append s.cfg s.latch.larg0 (argB s))).complete .success
        { Results.zero with r0 := loWord s.enc.nextSeq, r1 := hiWord s.enc.nextSeq }) := by
  rw [execEncOriginal, h]

/-- Settles O28: the check's two outcomes, and the appended encoder field by field; the window is at most 256 slots, so
CURSOR and COUNT hold their values. -/
theorem encOriginalAppendsSlot : Obligations.EncOriginalAppendsSlot := by
  refine ⟨decode_encode .encOriginal, ?_⟩
  rintro s _ _ rfl rfl
  constructor
  · intro hbad
    have hfail : encOriginalFailure s ≠ none := by
      rw [Ne, encOriginalFailure_eq_none_iff, argA, argB]
      omega
    exact ⟨_, execEncOriginal_of_failure hfail, onlyReported_raise s .invalidInput⟩
  · intro hcfg hok hlen hrange
    obtain ⟨_, ⟨hwindow, hcols⟩, hmaxCols, _⟩ := (config_wf_iff s.cfg).mp hcfg
    refine ⟨_, execEncOriginal_of_pass (encOriginalFailure_eq_none_iff.mpr ⟨hlen, hrange⟩),
      completed_after_writes s s.pmem _ _, ⟨rfl, rfl⟩, fun _ => rfl, ?slot, ?otherSlots, ?cursor, ?count, ?nextSeq,
      ?nextColumn, rfl, rfl, rfl⟩
    case slot => simp [argB, hok.slots, hok.cursor]
    case otherSlots =>
      intro k hk
      exact List.getElem?_set_ne hk.symm
    case cursor =>
      have hlt : (s.enc.cursor.toNat + 1) % s.cfg.encWindow < s.cfg.encWindow := Nat.mod_lt _ (by omega)
      rw [State.complete_enc, State.setEnc_enc, Encoder.append_cursor, BitVec.toNat_ofNat, Nat.mod_eq_of_lt (by omega)]
    case count =>
      rw [State.complete_enc, State.setEnc_enc, Encoder.append_count, BitVec.toNat_ofNat, Nat.mod_eq_of_lt (by omega)]
    case nextSeq => simp
    case nextColumn => simp

/-! ENC_RECOVERY (41_rowgen_encoder.md R153 to R155). -/

/-- The start of the span (41_rowgen_encoder.md R153). -/
theorem Encoder.toNat_spanStart (e : Encoder) :
    e.spanStart.toNat = (e.nextSeq.toNat + 2 ^ 64 - e.count.toNat) % 2 ^ 64 := by
  have hcount := e.count.isLt
  simp only [Encoder.spanStart, BitVec.toNat_sub, BitVec.toNat_setWidth]
  omega

/-- The low bits of a difference depend on low bits alone. -/
theorem setWidth_sub {w v : Nat} (x y : BitVec w) (h : v ≤ w) : (x - y).setWidth v = x.setWidth v - y.setWidth v := by
  rw [BitVec.eq_sub_iff_add_eq, ← BitVec.setWidth_add _ _ h, BitVec.sub_add_cancel]

/-- In a well-formed encoder the column that ENC_RECOVERY checks is its original's column byte (41_rowgen_encoder.md
R149). -/
theorem Encoder.column_eq_columnByte {cfg : Config} {e : Encoder} (hok : e.Ok cfg) {j : Nat} (hj : j < e.count.toNat) :
    e.column j = columnByte (liveSlot cfg e j).seq.toNat := by
  have hnext : e.nextColumn = e.nextSeq.setWidth 8 := BitVec.eq_of_toNat_eq (by rw [hok.column, BitVec.toNat_setWidth])
  have hcount : BitVec.ofNat 8 e.count.toNat = (e.count.setWidth 64).setWidth 8 := by
    rw [BitVec.setWidth_setWidth_of_le _ (by decide), BitVec.ofNat_toNat]
  have hindex : BitVec.ofNat 8 j = (BitVec.ofNat 64 j).setWidth 8 := (BitVec.setWidth_ofNat_of_le (by decide) j).symm
  rw [Encoder.column, hnext, hcount, hindex, columnByte, hok.sequences j hj, BitVec.ofNat_toNat,
    BitVec.setWidth_add _ _ (by decide), setWidth_sub _ _ (by decide)]

/-- The checks of ENC_RECOVERY pass exactly where all four do. -/
theorem encRecoveryFailure_eq_none_iff {s : State} :
    encRecoveryFailure s = none ↔
      ¬s.enc.count.toNat < 2 ∧ s.enc.newData = true
        ∧ (∀ j, j < s.enc.count.toNat → degenerateAt s.cfg s.enc.recoveryRow (s.enc.column j) = false)
        ∧ inRange s.cfg (argA s) (outLen (encRecoveryJob s).es) = true := by
  simp [encRecoveryFailure, ite_some_eq_none_iff]

/-- ENC_RECOVERY with its checks passed. -/
theorem execEncRecovery_of_pass {s : State} (h : encRecoveryFailure s = none) :
    execEncRecovery s =
      .next (((s.setPmem ((encRecoveryJob s).writtenTo s.cfg s.pmem)).setEnc
        (s.enc.emitted s.enc.recoveryRow)).complete .success ((encRecoveryJob s).results s.enc.spanStart)) := by
  rw [execEncRecovery, h]

/-- The next Cauchy row, as a number. -/
theorem toNat_nextCauchyRow (row : Byte) :
    (nextCauchyRow row).toNat = if row.toNat = 255 then 1 else row.toNat + 1 := by
  by_cases hrow : row = 255
  · rw [hrow]
    rfl
  · have hne : row.toNat ≠ 255 := fun h => hrow (BitVec.eq_of_toNat_eq h)
    have hlt := row.isLt
    rw [nextCauchyRow, if_neg hrow, if_neg hne, BitVec.toNat_add_of_lt]
    · rfl
    · exact Nat.add_lt_of_lt_sub (by omega : row.toNat < 255)

/-- Settles O29: the four checks pass, the packet over the live slots is written, and the encoder moves on by the row. -/
theorem encRecoveryEmitsPacket : Obligations.EncRecoveryEmitsPacket := by
  refine ⟨decode_encode .encRecovery, ?_⟩
  rintro s _ _ start len row hcfg hwf hok rfl rfl hleast hnew hstart hrow hcoef hlong hdst
  rw [← Encoder.toNat_spanStart] at hstart
  subst hstart
  obtain rfl : s.enc.recoveryRow = row := hrow.symm
  have hes : (encRecoveryJob s).es = (List.range s.enc.count.toNat).map (liveSlot s.cfg s.enc) := rfl
  have hpass : encRecoveryFailure s = none := by
    rw [encRecoveryFailure_eq_none_iff, hes, outLen_eq_of_longest hlong, inRange_iff]
    refine ⟨Nat.not_lt.mpr hleast, hnew, fun j hj => ?_, .inr hdst⟩
    rw [Encoder.column_eq_columnByte hok hj, Bool.eq_false_iff, Ne, degenerateAt_columnByte_iff]
    exact fun ⟨hne, hcol⟩ => hcoef hne j hj hcol
  have hcount : s.enc.count.toNat < 2 ^ 16 := Nat.lt_trans s.enc.count.isLt (by decide)
  refine ⟨_, execEncRecovery_of_pass hpass, ?completed, ⟨rfl, rfl⟩, fun b hb => ?payload, fun a ha => ?outside,
    Encoder.emitted_newData _ _, fun hparity => ?parity, fun hcauchy => ?cauchy, Encoder.emitted_nextSeq _ _,
    Encoder.emitted_nextColumn _ _, Encoder.emitted_count _ _, Encoder.emitted_cursor _ _, Encoder.emitted_slots _ _⟩
  case completed =>
    have hword : BitVec.ofNat 64 s.enc.spanStart.toNat = s.enc.spanStart := by simp
    rw [RowJob.results_eq hes hlong hcount, hword]
    exact completed_after_writes s _ _ _
  case payload => exact RowJob.read_writtenTo_payload hes hlong hwf hb
  case outside => exact RowJob.read_writtenTo_outside hes hlong hwf ha
  case parity =>
    exact ⟨(Encoder.emitted_nextParity _ _).trans (if_pos hparity),
      (Encoder.emitted_nextRow _ _).trans (if_pos hparity)⟩
  case cauchy =>
    have hnext := (Encoder.emitted_nextRow s.enc s.enc.recoveryRow).trans (if_neg hcauchy)
    exact ⟨(Encoder.emitted_nextParity _ _).trans (if_neg hcauchy),
      (congrArg BitVec.toNat hnext).trans (toNat_nextCauchyRow _)⟩

/-! ENC_RESET (41_rowgen_encoder.md R160). -/

/-- Settles O31: ENC_RESET has no check and replaces the encoder alone. -/
theorem encResetEmptiesWindow : Obligations.EncResetEmptiesWindow :=
  ⟨decode_encode .encReset, fun s =>
    ⟨_, rfl, completed_after_writes s s.pmem s.enc.restarted Results.zero, fun _ => rfl, ⟨rfl, rfl⟩, rfl⟩⟩

end Sys2Proof.Machine
end

section
/-! SUPPORT. 40_gf256.md R111 to R115 with a primitive GF_POLY: bytes as residues modulo p(x), a commutative ring,
where every nonzero byte is a power of x; so division by a nonzero byte undoes multiplication. -/

namespace Sys2Proof.Machine

/-! Bytes as residues modulo p(x) (40_gf256.md R110). -/

/-- The residue modulo p(x) of the polynomial that a byte stands for. -/
noncomputable def residue (poly : BitVec 9) (b : Byte) : AdjoinRoot (bitsPoly poly) :=
  AdjoinRoot.mk (bitsPoly poly) (bitsPoly b)

@[simp] theorem residue_zero (poly : BitVec 9) : residue poly 0#8 = 0 := by
  rw [residue, bitsPoly_zero, map_zero]

@[simp] theorem residue_one (poly : BitVec 9) : residue poly 1#8 = 1 := by
  have hone : bitsPoly 1#8 = 1 := by
    ext k
    rw [coeff_bitsPoly, Polynomial.coeff_one]
    cases k <;> simp
  rw [residue, hone, map_one]

@[simp] theorem residue_xor (poly : BitVec 9) (a b : Byte) :
    residue poly (a ^^^ b) = residue poly a + residue poly b := by
  rw [residue, bitsPoly_xor, map_add]
  rfl

section
variable {poly : BitVec 9} (hpoly : poly.getLsbD 8 = true)
include hpoly

theorem residue_gfMul (a b : Byte) : residue poly (gfMul poly a b) = residue poly a * residue poly b := by
  rw [residue, residue, residue, ← map_mul, AdjoinRoot.mk_eq_mk]
  exact bitsPoly_dvd_gfMul_sub_mul hpoly a b

/-- Bytes have degree below 8, so each is its own remainder. -/
theorem residue_injective : Function.Injective (residue poly) := by
  intro a b hab
  have hdvd : bitsPoly poly ∣ bitsPoly (a ^^^ b) := by
    rw [← AdjoinRoot.mk_eq_zero, ← residue, residue_xor, hab, ← residue_xor, BitVec.xor_self, residue_zero]
  have hzero : bitsPoly (a ^^^ b) = 0 := by
    refine Polynomial.eq_zero_of_dvd_of_degree_lt hdvd ?_
    rw [degree_bitsPoly_of_degreeBit hpoly]
    exact degree_bitsPoly_lt _
  refine BitVec.xor_eq_zero_iff.mp (BitVec.eq_of_getLsbD_eq fun k _ => ?_)
  have hcoeff := coeff_bitsPoly (a ^^^ b) k
  rw [hzero, Polynomial.coeff_zero] at hcoeff
  cases hbit : (a ^^^ b).getLsbD k <;> simp_all

/-! What `gf_mul` takes over from the ring (40_gf256.md R115). -/

theorem gfMul_assoc (a b c : Byte) : gfMul poly (gfMul poly a b) c = gfMul poly a (gfMul poly b c) :=
  residue_injective hpoly (by simp only [residue_gfMul hpoly, mul_assoc])

theorem gfMul_zero (a : Byte) : gfMul poly a 0#8 = 0#8 :=
  residue_injective hpoly (by simp only [residue_gfMul hpoly, residue_zero, mul_zero])

theorem zero_gfMul (a : Byte) : gfMul poly 0#8 a = 0#8 :=
  residue_injective hpoly (by simp only [residue_gfMul hpoly, residue_zero, zero_mul])

/-! The inverse (40_gf256.md R113). -/

theorem residue_gfSquares (k : Nat) (sq acc : Byte) :
    residue poly (gfSquares poly k sq acc) = residue poly acc * residue poly sq ^ (2 ^ k - 1) := by
  induction k generalizing sq acc with
  | zero => simp [gfSquares]
  | succ k ih =>
    have hexp : 2 ^ (k + 1) - 1 = 1 + 2 * (2 ^ k - 1) := by
      have := Nat.one_le_two_pow (n := k)
      omega
    rw [gfSquares, ih, residue_gfMul hpoly, residue_gfMul hpoly, hexp]
    ring

/-- "It equals b^254" (40_gf256.md R113). -/
theorem residue_gfInv (b : Byte) : residue poly (gfInv poly b) = residue poly b ^ 254 := by
  have hone : residue poly 1 = 1 := residue_one poly
  rw [gfInv, residue_gfSquares hpoly, residue_gfMul hpoly, hone]
  ring

/-! Powers of the element x (00_scope.md R7). -/

/-- A step of `xPower` multiplies by x. -/
theorem residue_xTimes (e : Byte) :
    residue poly (xTimes poly e) = AdjoinRoot.root (bitsPoly poly) * residue poly e := by
  have hturn : xTimes poly e = (timesX poly (e.setWidth 9)).setWidth 8 := by
    have htop : (e.setWidth 9 <<< 1).getLsbD 8 = e.getLsbD 7 := by simp
    rw [xTimes, timesX, htop]
    cases e.getLsbD 7 <;> simp
  have hnarrow : ∀ k, 8 ≤ k → (timesX poly (e.setWidth 9)).getLsbD k = false := by
    intro k hk
    obtain rfl | hk := Nat.eq_or_lt_of_le hk
    · exact timesX_degreeBit hpoly _
    · exact BitVec.getLsbD_of_ge _ k hk
  have hwide : ∀ k, 9 ≤ k → e.getLsbD k = false := fun k hk => BitVec.getLsbD_of_ge e k (by omega)
  rw [residue, residue, hturn, bitsPoly_setWidth _ hnarrow, ← AdjoinRoot.mk_X, ← map_mul, AdjoinRoot.mk_eq_mk,
    ← bitsPoly_setWidth e hwide]
  exact bitsPoly_timesX (by simp)

theorem residue_xPower (k : Nat) : residue poly (xPower poly k) = AdjoinRoot.root (bitsPoly poly) ^ k := by
  induction k with
  | zero => exact residue_one poly
  | succ k ih => rw [xPower, residue_xTimes hpoly, ih, pow_succ']

end

/-- What `reachesOne` looks for. -/
theorem reachesOne_xPower_iff (poly : BitVec 9) (n i : Nat) :
    reachesOne poly n (xPower poly i) = true ↔ ∃ k, k < n ∧ xPower poly (i + k) = 1 := by
  induction n generalizing i with
  | zero => simp [reachesOne]
  | succ n ih =>
    have hnext : xTimes poly (xPower poly i) = xPower poly (i + 1) := rfl
    have hindex : ∀ k, i + 1 + k = i + (k + 1) := fun k => by omega
    rw [reachesOne, hnext, Bool.or_eq_true, beq_iff_eq, ih, Nat.exists_lt_succ_left]
    simp only [hindex, Nat.add_zero]

section
variable {poly : BitVec 9} (hpoly : primitive poly = true)
include hpoly

/-- With a primitive GF_POLY the element x has order 255 (00_scope.md R7). -/
theorem orderOf_root_of_primitive : orderOf (AdjoinRoot.root (bitsPoly poly)) = 255 := by
  have hbit := getLsbD_of_primitive hpoly
  simp only [primitive, Bool.and_eq_true, beq_iff_eq, Bool.not_eq_true'] at hpoly
  obtain ⟨⟨_, hfull⟩, hnone⟩ := hpoly
  rw [orderOf_eq_iff (by decide)]
  refine ⟨by rw [← residue_xPower hbit, hfull]; exact residue_one poly, fun k hk hpos hone => ?_⟩
  have hpower : xPower poly k = 1 :=
    residue_injective hbit (by rw [residue_xPower hbit, hone]; exact (residue_one poly).symm)
  refine Bool.eq_false_iff.mp hnone ((reachesOne_xPower_iff poly 254 1).mpr ⟨k - 1, by omega, ?_⟩)
  rwa [Nat.add_sub_cancel' hpos]

theorem xPower_injOn : Set.InjOn (xPower poly) (Finset.range 255 : Set Nat) := by
  have horder := orderOf_root_of_primitive hpoly
  intro i hi j hj hij
  refine pow_injOn_Iio_orderOf (x := AdjoinRoot.root (bitsPoly poly)) (by simpa [horder] using hi)
    (by simpa [horder] using hj) ?_
  simp only [← residue_xPower (getLsbD_of_primitive hpoly), hij]

/-- No power of x is 0, since x^255 = 1. -/
theorem xPower_ne_zero {k : Nat} (hk : k < 255) : xPower poly k ≠ 0#8 := by
  have hbit := getLsbD_of_primitive hpoly
  intro hzero
  have hroot : AdjoinRoot.root (bitsPoly poly) ^ k = 0 := by rw [← residue_xPower hbit, hzero, residue_zero]
  have hone : residue poly 1#8 = residue poly 0#8 := by
    rw [residue_one, residue_zero, ← pow_orderOf_eq_one (AdjoinRoot.root (bitsPoly poly)),
      orderOf_root_of_primitive hpoly]
    exact pow_eq_zero_of_le hk.le hroot
  exact absurd (residue_injective hbit hone) (by decide)

/-- Every nonzero byte is a power of x: there are 255 of either. -/
theorem exists_xPower_eq_of_ne_zero {b : Byte} (hb : b ≠ 0) : ∃ k, xPower poly k = b := by
  have hall : (Finset.range 255).image (xPower poly) = Finset.univ.erase 0 := by
    apply Finset.eq_of_subset_of_card_le
    · intro x hx
      obtain ⟨k, hk, rfl⟩ := Finset.mem_image.mp hx
      exact Finset.mem_erase.mpr ⟨xPower_ne_zero hpoly (Finset.mem_range.mp hk), Finset.mem_univ _⟩
    · rw [Finset.card_image_of_injOn (xPower_injOn hpoly), Finset.card_erase_of_mem (Finset.mem_univ _),
        Finset.card_range, Finset.card_univ, Fintype.card_congr BitVec.equivFin.toEquiv, Fintype.card_fin]
      decide
  have hmem : b ∈ (Finset.range 255).image (xPower poly) := by
    rw [hall]
    exact Finset.mem_erase.mpr ⟨hb, Finset.mem_univ _⟩
  obtain ⟨k, _, hk⟩ := Finset.mem_image.mp hmem
  exact ⟨k, hk⟩

/-! Division by a nonzero byte (40_gf256.md R113 and R114). -/

/-- A nonzero byte is a power of x, so b^255 = 1. -/
theorem gfMul_gfInv {b : Byte} (hb : b ≠ 0) : gfMul poly (gfInv poly b) b = 1#8 := by
  have hbit := getLsbD_of_primitive hpoly
  obtain ⟨k, rfl⟩ := exists_xPower_eq_of_ne_zero hpoly hb
  have hroot : AdjoinRoot.root (bitsPoly poly) ^ 255 = 1 := by
    rw [← orderOf_root_of_primitive hpoly, pow_orderOf_eq_one]
  apply residue_injective hbit
  calc residue poly (gfMul poly (gfInv poly (xPower poly k)) (xPower poly k))
      = residue poly (xPower poly k) ^ 255 := by
        rw [residue_gfMul hbit, residue_gfInv hbit, ← pow_succ]
    _ = (AdjoinRoot.root (bitsPoly poly) ^ 255) ^ k := by rw [residue_xPower hbit, ← pow_mul, ← pow_mul, Nat.mul_comm]
    _ = residue poly 1#8 := by rw [hroot, one_pow, residue_one]

/-- Division by a nonzero byte undoes multiplication. -/
theorem gfMul_gfDiv {b : Byte} (hb : b ≠ 0) (a : Byte) : gfMul poly (gfDiv poly a b) b = a := by
  have hbit := getLsbD_of_primitive hpoly
  apply residue_injective hbit
  rw [gfDiv, gfMul_assoc hbit, gfMul_gfInv hpoly hb, residue_gfMul hbit, residue_one, mul_one]

/-- A nonzero factor can be cancelled. -/
theorem gfMul_right_cancel {a a' b : Byte} (hb : b ≠ 0) (h : gfMul poly a b = gfMul poly a' b) : a = a' := by
  have hbit := getLsbD_of_primitive hpoly
  have hunit : residue poly (gfInv poly b) * residue poly b = 1 := by
    rw [← residue_gfMul hbit, gfMul_gfInv hpoly hb, residue_one]
  have hres : residue poly a * residue poly b = residue poly a' * residue poly b := by
    rw [← residue_gfMul hbit, h, residue_gfMul hbit]
  apply residue_injective hbit
  linear_combination (residue poly (gfInv poly b)) * hres - (residue poly a - residue poly a') * hunit

end

end Sys2Proof.Machine
end

section
/-! SUPPORT. PMEM after a list of byte writes that is made of blocks, one after the other (42_solver.md R181): each byte
is the one that the last block over it wrote. -/

namespace Sys2Proof.Machine

theorem Memory.writeAll_append (m : Memory) (cs cs' : List Host.Cell) :
    m.writeAll (cs ++ cs') = (m.writeAll cs).writeAll cs' := by
  induction cs generalizing m with
  | nil => rfl
  | cons c cs ih => exact ih _

theorem Memory.writeAll_cellsAt (m : Memory) (a : Nat) (bs : List Byte) :
    m.writeAll (cellsAt a bs) = m.writeBytes a bs := by
  induction bs generalizing m a with
  | nil => rfl
  | cons b bs ih => exact ih _ _

theorem cellsAt_append (a : Nat) (bs bs' : List Byte) :
    cellsAt a (bs ++ bs') = cellsAt a bs ++ cellsAt (a + bs.length) bs' := by
  induction bs generalizing a with
  | nil => rfl
  | cons b bs ih => simp [cellsAt, ih, Nat.add_right_comm a 1, Nat.add_assoc]

/-- A little-endian pair of bytes reads as the number that was written (20_memory.md R65). -/
theorem Memory.readLE_two {m : Memory} {a v : Nat} (h : ∀ k, k < 2 → m.read (a + k) = (leBytes 2 v).getD k 0) :
    m.readLE a 2 = v % 256 ^ 2 := by
  have hlow : m.read a = BitVec.ofNat 8 v := h 0 (by decide)
  have hhigh : m.read (a + 1) = BitVec.ofNat 8 (v / 256) := h 1 (by decide)
  rw [← leValue_leBytes, Memory.readLE]
  simp only [Memory.bytes, leBytes, hlow, hhigh]

/-- The byte writes of `n` blocks in order, block `k` the bytes `bytes k` at `base k`. -/
def blockCells (base : Nat → Nat) (bytes : Nat → List Byte) (n : Nat) : List Host.Cell :=
  (List.range n).flatMap fun k => cellsAt (base k) (bytes k)

/-- Whether block `k` holds the offset `x`. -/
abbrev InBlock (base : Nat → Nat) (bytes : Nat → List Byte) (x k : Nat) : Prop :=
  base k ≤ x ∧ x < base k + (bytes k).length

section
variable (m : Memory) (base : Nat → Nat) (bytes : Nat → List Byte)

theorem Memory.writeAll_blockCells_succ (n : Nat) :
    m.writeAll (blockCells base bytes (n + 1))
      = (m.writeAll (blockCells base bytes n)).writeBytes (base n) (bytes n) := by
  rw [blockCells, List.range_succ, List.flatMap_append, Memory.writeAll_append, List.flatMap_singleton,
    Memory.writeAll_cellsAt]
  rfl

variable {m base bytes} (hwf : m.wf = true) {n x : Nat}
include hwf

/-- A byte after one more block. -/
theorem Memory.read_writeAll_blockCells_succ :
    (m.writeAll (blockCells base bytes (n + 1))).read x =
      if base n ≤ x ∧ x < base n + (bytes n).length then (bytes n).getD (x - base n) 0
      else (m.writeAll (blockCells base bytes n)).read x := by
  rw [Memory.writeAll_blockCells_succ, Memory.read_writeBytes (Memory.wf_writeAll hwf _)]

/-- A byte that no block holds is as before. -/
theorem Memory.read_writeAll_outside (h : ∀ k, k < n → ¬InBlock base bytes x k) :
    (m.writeAll (blockCells base bytes n)).read x = m.read x := by
  induction n with
  | zero => rfl
  | succ n ih =>
    rw [Memory.read_writeAll_blockCells_succ hwf, if_neg (h n (Nat.lt_succ_self n)),
      ih fun k hk => h k (Nat.lt_succ_of_lt hk)]

/-- A byte of block `j` that no later block holds is block `j`'s. -/
theorem Memory.read_writeAll_block {j b : Nat} (hj : j < n) (hb : b < (bytes j).length)
    (h : ∀ k, j < k → k < n → ¬InBlock base bytes (base j + b) k) :
    (m.writeAll (blockCells base bytes n)).read (base j + b) = (bytes j).getD b 0 := by
  induction n with
  | zero => omega
  | succ n ih =>
    rw [Memory.read_writeAll_blockCells_succ hwf]
    obtain rfl | hjn := Nat.eq_or_lt_of_le (Nat.le_of_lt_succ hj)
    · rw [if_pos (by omega), Nat.add_sub_cancel_left]
    · rw [if_neg (h n hjn (Nat.lt_succ_self n)), ih hjn fun k hjk hk => h k hjk (Nat.lt_succ_of_lt hk)]

end

end Sys2Proof.Machine
end

section
/-! SUPPORT. ForwardEliminate (42_solver.md R177 and R178) and the matrix it starts from: every row that is not yet a pivot
is its first value with multiples of the pivot rows added, zero in the columns that are done, and no other multiples give
other values; so the row that is chosen is the lowest-numbered candidate that the statements speak of. -/

namespace Sys2Proof.Machine

/-! Sums of bytes. -/

theorem foldr_xor_init (f : Nat → Byte) (l : List Nat) (x : Byte) :
    l.foldr (fun k acc => f k ^^^ acc) x = l.foldr (fun k acc => f k ^^^ acc) 0#8 ^^^ x := by
  induction l with
  | nil => simp
  | cons k l ih => rw [List.foldr_cons, List.foldr_cons, ih, BitVec.xor_assoc]

theorem xorOver_zero (f : Nat → Byte) : xorOver 0 f = 0#8 := rfl

theorem xorOver_succ (n : Nat) (f : Nat → Byte) : xorOver (n + 1) f = xorOver n f ^^^ f n := by
  rw [xorOver, List.range_succ, List.foldr_append, foldr_xor_init]
  simp [xorOver]

theorem xorOver_congr {n : Nat} {f g : Nat → Byte} (h : ∀ k, k < n → f k = g k) : xorOver n f = xorOver n g := by
  induction n with
  | zero => rfl
  | succ n ih =>
    rw [xorOver_succ, xorOver_succ, ih fun k hk => h k (Nat.lt_succ_of_lt hk), h n (Nat.lt_succ_self n)]

theorem residue_xorOver (poly : BitVec 9) (n : Nat) (f : Nat → Byte) :
    residue poly (xorOver n f) = ∑ k ∈ Finset.range n, residue poly (f k) := by
  induction n with
  | zero => exact residue_zero poly
  | succ n ih => rw [xorOver_succ, residue_xor, ih, Finset.sum_range_succ]

/-! Rows with multiples of the pivot rows added. -/

section
variable {poly : BitVec 9} {a a' : Nat → Nat → Byte} {piv : List Nat} {f g : Nat → Byte} {i j : Nat}

theorem combined_nil : combined poly a [] f i j = a i j := by
  simp [combined, xorOver_zero]

theorem combined_append (p : Nat) :
    combined poly a (piv ++ [p]) f i j = combined poly a piv f i j ^^^ gfMul poly (f piv.length) (a p j) := by
  have hearlier : ∀ k, k < piv.length → (piv ++ [p]).getD k 0 = piv.getD k 0 := fun k hk =>
    List.getD_append piv [p] 0 k hk
  have hlast : (piv ++ [p]).getD piv.length 0 = p := by simp
  rw [combined, combined, List.length_append, List.length_singleton, xorOver_succ, hlast, BitVec.xor_assoc,
    xorOver_congr fun k hk => by rw [hearlier k hk]]

theorem combined_congr (h : ∀ k, k < piv.length → f k = g k) :
    combined poly a piv f i j = combined poly a piv g i j := by
  rw [combined, combined, xorOver_congr fun k hk => by rw [h k hk]]

/-- Adding `t` times a combination of row `p` to one of row `i` gives one of row `i` with row `p` among the pivots. -/
theorem combined_addScaled (hpoly : poly.getLsbD 8 = true) (t : Byte) (p : Nat) :
    combined poly a piv (fun k => f k ^^^ gfMul poly t (g k)) i j ^^^ gfMul poly t (a p j)
      = combined poly a piv f i j ^^^ gfMul poly t (combined poly a piv g p j) := by
  apply residue_injective hpoly
  simp only [combined, residue_xor, residue_gfMul hpoly, residue_xorOver, add_mul, mul_add, mul_assoc,
    Finset.sum_add_distrib, Finset.mul_sum]
  ring

end

/-! The choice of a pivot (42_solver.md R178). -/

theorem findPivot_eq_some {ws : List WorkRow} {used : List Nat} {j p : Nat} (h : findPivot ws used j = some p) :
    (p < ws.length ∧ p ∉ used ∧ entryAt ws p j ≠ 0) ∧ ∀ i, i < p → ¬(i ∉ used ∧ entryAt ws i j ≠ 0) := by
  rw [findPivot, List.find?_range_eq_some] at h
  simp only [Bool.and_eq_true, Bool.not_eq_true', List.contains_eq_mem, decide_eq_false_iff_not, bne_iff_ne,
    List.mem_range] at h
  obtain ⟨⟨hused, hentry⟩, hlt, hfirst⟩ := h
  refine ⟨⟨hlt, hused, hentry⟩, fun i hi ⟨hiu, hie⟩ => ?_⟩
  have hzero := hfirst i hi
  simp only [hiu, decide_false, Bool.not_false, Bool.true_and, bne_eq_false_iff_eq] at hzero
  exact hie hzero

/-! The working arrays keep their shape. -/

/-- Every row has `c` columns and `n` data bytes. -/
def Shaped (c n : Nat) (ws : List WorkRow) : Prop := ∀ w ∈ ws, w.coefs.length = c ∧ w.data.length = n

theorem Shaped.getD {c n : Nat} {ws : List WorkRow} (h : Shaped c n ws) {i : Nat} (hi : i < ws.length) :
    (ws.getD i WorkRow.none).coefs.length = c ∧ (ws.getD i WorkRow.none).data.length = n := by
  rw [List.getD_eq_getElem _ _ hi]
  exact h _ (List.getElem_mem hi)

theorem addRow_length {xs ys : List Byte} (h : ys.length = xs.length) : (addRow xs ys).length = xs.length := by
  simp [addRow, h]

@[simp] theorem scaleRow_length (poly : BitVec 9) (t : Byte) (xs : List Byte) : (scaleRow poly t xs).length = xs.length := by
  simp [scaleRow]

/-- An element of a row with a multiple of another row added. -/
theorem getD_addRow_scaleRow {poly : BitVec 9} {t : Byte} {xs ys : List Byte} (hlen : ys.length = xs.length) {j : Nat}
    (hj : j < xs.length) : (addRow xs (scaleRow poly t ys)).getD j 0 = xs.getD j 0 ^^^ gfMul poly t (ys.getD j 0) := by
  simp [addRow, scaleRow, gfAdd, List.getD_eq_getElem?_getD, hj, hlen]

section
variable {poly : BitVec 9} {c n p j : Nat} {ws : List WorkRow} {used : List Nat}

@[simp] theorem eliminateColumn_length : (eliminateColumn poly ws used p j).length = ws.length := by
  simp [eliminateColumn]

/-- Row `i` after column `j` is eliminated with the pivot row `p`. -/
theorem getD_eliminateColumn {i : Nat} (hi : i < ws.length) :
    (eliminateColumn poly ws used p j).getD i WorkRow.none =
      if i ∉ used ∧ entryAt ws i j ≠ 0 then
        WorkRow.addScaled poly (gfDiv poly (entryAt ws i j) (entryAt ws p j)) (ws.getD p WorkRow.none)
          (ws.getD i WorkRow.none)
      else ws.getD i WorkRow.none := by
  simp [eliminateColumn, entryAt, List.getD_eq_getElem?_getD, hi]

theorem shaped_iff_getD : Shaped c n ws ↔ ∀ i, i < ws.length →
    (ws.getD i WorkRow.none).coefs.length = c ∧ (ws.getD i WorkRow.none).data.length = n := by
  refine ⟨fun h i hi => h.getD hi, fun h w hw => ?_⟩
  obtain ⟨i, hi, rfl⟩ := List.mem_iff_getElem.mp hw
  simpa only [List.getD_eq_getElem _ _ hi] using h i hi

theorem Shaped.eliminateColumn (h : Shaped c n ws) (hp : p < ws.length) :
    Shaped c n (eliminateColumn poly ws used p j) := by
  rw [shaped_iff_getD, eliminateColumn_length]
  intro i hi
  obtain ⟨hic, hid⟩ := h.getD hi
  obtain ⟨hpc, hpd⟩ := h.getD hp
  rw [getD_eliminateColumn hi]
  split
  · rw [WorkRow.addScaled, addRow_length ((scaleRow_length _ _ _).trans (hpc.trans hic.symm)),
      addRow_length ((scaleRow_length _ _ _).trans (hpd.trans hid.symm))]
    exact ⟨hic, hid⟩
  · exact ⟨hic, hid⟩

/-- The entries after column `j` is eliminated: a row whose entry there is 0 has 0 times the pivot row added. -/
theorem entryAt_eliminateColumn (hpoly : poly.getLsbD 8 = true) (h : Shaped c n ws) (hp : p < ws.length) {i : Nat}
    (hi : i < ws.length) (hiu : i ∉ used) {j' : Nat} (hj' : j' < c) :
    entryAt (eliminateColumn poly ws used p j) i j'
      = entryAt ws i j' ^^^ gfMul poly (gfDiv poly (entryAt ws i j) (entryAt ws p j)) (entryAt ws p j') := by
  obtain ⟨hic, _⟩ := h.getD hi
  obtain ⟨hpc, _⟩ := h.getD hp
  rw [entryAt, getD_eliminateColumn hi]
  split
  · exact getD_addRow_scaleRow (hpc.trans hic.symm) (hic ▸ hj')
  · rename_i hzero
    have hentry : entryAt ws i j = 0#8 := Decidable.not_not.mp fun hne => hzero ⟨hiu, hne⟩
    rw [hentry, gfDiv, zero_gfMul hpoly, zero_gfMul hpoly, BitVec.xor_zero]
    rfl

end

/-! The invariant of ForwardEliminate. -/

/-- The working arrays `ws` once the columns before `piv.length` are eliminated, with the pivots `piv`, from a matrix `a` of
`r` rows and `c` columns. -/
structure EliminatedTo (poly : BitVec 9) (a : Nat → Nat → Byte) (r c n : Nat) (ws : List WorkRow)
    (piv : List Nat) : Prop where
  rows : ws.length = r
  shape : Shaped c n ws
  pivots : PivotRows poly a r piv.length piv
  /-- A row that is no pivot is its first value with multiples of the pivot rows added. -/
  reduced : ∀ i, i < r → i ∉ piv → ∃ f, ∀ j, j < c → entryAt ws i j = combined poly a piv f i j
  cleared : ∀ i, i < r → i ∉ piv → ∀ j, j < piv.length → entryAt ws i j = 0#8
  /-- The multiples that clear the columns that are done give one row. -/
  unique : ∀ i f g, (∀ j, j < piv.length → combined poly a piv f i j = 0) →
    (∀ j, j < piv.length → combined poly a piv g i j = 0) →
    ∀ j, j < c → combined poly a piv f i j = combined poly a piv g i j

/-- One more pivot. -/
theorem pivotRows_append {poly : BitVec 9} {a : Nat → Nat → Byte} {r p : Nat} {piv : List Nat}
    (h : PivotRows poly a r piv.length piv) (hp : p < r) (hcand : PivotCandidate poly a piv piv.length p)
    (hfirst : ∀ i, i < p → ¬PivotCandidate poly a piv piv.length i) :
    PivotRows poly a r (piv ++ [p]).length (piv ++ [p]) := by
  obtain ⟨_, hpiv⟩ := h
  refine ⟨rfl, fun j hj => ?_⟩
  obtain rfl | hlt : j = piv.length ∨ j < piv.length := by
    rw [List.length_append, List.length_singleton] at hj
    omega
  · simpa using ⟨hp, hcand, hfirst⟩
  · rw [List.getD_append _ _ _ _ hlt, List.take_append_of_le_length hlt.le]
    exact hpiv j hlt

section
variable {poly : BitVec 9} {a : Nat → Nat → Byte} {r c n : Nat} {ws : List WorkRow} {piv : List Nat}

/-- A row is a candidate exactly where the working arrays show it to be. -/
theorem EliminatedTo.candidate_iff (h : EliminatedTo poly a r c n ws piv) (hlt : piv.length < c) {i : Nat} (hi : i < r) :
    PivotCandidate poly a piv piv.length i ↔ i ∉ piv ∧ entryAt ws i piv.length ≠ 0 := by
  refine and_congr_right fun hip => ?_
  obtain ⟨f, hf⟩ := h.reduced i hi hip
  have hclear : ∀ j, j < piv.length → combined poly a piv f i j = 0 := fun j hj =>
    (hf j (hj.trans hlt)).symm.trans (h.cleared i hi hip j hj)
  rw [hf _ hlt]
  exact ⟨fun ⟨g, hg, hne⟩ => h.unique i g f hg hclear _ hlt ▸ hne, fun hne => ⟨f, hclear, hne⟩⟩

/-- Where nothing is eliminated yet. -/
theorem EliminatedTo.initial (hrows : ws.length = r) (hshape : Shaped c n ws)
    (hentry : ∀ i, i < r → ∀ j, j < c → entryAt ws i j = a i j) : EliminatedTo poly a r c n ws [] where
  rows := hrows
  shape := hshape
  pivots := ⟨rfl, fun j hj => absurd hj (Nat.not_lt_zero j)⟩
  reduced := fun i hi _ => ⟨fun _ => 0, fun j hj => by rw [combined_nil, hentry i hi j hj]⟩
  cleared := fun _ _ _ j hj => absurd hj (Nat.not_lt_zero j)
  unique := fun i f g _ _ j _ => by rw [combined_nil, combined_nil]

/-- A combination with the pivot row `p` is one without it and a multiple of any combination of row `p`. -/
theorem combined_append_eq (hpoly : poly.getLsbD 8 = true) (p i j : Nat) (f g : Nat → Byte) :
    combined poly a (piv ++ [p]) f i j =
      combined poly a piv (fun k => f k ^^^ gfMul poly (f piv.length) (g k)) i j
        ^^^ gfMul poly (f piv.length) (combined poly a piv g p j) := by
  rw [← combined_addScaled hpoly, combined_append]
  congr 1
  exact combined_congr fun k _ => by rw [BitVec.xor_assoc, BitVec.xor_self, BitVec.xor_zero]

/-- A combination and a multiple of one of row `p` are a combination with the pivot row `p`. -/
theorem exists_combined_append_eq (hpoly : poly.getLsbD 8 = true) (p i : Nat) (f g : Nat → Byte) (t : Byte) :
    ∃ f', ∀ j, combined poly a (piv ++ [p]) f' i j =
      combined poly a piv f i j ^^^ gfMul poly t (combined poly a piv g p j) := by
  refine ⟨fun k => if k < piv.length then f k ^^^ gfMul poly t (g k) else t, fun j => ?_⟩
  rw [← combined_addScaled hpoly, combined_append, if_neg (Nat.lt_irrefl _)]
  congr 1
  exact combined_congr fun k hk => if_pos hk

/-- The multiples stay unique: where the column of the new pivot is cleared too, the multiple of the pivot row is the one
that clears it. -/
theorem EliminatedTo.unique_append (hprim : primitive poly = true) (h : EliminatedTo poly a r c n ws piv)
    (hlt : piv.length < c) {p : Nat} (hp : p < r) (hpp : p ∉ piv) (hpe : entryAt ws p piv.length ≠ 0) (i : Nat)
    (f f' : Nat → Byte) (hf : ∀ j, j < (piv ++ [p]).length → combined poly a (piv ++ [p]) f i j = 0)
    (hf' : ∀ j, j < (piv ++ [p]).length → combined poly a (piv ++ [p]) f' i j = 0) (j : Nat) (hj : j < c) :
    combined poly a (piv ++ [p]) f i j = combined poly a (piv ++ [p]) f' i j := by
  have hpoly := getLsbD_of_primitive hprim
  obtain ⟨g, hg⟩ := h.reduced p hp hpp
  rw [List.length_append, List.length_singleton] at hf hf'
  have hclear : ∀ f : Nat → Byte, (∀ j, j < piv.length + 1 → combined poly a (piv ++ [p]) f i j = 0) →
      ∀ j, j < piv.length → combined poly a piv (fun k => f k ^^^ gfMul poly (f piv.length) (g k)) i j = 0 := by
    intro f hf j hj
    have hzero := hf j (Nat.lt_succ_of_lt hj)
    rwa [combined_append_eq hpoly p i j f g, ← hg j (hj.trans hlt), h.cleared p hp hpp j hj, gfMul_zero hpoly,
      BitVec.xor_zero] at hzero
  have hrest := h.unique i _ _ (hclear f hf) (hclear f' hf')
  have hfactor : f piv.length = f' piv.length := by
    apply gfMul_right_cancel hprim hpe
    have hsame := (hf piv.length (Nat.lt_succ_self _)).trans (hf' piv.length (Nat.lt_succ_self _)).symm
    rwa [combined_append_eq hpoly p i _ f g, combined_append_eq hpoly p i _ f' g, hrest _ hlt, BitVec.xor_right_inj,
      ← hg _ hlt] at hsame
  rw [combined_append_eq hpoly p i j f g, combined_append_eq hpoly p i j f' g, hrest j hj, hfactor]

/-- The choice of a pivot and the elimination of its column. -/
theorem EliminatedTo.step (hprim : primitive poly = true) (h : EliminatedTo poly a r c n ws piv) (hlt : piv.length < c)
    {p : Nat} (hfind : findPivot ws piv piv.length = some p) :
    EliminatedTo poly a r c n (eliminateColumn poly ws (piv ++ [p]) p piv.length) (piv ++ [p]) := by
  have hpoly := getLsbD_of_primitive hprim
  obtain ⟨⟨hpl, hpp, hpe⟩, hfirst⟩ := findPivot_eq_some hfind
  have hpr : p < r := h.rows ▸ hpl
  obtain ⟨g, hg⟩ := h.reduced p hpr hpp
  have hentry : ∀ i, i < r → i ∉ piv ++ [p] → ∀ j, j < c →
      entryAt (eliminateColumn poly ws (piv ++ [p]) p piv.length) i j = entryAt ws i j
        ^^^ gfMul poly (gfDiv poly (entryAt ws i piv.length) (entryAt ws p piv.length)) (entryAt ws p j) :=
    fun i hi hip j hj => entryAt_eliminateColumn hpoly h.shape hpl (h.rows.symm ▸ hi) hip hj
  have hold : ∀ i, i ∉ piv ++ [p] → i ∉ piv := fun i hip hmem => hip (List.mem_append_left _ hmem)
  refine ⟨eliminateColumn_length.trans h.rows, h.shape.eliminateColumn hpl, ?pivots, ?reduced, ?cleared, ?unique⟩
  case pivots =>
    exact pivotRows_append h.pivots hpr ((h.candidate_iff hlt hpr).mpr ⟨hpp, hpe⟩)
      fun i hi hcand => hfirst i hi ((h.candidate_iff hlt (hi.trans hpr)).mp hcand)
  case reduced =>
    intro i hi hip
    obtain ⟨f, hf⟩ := h.reduced i hi (hold i hip)
    obtain ⟨f', hf'⟩ := exists_combined_append_eq hpoly p i f g
      (gfDiv poly (entryAt ws i piv.length) (entryAt ws p piv.length))
    exact ⟨f', fun j hj => by rw [hentry i hi hip j hj, hf' j, hf j hj, hg j hj]⟩
  case cleared =>
    intro i hi hip j hj
    rw [List.length_append, List.length_singleton] at hj
    rw [hentry i hi hip j (by omega)]
    obtain rfl | hearlier : j = piv.length ∨ j < piv.length := by omega
    · rw [gfMul_gfDiv hprim hpe]
      exact BitVec.xor_self
    · rw [h.cleared i hi (hold i hip) j hearlier, h.cleared p hpr hpp j hearlier, gfMul_zero hpoly,
        BitVec.xor_zero]
  case unique => exact h.unique_append hprim hlt hpr hpp hpe

/-- ForwardEliminate over the columns that are left, where it finds a pivot for each. -/
theorem EliminatedTo.forwardEliminate (hprim : primitive poly = true) {left : Nat} {ws' : List WorkRow} {piv' : List Nat}
    (h : EliminatedTo poly a r c n ws piv) (hleft : piv.length + left = c)
    (hrun : forwardEliminate poly (List.range' piv.length left) ws piv = some (ws', piv')) :
    EliminatedTo poly a r c n ws' piv' ∧ piv'.length = c := by
  induction left generalizing ws piv with
  | zero =>
    obtain ⟨rfl, rfl⟩ : ws = ws' ∧ piv = piv' := by simpa [Machine.forwardEliminate] using hrun
    exact ⟨h, hleft⟩
  | succ left ih =>
    rw [List.range'_succ, Machine.forwardEliminate] at hrun
    split at hrun
    · cases hrun
    · rename_i p hfind
      refine ih (h.step hprim (by omega) hfind) ?_ ?_
      · rw [List.length_append, List.length_singleton]
        omega
      · simpa using hrun

end

end Sys2Proof.Machine
end

section
/-! SUPPORT and the statement of 42_solver.md on the write-back of SOLVE: the working arrays of the problem in PMEM, the
shape of its solution, the blocks that are written, and the pivots. -/

namespace Sys2Proof.Machine

/-! The problem in PMEM (20_memory.md R68 to R71; 42_solver.md R171 and R174). -/

/-- S is the greatest PLEN. -/
theorem solutionBytes_le_iff (p : Problem) (bound : Nat) : p.solutionBytes ≤ bound ↔ ∀ r ∈ p.rows, r.plen ≤ bound := by
  rw [Problem.solutionBytes]
  induction p.rows with
  | nil => simp
  | cons r rows ih =>
    rw [List.forall_mem_cons, ← ih]
    exact Nat.max_le

section
variable {m : Memory} {d r : Nat} (hr : m.readLE d 2 = r)
include hr

theorem problemAt_rows : (problemAt m d).rows = (List.range r).map fun i => rowEntryAt m (rowEntryAddr d i) := by
  rw [← hr]
  rfl

theorem problemAt_cols {c : Nat} (hc : m.readLE (d + 2) 2 = c) :
    (problemAt m d).cols = (List.range c).map fun j => colEntryAt m (colEntryAddr d r j) := by
  rw [← hr, ← hc]
  rfl

theorem problemAt_lost {c : Nat} (hc : m.readLE (d + 2) 2 = c) :
    (problemAt m d).lost = (List.range c).map (lostOf m d r) := by
  rw [Problem.lost, problemAt_cols hr hc, List.map_map]
  rfl

theorem solutionBytes_eq_of_longest {len : Nat} (h : LongestRow m d r len) : (problemAt m d).solutionBytes = len := by
  obtain ⟨hle, i, hi, hlen⟩ := h
  have hrows := problemAt_rows hr
  apply Nat.le_antisymm
  · rw [solutionBytes_le_iff, hrows, List.forall_mem_map]
    exact fun k hk => hle k (List.mem_range.mp hk)
  · rw [← hlen]
    refine (solutionBytes_le_iff _ _).mp (Nat.le_refl _) (rowEntryAt m (rowEntryAddr d i)) ?_
    rw [hrows]
    exact List.mem_map_of_mem (List.mem_range.mpr hi)

end

/-- An entry of M as the statements write it out. -/
theorem initCoef_rowEntryAt (cfg : Config) (m : Memory) (d i q : Nat) :
    (rowEntryAt m (rowEntryAddr d i)).initCoef cfg q = if inSpan m d i q then coefAt cfg (rowOf m d i) q else 0 := by
  simp only [RowEntry.initCoef, RowEntry.covers, coef_eq_coefAt, Bool.and_eq_true, decide_eq_true_eq]
  rfl

/-- EliminateOriginals keeps the number of data bytes (42_solver.md R176). -/
theorem eliminateReceived_length (cfg : Config) (m : Memory) (n : Nat) (r : RowEntry) (es : List RecvEntry)
    {data : List Byte} (h : data.length = n) : (eliminateReceived cfg m n r es data).length = n := by
  induction es generalizing data with
  | nil => exact h
  | cons e es ih =>
    refine ih ?_
    split
    · rw [addRow_length (by simp [RecvEntry.prefixedBytes, h]), h]
    · exact h

/-- The working arrays after EliminateOriginals, before any column is eliminated. -/
theorem eliminatedTo_eliminated (cfg : Config) {m : Memory} {d r c : Nat} (hr : m.readLE d 2 = r)
    (hc : m.readLE (d + 2) 2 = c) :
    EliminatedTo cfg.gfPoly (matrixAt cfg m d r) r c (problemAt m d).solutionBytes
      ((problemAt m d).eliminated cfg m) [] := by
  have hlost := problemAt_lost hr hc
  refine EliminatedTo.initial ?rows ?shape ?entries
  case rows => simp [Problem.eliminated, problemAt_rows hr]
  case shape =>
    intro w hw
    obtain ⟨e, _, rfl⟩ := List.mem_map.mp hw
    exact ⟨by simp [RowEntry.eliminated, RowEntry.initial, hlost],
      eliminateReceived_length _ _ _ _ _ (by simp [RowEntry.initial])⟩
  case entries =>
    intro i hi j hj
    have hentry : entryAt ((problemAt m d).eliminated cfg m) i j
        = (rowEntryAt m (rowEntryAddr d i)).initCoef cfg (lostOf m d r j) := by
      simp [entryAt, Problem.eliminated, problemAt_rows hr, RowEntry.eliminated, RowEntry.initial, hlost,
        List.getD_eq_getElem?_getD, hi, hj]
    rw [hentry, initCoef_rowEntryAt, matrixAt]

/-! BackSubstitute (42_solver.md R179). -/

/-- Every row has `n` data bytes. -/
def DataShaped (n : Nat) (ws : List WorkRow) : Prop := ∀ w ∈ ws, w.data.length = n

theorem DataShaped.subtractFrom {poly : BitVec 9} {n j : Nat} {x : List Byte} {earlier : List Nat} {ws : List WorkRow}
    (h : DataShaped n ws) (hx : x.length = n) : DataShaped n (subtractFrom poly j x earlier ws) := by
  intro w hw
  obtain ⟨⟨v, k⟩, hv, rfl⟩ := List.mem_map.mp hw
  have hdata := h v (List.fst_mem_of_mem_zipIdx hv)
  split
  · rw [addRow_length (by simp [hx, hdata]), hdata]
  · exact hdata

@[simp] theorem subtractFrom_length (poly : BitVec 9) (j : Nat) (x : List Byte) (earlier : List Nat) (ws : List WorkRow) :
    (subtractFrom poly j x earlier ws).length = ws.length := by
  simp [subtractFrom]

/-- BackSubstitute answers one array for each column, of as many bytes as the rows have. -/
theorem backSubstitute_shape {poly : BitVec 9} {piv : List Nat} {n : Nat} (k : Nat) (hk : k ≤ piv.length) :
    ∀ {ws : List WorkRow} {xs : List (List Byte)}, DataShaped n ws → (∀ p ∈ piv, p < ws.length) →
      (∀ x ∈ xs, x.length = n) →
      (backSubstitute poly piv k ws xs).length = k + xs.length ∧ ∀ x ∈ backSubstitute poly piv k ws xs, x.length = n := by
  induction k with
  | zero => exact fun _ _ hxs => ⟨(Nat.zero_add _).symm, hxs⟩
  | succ k ih =>
    intro ws xs hws hpiv hxs
    have hp : piv.getD k 0 < ws.length := by
      rw [List.getD_eq_getElem _ _ hk]
      exact hpiv _ (List.getElem_mem hk)
    have hdata : (ws.getD (piv.getD k 0) WorkRow.none).data.length = n := by
      rw [List.getD_eq_getElem _ _ hp]
      exact hws _ (List.getElem_mem hp)
    rw [backSubstitute]
    obtain ⟨hlen, hall⟩ := ih (Nat.le_of_succ_le hk) (hws.subtractFrom ((List.length_map _).trans hdata))
      (fun p hp => by rw [subtractFrom_length]; exact hpiv p hp)
      (List.forall_mem_cons.mpr ⟨(List.length_map _).trans hdata, hxs⟩)
    exact ⟨hlen.trans (by rw [List.length_cons]; omega), hall⟩

/-! The solution of the problem in PMEM. -/

section
variable {cfg : Config} {m : Memory} {d r c len : Nat} {xs : List (List Byte)} {piv : List Nat}
  (hcfg : cfg.wf = true) (hr : m.readLE d 2 = r) (hc : m.readLE (d + 2) 2 = c) (hlong : LongestRow m d r len)
  (hsol : (problemAt m d).solution cfg m = some (xs, piv))
include hcfg hr hc hlong hsol

/-- The pivots are those of R177 and R178, and each X_j has S bytes. -/
theorem solution_pivots_and_shape :
    PivotRows cfg.gfPoly (matrixAt cfg m d r) r c piv ∧ xs.length = c ∧ ∀ x ∈ xs, x.length = len := by
  obtain ⟨hprim, _⟩ := (config_wf_iff cfg).mp hcfg
  have hcols : (problemAt m d).cols.length = c := by simp [problemAt_cols hr hc]
  have hstart := eliminatedTo_eliminated cfg hr hc
  rw [solutionBytes_eq_of_longest hr hlong] at hstart
  rw [Problem.solution, hcols] at hsol
  split at hsol
  · cases hsol
  · rename_i ws piv' hrun
    obtain ⟨rfl, rfl⟩ : backSubstitute cfg.gfPoly piv' c ws [] = xs ∧ piv' = piv := by simpa using hsol
    rw [List.range_eq_range'] at hrun
    obtain ⟨hdone, hlen⟩ := hstart.forwardEliminate hprim (Nat.zero_add c) hrun
    have hpivots := hdone.pivots
    rw [hlen] at hpivots
    have hrange : ∀ p ∈ piv', p < ws.length := by
      obtain ⟨_, hchosen⟩ := hpivots
      intro p hp
      obtain ⟨k, hk, rfl⟩ := List.mem_iff_getElem.mp hp
      obtain ⟨hlt, _⟩ := hchosen k (hlen ▸ hk)
      rwa [List.getD_eq_getElem _ _ hk, ← hdone.rows] at hlt
    exact ⟨hpivots, backSubstitute_shape c hlen.ge (fun w hw => (hdone.shape w hw).2) hrange (by simp)⟩

end

/-! The write-back (42_solver.md R180 and R181). -/

/-- RLEN and CFLAGS of a column. -/
def columnOutput (xs : List (List Byte)) (j : Nat) : List Byte := leBytes 2 (storedLen (xs.getD j [])) ++ [0x01]

/-- RFLAGS of a row. -/
def rowOutput (piv : List Nat) (i : Nat) : List Byte := [if i ∈ piv then 0x01 else 0x00]

@[simp] theorem columnOutput_length (xs : List (List Byte)) (j : Nat) : (columnOutput xs j).length = 3 := by
  simp [columnOutput]

@[simp] theorem rowOutput_length (piv : List Nat) (i : Nat) : (rowOutput piv i).length = 1 := rfl

/-- PMEM after the write-back: the blocks of the payloads, of the columns' outputs and of the rows' outputs, in order. -/
def writtenBack (m : Memory) (d r c : Nat) (xs : List (List Byte)) (piv : List Nat) : Memory :=
  ((m.writeAll (blockCells (dstOf m d r) (fun j => recoveredPayload (xs.getD j [])) c)).writeAll
    (blockCells (fun j => d + 8 + 24 * r + 16 * j + 12) (columnOutput xs) c)).writeAll
    (blockCells (fun i => d + 8 + 24 * i + 11) (rowOutput piv) r)

/-- Every recovered payload fits S and its slot (42_solver.md R180). -/
def PayloadsFit (cfg : Config) (m : Memory) (d r c len : Nat) (xs : List (List Byte)) : Prop :=
  ∀ j, j < c → storedLen (xs.getD j []) + 2 ≤ len
    ∧ (storedLen (xs.getD j []) = 0 ∨ dstOf m d r j + storedLen (xs.getD j []) ≤ cfg.pmemBytes)

theorem eq_map_getD_range (xs : List (List Byte)) : xs = (List.range xs.length).map fun j => xs.getD j [] := by
  apply List.ext_getElem <;> simp +contextual [List.getD_eq_getElem?_getD]

/-- The second loop of R181 as blocks. -/
theorem columnCells_eq (d r : Nat) (xs : List (List Byte)) :
    columnCells d r xs = blockCells (fun j => d + 8 + 24 * r + 16 * j + 12) (columnOutput xs) xs.length := by
  have hzip : xs.zipIdx = (List.range xs.length).map fun j => (xs.getD j [], j) := by
    apply List.ext_getElem <;> simp +contextual [List.getD_eq_getElem?_getD]
  rw [columnCells, hzip, List.flatMap_map]
  simp only [blockCells, columnOutput, cellsAt_append]
  rfl

/-- The third loop of R181 as blocks. -/
theorem rowCells_eq (d r : Nat) (piv : List Nat) :
    rowCells d r piv = blockCells (fun i => d + 8 + 24 * i + 11) (rowOutput piv) r := by
  simp only [rowCells, blockCells, rowOutput, List.map_eq_flatMap, List.contains_eq_mem, decide_eq_true_eq]
  rfl

/-- A recovered payload that fits has L_j bytes. -/
theorem recoveredPayload_length {x : List Byte} (h : storedLen x + 2 ≤ x.length) :
    (recoveredPayload x).length = storedLen x := by
  have hlen : recoveredLen x = storedLen x := rfl
  rw [recoveredPayload, List.length_take, List.length_drop, hlen]
  omega

theorem getD_recoveredPayload {x : List Byte} {b : Nat} (hb : b < storedLen x) :
    (recoveredPayload x).getD b 0 = x.getD (2 + b) 0 := by
  have hlen : recoveredLen x = storedLen x := rfl
  simp [recoveredPayload, hlen, List.getD_eq_getElem?_getD, List.getElem?_take_of_lt hb]

section
variable {cfg : Config} {m : Memory} {d r c len : Nat} {xs : List (List Byte)} {piv : List Nat}

theorem zip_cols_eq (hr : m.readLE d 2 = r) (hc : m.readLE (d + 2) 2 = c) (hlen : xs.length = c) :
    (problemAt m d).cols.zip xs
      = (List.range c).map fun j => (colEntryAt m (colEntryAddr d r j), xs.getD j []) := by
  conv_lhs => rw [problemAt_cols hr hc, eq_map_getD_range xs, hlen]
  exact List.zip_map'

/-- The first loop of R181 as blocks. -/
theorem payloadCells_eq (hr : m.readLE d 2 = r) (hc : m.readLE (d + 2) 2 = c) (hlen : xs.length = c) :
    payloadCells (problemAt m d).cols xs = blockCells (dstOf m d r) (fun j => recoveredPayload (xs.getD j [])) c := by
  rw [payloadCells, zip_cols_eq hr hc hlen, List.flatMap_map]
  rfl

theorem extractionOk_of_fit (hr : m.readLE d 2 = r) (hc : m.readLE (d + 2) 2 = c) (hlen : xs.length = c)
    (hfit : PayloadsFit cfg m d r c len xs) : extractionOk cfg len (problemAt m d).cols xs = true := by
  rw [extractionOk, zip_cols_eq hr hc hlen, List.all_map, List.all_eq_true]
  intro j hj
  obtain ⟨hprefix, hslot⟩ := hfit j (List.mem_range.mp hj)
  exact Bool.and_eq_true_iff.mpr ⟨decide_eq_true hprefix, (inRange_iff _ _ _).mpr hslot⟩

/-- Payloads that fit, of arrays of S bytes, are written whole. -/
theorem payload_length_of_fit (hlen : xs.length = c) (hshape : ∀ x ∈ xs, x.length = len)
    (hfit : PayloadsFit cfg m d r c len xs) {j : Nat} (hj : j < c) :
    (recoveredPayload (xs.getD j [])).length = storedLen (xs.getD j []) := by
  obtain ⟨hprefix, _⟩ := hfit j hj
  refine recoveredPayload_length (hprefix.trans (hshape _ ?_).ge)
  rw [List.getD_eq_getElem _ _ (hlen ▸ hj)]
  exact List.getElem_mem _

/-- SOLVE with its checks passed, its pivots found and its payloads fit. -/
theorem execSolve_of_solution {s : State} (hd : s.latch.larg0.toNat = d) (hr : s.pmem.readLE d 2 = r)
    (hc : s.pmem.readLE (d + 2) 2 = c) (hchecks : solveFailure s.cfg s.pmem d = none)
    (hsol : (problemAt s.pmem d).solution s.cfg s.pmem = some (xs, piv)) (hlong : LongestRow s.pmem d r len)
    (hlen : xs.length = c) (hfit : PayloadsFit s.cfg s.pmem d r c len xs) :
    execSolve s = .next ((s.setPmem (writtenBack s.pmem d r c xs piv)).complete .success
      { r0 := BitVec.ofNat 32 c, r1 := BitVec.ofNat 32 len, r2 := 0, r3 := 0 }) := by
  have hrows : (problemAt s.pmem d).rows.length = r := by simp [problemAt_rows hr]
  have hcols : (problemAt s.pmem d).cols.length = c := by simp [problemAt_cols hr hc]
  have hbytes := solutionBytes_eq_of_longest hr hlong
  have hcells : payloadCells (problemAt s.pmem d).cols xs ++ columnCells d r xs ++ rowCells d r piv
      = blockCells (dstOf s.pmem d r) (fun j => recoveredPayload (xs.getD j [])) c
        ++ blockCells (fun j => d + 8 + 24 * r + 16 * j + 12) (columnOutput xs) c
        ++ blockCells (fun i => d + 8 + 24 * i + 11) (rowOutput piv) r := by
    rw [payloadCells_eq hr hc hlen, columnCells_eq, rowCells_eq, hlen]
  have houtcome : solveOutcome s.cfg s.pmem (argA s) = .solved
      (payloadCells (problemAt s.pmem d).cols xs ++ columnCells d r xs ++ rowCells d r piv) c len := by
    rw [argA, hd, solveOutcome, hchecks]
    simp only [solveProblem, hsol, hbytes, extractionOk_of_fit hr hc hlen hfit, hrows, hcols, if_true]
  rw [execSolve, houtcome, hcells]
  simp only [Memory.writeAll_append, writtenBack, Results.zero]

end

/-! Every byte after the write-back. -/

section
variable {m : Memory} {d r c : Nat} {xs : List (List Byte)} {piv : List Nat} (hwf : m.wf = true)
include hwf

theorem read_writtenBack_row {i : Nat} (hi : i < r) :
    (writtenBack m d r c xs piv).read (d + 8 + 24 * i + 11) = if i ∈ piv then 0x01 else 0x00 := by
  rw [writtenBack]
  exact Memory.read_writeAll_block (base := fun i => d + 8 + 24 * i + 11) (b := 0)
    (Memory.wf_writeAll (Memory.wf_writeAll hwf _) _) hi Nat.zero_lt_one
    fun k hk _ => by simp only [InBlock, rowOutput_length]; omega

/-- A byte that is no row's output is as the columns' outputs leave it. -/
theorem read_writtenBack_of_no_row {x : Nat} (h : ∀ i, i < r → x ≠ d + 8 + 24 * i + 11) :
    (writtenBack m d r c xs piv).read x =
      ((m.writeAll (blockCells (dstOf m d r) (fun j => recoveredPayload (xs.getD j [])) c)).writeAll
        (blockCells (fun j => d + 8 + 24 * r + 16 * j + 12) (columnOutput xs) c)).read x := by
  rw [writtenBack, Memory.read_writeAll_outside (Memory.wf_writeAll (Memory.wf_writeAll hwf _) _)]
  intro i hi
  have hne := h i hi
  simp only [InBlock, rowOutput_length]
  omega

theorem read_writtenBack_column {j b : Nat} (hj : j < c) (hb : b < 3) :
    (writtenBack m d r c xs piv).read (d + 8 + 24 * r + 16 * j + 12 + b) = (columnOutput xs j).getD b 0 := by
  rw [read_writtenBack_of_no_row hwf (fun i hi => by omega)]
  exact Memory.read_writeAll_block (base := fun j => d + 8 + 24 * r + 16 * j + 12) (Memory.wf_writeAll hwf _) hj
    (hb.trans_eq (columnOutput_length xs j).symm) fun k hk _ => by simp only [InBlock, columnOutput_length]; omega

/-- A byte that is no row's and no column's output is as the payloads leave it. -/
theorem read_writtenBack_of_no_entry {x : Nat} (hrow : ∀ i, i < r → x ≠ d + 8 + 24 * i + 11)
    (hcol : ∀ k, k < c → ¬(d + 8 + 24 * r + 16 * k + 12 ≤ x ∧ x < d + 8 + 24 * r + 16 * k + 15)) :
    (writtenBack m d r c xs piv).read x =
      (m.writeAll (blockCells (dstOf m d r) (fun j => recoveredPayload (xs.getD j [])) c)).read x := by
  rw [read_writtenBack_of_no_row hwf hrow, Memory.read_writeAll_outside (Memory.wf_writeAll hwf _)]
  intro k hk
  rw [InBlock, columnOutput_length]
  exact hcol k hk

/-- RLEN of a column. -/
theorem readLE_writtenBack_column {j : Nat} (hj : j < c) :
    (writtenBack m d r c xs piv).readLE (d + 8 + 24 * r + 16 * j + 12) 2 = storedLen (xs.getD j []) := by
  have hbound : storedLen (xs.getD j []) < 256 ^ 2 := by
    have hlow := ((xs.getD j []).getD 0 0).isLt
    have hhigh := ((xs.getD j []).getD 1 0).isLt
    rw [storedLen]
    omega
  rw [← Nat.mod_eq_of_lt hbound]
  refine Memory.readLE_two fun k hk => ?_
  rw [read_writtenBack_column hwf hj (Nat.lt_succ_of_lt hk), columnOutput,
    List.getD_append _ _ _ _ (hk.trans_eq (leBytes_length 2 _).symm)]

variable (hpayload : ∀ j, j < c → (recoveredPayload (xs.getD j [])).length = storedLen (xs.getD j []))
include hpayload

/-- A recovered byte that no later write covers. -/
theorem read_writtenBack_payload {j b : Nat} (hj : j < c) (hb : b < storedLen (xs.getD j []))
    (hlater : ∀ k, j < k → k < c → ¬(dstOf m d r k ≤ dstOf m d r j + b
      ∧ dstOf m d r j + b < dstOf m d r k + storedLen (xs.getD k [])))
    (hcol : ∀ k, k < c → ¬(d + 8 + 24 * r + 16 * k + 12 ≤ dstOf m d r j + b
      ∧ dstOf m d r j + b < d + 8 + 24 * r + 16 * k + 15))
    (hrow : ∀ i, i < r → dstOf m d r j + b ≠ d + 8 + 24 * i + 11) :
    (writtenBack m d r c xs piv).read (dstOf m d r j + b) = (xs.getD j []).getD (2 + b) 0 := by
  rw [read_writtenBack_of_no_entry hwf hrow hcol,
    Memory.read_writeAll_block hwf hj (hb.trans_eq (hpayload j hj).symm), getD_recoveredPayload hb]
  intro k hjk hk
  rw [InBlock, hpayload k hk]
  exact hlater k hjk hk

/-- A byte that is no output is as before. -/
theorem read_writtenBack_of_no_output {x : Nat} (h : ¬solveOutput m d r c xs x) :
    (writtenBack m d r c xs piv).read x = m.read x := by
  rw [solveOutput, not_or, not_or] at h
  obtain ⟨hpay, hcol, hrow⟩ := h
  rw [read_writtenBack_of_no_entry hwf (fun i hi hx => hrow ⟨i, hi, hx⟩) fun k hk hx => hcol ⟨k, hk, hx⟩,
    Memory.read_writeAll_outside hwf]
  intro k hk hx
  rw [InBlock, hpayload k hk] at hx
  exact hpay ⟨k, hk, hx⟩

end

/-- Settles O39: elimination chooses the pivots of R177 and R178 and gives arrays of S bytes; SOLVE then writes the blocks of
R181, and every byte of PMEM is the last block's over it. -/
theorem solveWritesBack : Obligations.SolveWritesBack := by
  refine ⟨decode_encode .solve, ?_⟩
  intro s d r c len xs piv hcfg hwf hd hr hc hchecks hsol hlong hfit
  obtain ⟨hpivots, hlen, hshape⟩ := solution_pivots_and_shape hcfg hr hc hlong hsol
  have hpayload : ∀ j, j < c → (recoveredPayload (xs.getD j [])).length = storedLen (xs.getD j []) :=
    fun j hj => payload_length_of_fit hlen hshape hfit hj
  refine ⟨hpivots, _, execSolve_of_solution hd hr hc hchecks hsol hlong hlen hfit,
    completed_after_writes s (writtenBack s.pmem d r c xs piv) s.enc _, rfl, ⟨rfl, rfl⟩, fun j hj => ⟨?rlen, ?cflags⟩,
    fun i hi => ?rflags, fun j b hj hb hlater hcol hrow => ?payload, fun a ha => ?frame⟩
  case rlen => exact readLE_writtenBack_column hwf hj
  case cflags => exact read_writtenBack_column (b := 2) hwf hj (by decide)
  case rflags => exact read_writtenBack_row hwf hi
  case payload => exact read_writtenBack_payload hwf hpayload hj hb hlater hcol hrow
  case frame => exact read_writtenBack_of_no_output hwf hpayload ha

end Sys2Proof.Machine
end

section
/-! SUPPORT and the statement of 43_control.md on NOP. -/

namespace Sys2Proof.Machine

/-- The meaning of NOP (43_control.md R200). -/
theorem exec_nop (s : State) : exec .nop s = .next (s.complete .success Results.zero) := rfl

/-- Settles O18: the NOP word is the encoder's, and a completion with SUCCESS only reports. -/
theorem nopOnlyCompletes : Obligations.NopOnlyCompletes :=
  ⟨decode_encode .nop, fun s => ⟨_, exec_nop s, onlyReported_success s Results.zero⟩⟩

end Sys2Proof.Machine
end

section
/-! SUPPORT and the statement of 60_exceptions.md on illegal words. -/

namespace Sys2Proof.Machine

/-- The spelling of 30_encoding.md R93 in terms of the four fields. -/
theorem spellsCommand_fields (w : Word) :
    spellsCommand w = (definedOpcodes.contains (fieldOp w) && fieldZ w == 0
      && (opcodesWithA.contains (fieldOp w) || fieldA w == 0)
      && (opcodesWithB.contains (fieldOp w) || fieldB w == 0)) := rfl

/-- A word that decodes to a command spells one: the command's opcode is defined, and an operand it lacks is 0. -/
theorem spellsCommand_of_decode {w : Word} {i : Instr} (h : decode w = .command i) : spellsCommand w = true := by
  obtain ⟨hz, hop, ha, hb⟩ := Laws.decode_command h
  rw [spellsCommand_fields, hz, hop, ha, hb]
  cases i <;> rfl

/-- A word that spells no command decodes to none. -/
theorem decode_illegal_of_not_spells {w : Word} (h : spellsCommand w = false) : ∃ why, decode w = .illegal why := by
  cases hd : decode w with
  | command i => exact absurd (spellsCommand_of_decode hd) (ne_true_of_eq_false h)
  | illegal why => exact ⟨why, rfl⟩

/-- On the engine's turn the step is the engine's, with the schedule moved on. -/
theorem step_of_engine_turn {s : State} (h : s.turn = .engine) : step s = engineTurn s.nextTurn := by
  rw [step, h, takeTurn]

/-- The engine reports a latched illegal word (60_exceptions.md R211). -/
theorem engineTurn_of_illegal {s : State} {why : IllegalWord} (hbusy : s.latch.busy = true)
    (hd : decode s.latch.lcmd = .illegal why) : engineTurn s = .next (s.raise .illegalCommand) := by
  rw [engineTurn, if_pos hbusy, hd, completeIllegal]

/-- Settles O5: the decoder finds no command, and the engine's answer is a `raise`, which only reports. -/
theorem illegalWordsComplete : Obligations.IllegalWordsComplete := by
  intro s hturn hbusy hspell
  obtain ⟨why, hd⟩ := decode_illegal_of_not_spells hspell
  have hstep : step s = .next (s.nextTurn.raise .illegalCommand) :=
    (step_of_engine_turn hturn).trans (engineTurn_of_illegal hbusy hd)
  exact ⟨_, hstep, onlyReported_raise s.nextTurn .illegalCommand, rfl⟩

end Sys2Proof.Machine
end

section
/-! SUPPORT and the statement of 70_reset_and_hazards.md on PMEM accesses while busy: where a well-placed host access to
PMEM goes, and what it is answered with. -/

namespace Sys2Proof.Machine

section
variable {s : State} {a n : Nat} (hsize : n = 1 ∨ n = 2 ∨ n = 4) (hal : a % n = 0) (hfit : a + n ≤ s.cfg.pmemBytes)
  (hpmem : s.cfg.pmemBytes ≤ 0x100000)
include hsize hal hfit hpmem

/-- An aligned access of 1, 2 or 4 bytes inside PMEM lies in the aperture past the register region and is no bus error
(20_memory.md R63 and R64). -/
theorem target_of_wellPlaced : target s.cfg (pmemBase + a) n = .pmem a := by
  have hreg : ¬pmemBase + a < regRegionBytes := by simp only [pmemBase, regRegionBytes]; omega
  have hbase : ¬pmemBase + a < pmemBase := Nat.not_lt.mpr (Nat.le_add_right _ _)
  have haperture : pmemBase + a < apertureBytes := by simp only [pmemBase, apertureBytes]; omega
  have hplaced : (n = 1 ∨ n = 2 ∨ n = 4) ∧ a % n = 0 ∧ a + n ≤ s.cfg.pmemBytes := ⟨hsize, hal, hfit⟩
  rw [target, if_neg hreg, if_neg hbase, if_pos haperture, Nat.add_sub_cancel_left, if_pos hplaced]

/-- A well-placed host read of PMEM: refused while busy, otherwise the bytes of PMEM. -/
theorem busRead_of_wellPlaced : busRead s (pmemBase + a) n =
    if s.latch.busy then .refused .pmemAccessWhileBusy else .ok (BitVec.ofNat 32 (s.pmem.readLE a n)) := by
  simp only [busRead, target_of_wellPlaced hsize hal hfit hpmem]

/-- A well-placed host write to PMEM: refused while busy, otherwise a write of the bytes of PMEM. -/
theorem busWrite_of_wellPlaced (v : Word) : busWrite s (pmemBase + a) n v =
    if s.latch.busy then .refused .pmemAccessWhileBusy else .ok (s.setPmem (s.pmem.writeLE a n v.toNat)) := by
  simp only [busWrite, target_of_wellPlaced hsize hal hfit hpmem]

end

/-- Settles O51: a well-placed access reaches PMEM, where busy alone decides between refusal and an answer. -/
theorem pmemAccessRefusedWhileBusy : Obligations.PmemAccessRefusedWhileBusy := by
  intro s a n v hsize hal hfit hpmem
  have hread := busRead_of_wellPlaced hsize hal hfit hpmem
  have hwrite := busWrite_of_wellPlaced hsize hal hfit hpmem v
  constructor
  · intro hbusy
    exact ⟨hread.trans (if_pos hbusy), hwrite.trans (if_pos hbusy)⟩
  · intro hidle
    have hnot : ¬s.latch.busy = true := ne_true_of_eq_false hidle
    exact ⟨⟨_, hread.trans (if_neg hnot)⟩, ⟨_, hwrite.trans (if_neg hnot)⟩⟩

end Sys2Proof.Machine
end

section
/-! SUPPORT and the statements of 30_encoding.md on the encoder and the decoder: the decoder reads back every command, and a
word that it reads as a command is the encoder's. -/

namespace Sys2Proof.Machine

/-- Settles O1: the fields of a command's word are its opcode, its operands and 0. -/
theorem decodeInvertsEncode : Obligations.DecodeInvertsEncode := decode_encode

/-- The opcode map answers a command where the fields that its rows mark 0 are 0. -/
theorem decodeOp_of_spells {op a b : Byte} (hop : op ∈ definedOpcodes) (ha : op ∈ opcodesWithA ∨ a = 0)
    (hb : op ∈ opcodesWithB ∨ b = 0) : ∃ i, decodeOp op a b = .command i := by
  simp only [definedOpcodes, List.mem_cons, List.not_mem_nil, or_false] at hop
  rcases hop with rfl | rfl | rfl | rfl | rfl | rfl | rfl | rfl | rfl | rfl | rfl | rfl <;>
    simp only [opcodesWithA, opcodesWithB, List.mem_cons, List.not_mem_nil, or_false, BitVec.reduceEq, or_self, or_true,
      true_or, false_or] at ha hb <;>
    simp [decodeOp, decodePlain, decodeA, decodeAB, ha, hb]

/-- A word that spells a command decodes to one. -/
theorem decode_of_spellsCommand {w : Word} (h : spellsCommand w = true) : ∃ i, decode w = .command i := by
  simp only [spellsCommand_fields, Bool.and_eq_true, Bool.or_eq_true, beq_iff_eq, List.contains_iff_mem] at h
  obtain ⟨⟨⟨hop, hz⟩, ha⟩, hb⟩ := h
  obtain ⟨i, hi⟩ := decodeOp_of_spells hop ha hb
  exact ⟨i, by rw [decode, hz, hi, if_neg (not_not_intro rfl)]⟩

/-- A word that decodes to a command is the command's word: it is made of its fields. -/
theorem encode_of_decode {w : Word} {i : Instr} (h : decode w = .command i) : encode i = w := by
  obtain ⟨hz, hop, ha, hb⟩ := Laws.decode_command h
  rw [Laws.word_of_fields w, hz, hop, ha, hb, encode]
  simp

/-- Settles O2: both directions of the spelling, and the fields of a word that decodes. -/
theorem wordsSpellOneCommand : Obligations.WordsSpellOneCommand := fun _ =>
  ⟨⟨decode_of_spellsCommand, fun ⟨_, hi⟩ => spellsCommand_of_decode hi⟩, fun _ => encode_of_decode⟩

/-- Settles O3: the nine words are the encoder's for their commands, and the decoder's tests refuse the other two. -/
theorem tableWordsDecode : Obligations.TableWordsDecode :=
  ⟨decode_encode .nop, decode_encode (.gfAdd 0x53 0xCA), decode_encode (.gfDiv 0x53 0xCA),
    decode_encode (.gfCauchy 0x55 0x2A), decode_encode (.muladdMem 0x02), decode_encode (.mulMem 0x53),
    decode_encode (.genRow 0x01), decode_encode .encRecovery, decode_encode .solve, by decide, by decide⟩

end Sys2Proof.Machine
end

section
/-! SUPPORT and the statements of 30_encoding.md, 60_exceptions.md R210 and 70_reset_and_hazards.md R242 on every command: the
three ways a command can end, with the registers, the encoder and the bytes of PMEM that each of them writes. -/

namespace Sys2Proof.Machine

/-! Which bytes a command writes. -/

theorem cellsAt_fst (a : Nat) (bs : List Byte) : (cellsAt a bs).map Prod.fst = List.range' a bs.length := by
  induction bs generalizing a with
  | nil => rfl
  | cons b bs ih => simp [cellsAt, ih, List.range'_succ]

/-- The ascending loop is a list of byte writes to dst, dst + 1, and so on. -/
theorem exists_bulkLoop_eq_writeAll (f : Byte → Byte → Byte) (dst src n : Nat) (m : Memory) :
    ∃ cells, bulkLoop f dst src n m = m.writeAll cells ∧ cells.map Prod.fst = List.range' dst n := by
  induction n generalizing dst src m with
  | zero => exact ⟨[], rfl, rfl⟩
  | succ n ih =>
    obtain ⟨cells, hloop, haddr⟩ := ih (dst + 1) (src + 1) (m.write dst (f (m.read dst) (m.read src)))
    exact ⟨(dst, f (m.read dst) (m.read src)) :: cells, hloop, by rw [List.map_cons, haddr, List.range'_succ]⟩

/-- A recovery packet is a list of byte writes to dst, dst + 1, and so on. -/
theorem RowJob.exists_writtenTo_eq_writeAll (job : RowJob) (cfg : Config) (m : Memory) :
    ∃ cells, job.writtenTo cfg m = m.writeAll cells ∧ cells.map Prod.fst = job.touched :=
  ⟨cellsAt job.dst (rowPayload cfg m job.row job.es), (Memory.writeAll_cellsAt _ _ _).symm, by
    rw [cellsAt_fst, rowPayload, List.length_map, List.length_range, RowJob.touched]⟩

/-! The checks of the commands: where one fails, with which code. -/

theorem bulkFailure_code {s : State} {code : ResultCode} (h : bulkFailure s = some code) : code = .invalidInput := by
  have hsome := bulkFailure_eq_some (s := s) (by simp [h])
  exact Option.some.inj (h.symm.trans hsome)

/-- A failing sequence of checks reports the code of one of them. -/
theorem of_ite_some_eq_some {c P : Prop} [Decidable c] {code x : ResultCode} {rest : Option ResultCode}
    (h : (if c then some x else rest) = some code) (hx : x = code → P) (hrest : rest = some code → P) : P := by
  split at h
  · exact hx (Option.some.inj h)
  · exact hrest h

theorem genRowFailure_code {row : Byte} {s : State} {code : ResultCode} (h : genRowFailure row s = some code) :
    code = .invalidInput ∨ code = .degenerate := by
  refine of_ite_some_eq_some h (fun e => .inl e.symm) fun h => ?_
  refine of_ite_some_eq_some h (fun e => .inl e.symm) fun h => ?_
  refine of_ite_some_eq_some h (fun e => .inl e.symm) fun h => ?_
  refine of_ite_some_eq_some h (fun e => .inl e.symm) fun h => ?_
  refine of_ite_some_eq_some h (fun e => .inr e.symm) fun h => ?_
  exact of_ite_some_eq_some h (fun e => .inl e.symm) nofun

theorem encOriginalFailure_code {s : State} {code : ResultCode} (h : encOriginalFailure s = some code) :
    code = .invalidInput :=
  of_ite_some_eq_some h (fun e => e.symm) nofun

theorem encRecoveryFailure_code {s : State} {code : ResultCode} (h : encRecoveryFailure s = some code) :
    code = .needsMoreData ∨ code = .invalidInput ∨ code = .degenerate := by
  refine of_ite_some_eq_some h (fun e => .inl e.symm) fun h => ?_
  refine of_ite_some_eq_some h (fun e => .inl e.symm) fun h => ?_
  refine of_ite_some_eq_some h (fun e => .inr (.inr e.symm)) fun h => ?_
  exact of_ite_some_eq_some h (fun e => .inr (.inl e.symm)) nofun

theorem problem_failure_code {cfg : Config} {p : Problem} {code : ResultCode} (h : p.failure cfg = some code) :
    code = .invalidInput ∨ code = .degenerate := by
  refine of_ite_some_eq_some h (fun e => .inl e.symm) fun h => ?_
  refine of_ite_some_eq_some h (fun e => .inl e.symm) fun h => ?_
  refine of_ite_some_eq_some h (fun e => .inl e.symm) fun h => ?_
  refine of_ite_some_eq_some h (fun e => .inl e.symm) fun h => ?_
  refine of_ite_some_eq_some h (fun e => .inl e.symm) fun h => ?_
  exact of_ite_some_eq_some h (fun e => .inr e.symm) nofun

theorem solveFailure_code {cfg : Config} {m : Memory} {d : Nat} {code : ResultCode}
    (h : solveFailure cfg m d = some code) : code = .invalidInput ∨ code = .degenerate := by
  refine of_ite_some_eq_some h (fun e => .inl e.symm) fun h => ?_
  refine of_ite_some_eq_some h (fun e => .inl e.symm) fun h => ?_
  exact of_ite_some_eq_some h (fun e => .inl e.symm) problem_failure_code

/-- Where SOLVE ends otherwise than with a failing check, its checks hold and the problem at `d` decides. -/
theorem solveOutcome_cases (cfg : Config) (m : Memory) (d : Nat) :
    (∃ code, solveFailure cfg m d = some code ∧ solveOutcome cfg m d = .failed code)
      ∨ (solveFailure cfg m d = none ∧ (problemAt m d).solution cfg m = none
        ∧ solveOutcome cfg m d = .rankDeficient ((problemAt m d).lost.headD 0))
      ∨ ∃ xs piv, solveFailure cfg m d = none ∧ (problemAt m d).solution cfg m = some (xs, piv)
        ∧ ((extractionOk cfg (problemAt m d).solutionBytes (problemAt m d).cols xs = false
            ∧ solveOutcome cfg m d = .failed .invalidInput)
          ∨ (extractionOk cfg (problemAt m d).solutionBytes (problemAt m d).cols xs = true
            ∧ solveOutcome cfg m d = .solved
              (payloadCells (problemAt m d).cols xs ++ columnCells d (problemAt m d).rows.length xs
                ++ rowCells d (problemAt m d).rows.length piv)
              (problemAt m d).cols.length (problemAt m d).solutionBytes)) := by
  cases hchecks : solveFailure cfg m d with
  | some code => exact .inl ⟨code, rfl, by rw [solveOutcome, hchecks]⟩
  | none =>
    refine .inr ?_
    cases hsol : (problemAt m d).solution cfg m with
    | none => exact .inl ⟨rfl, rfl, by simp only [solveOutcome, hchecks, solveProblem, hsol]⟩
    | some sol =>
      obtain ⟨xs, piv⟩ := sol
      refine .inr ⟨xs, piv, rfl, rfl, ?_⟩
      cases hfit : extractionOk cfg (problemAt m d).solutionBytes (problemAt m d).cols xs with
      | false => exact .inl ⟨rfl, by simp [solveOutcome, hchecks, solveProblem, hsol, hfit]⟩
      | true => exact .inr ⟨rfl, by simp [solveOutcome, hchecks, solveProblem, hsol, hfit]⟩

theorem solveOutcome_code {cfg : Config} {m : Memory} {d : Nat} {code : ResultCode}
    (h : solveOutcome cfg m d = .failed code) : code = .invalidInput ∨ code = .degenerate := by
  obtain ⟨c, hchecks, ho⟩ | ⟨_, _, ho⟩ | ⟨_, _, _, _, ⟨_, ho⟩ | ⟨_, ho⟩⟩ := solveOutcome_cases cfg m d
  · obtain rfl : c = code := SolveOutcome.failed.inj (ho.symm.trans h)
    exact solveFailure_code hchecks
  · cases ho.symm.trans h
  · exact .inl (SolveOutcome.failed.inj (ho.symm.trans h)).symm
  · cases ho.symm.trans h

/-! The three ways a command can end. -/

/-- The encoder after a command that succeeds (41_rowgen_encoder.md R151, R155 and R160). -/
def encoderAfter (i : Instr) (s : State) : Encoder :=
  match i with
  | .encOriginal => s.enc.append s.cfg s.latch.larg0 (argB s)
  | .encRecovery => s.enc.emitted s.enc.recoveryRow
  | .encReset => s.enc.restarted
  | _ => s.enc

/-- A command reports a failed check and does no more. -/
def Fails (i : Instr) (s t : State) : Prop :=
  ∃ code, code ∈ mayReport i ∧ code ≠ .success ∧ t = s.raise code ∧ writeSet i s = []

/-- A SOLVE counts a rank deficiency (42_solver.md R185). -/
def FindsDeficiency (i : Instr) (s t : State) : Prop :=
  i = .solve ∧ writeSet i s = []
    ∧ ∃ lowest, t = (s.setSlv (s.regs.slvFails + 1) lowest).raise .needsMoreData

/-- A command succeeds: it writes the bytes of its write set and its encoder, and reports. -/
def Succeeds (i : Instr) (s t : State) : Prop :=
  ∃ cells r, cells.map Prod.fst = writeSet i s
    ∧ t = ((s.setPmem (s.pmem.writeAll cells)).setEnc (encoderAfter i s)).complete .success r

/-- A command that writes no byte and leaves the encoder succeeds by its report alone. -/
theorem succeeds_of_report {i : Instr} {s : State} (r : Results) (hset : writeSet i s = [])
    (henc : encoderAfter i s = s.enc) : Succeeds i s (s.complete .success r) :=
  ⟨[], r, hset.symm, by rw [henc]; rfl⟩

theorem success_mem_mayReport (i : Instr) : ResultCode.success ∈ mayReport i := by
  cases i <;> simp [mayReport]

/-- The ends of a bulk command. -/
theorem bulk_ends {i : Instr} {f : Byte → Byte → Byte} {s t : State}
    (hset : writeSet i s = if (bulkFailure s).isNone then bulkTouched s else []) (henc : encoderAfter i s = s.enc)
    (hcode : .invalidInput ∈ mayReport i) (h : bulk f s = .next t) : Fails i s t ∨ Succeeds i s t := by
  obtain ⟨code, hfail, rfl⟩ | ⟨hpass, rfl⟩ := bulk_cases h
  · obtain rfl := bulkFailure_code hfail
    exact .inl ⟨_, hcode, by decide, rfl, by rw [hset, hfail]; rfl⟩
  · obtain ⟨cells, hloop, haddr⟩ := exists_bulkLoop_eq_writeAll f (argA s) (argB s) (argC s) s.pmem
    exact .inr ⟨cells, Results.zero, by rw [hset, hpass, haddr]; rfl, by rw [hloop, henc]; rfl⟩

theorem execGenRow_ends {row : Byte} {s t : State} (h : execGenRow row s = .next t) :
    Fails (.genRow row) s t ∨ Succeeds (.genRow row) s t := by
  obtain ⟨code, hfail, rfl⟩ | ⟨hpass, rfl⟩ := execGenRow_cases h
  · refine .inl ⟨code, ?_, ?_, rfl, by simp [writeSet, hfail]⟩ <;>
      obtain rfl | rfl := genRowFailure_code hfail <;> simp [mayReport]
  · obtain ⟨cells, hpmem, haddr⟩ := (genRowJob row s).exists_writtenTo_eq_writeAll s.cfg s.pmem
    exact .inr ⟨cells, _, by simp [writeSet, hpass, haddr], by rw [hpmem]; rfl⟩

theorem execEncOriginal_ends {s t : State} (h : execEncOriginal s = .next t) :
    Fails .encOriginal s t ∨ Succeeds .encOriginal s t := by
  obtain ⟨code, hfail, rfl⟩ | ⟨_, rfl⟩ := execEncOriginal_cases h
  · obtain rfl := encOriginalFailure_code hfail
    exact .inl ⟨_, by simp [mayReport], by decide, rfl, rfl⟩
  · exact .inr ⟨[], _, rfl, rfl⟩

theorem execEncRecovery_ends {s t : State} (h : execEncRecovery s = .next t) :
    Fails .encRecovery s t ∨ Succeeds .encRecovery s t := by
  obtain ⟨code, hfail, rfl⟩ | ⟨hpass, rfl⟩ := execEncRecovery_cases h
  · refine .inl ⟨code, ?_, ?_, rfl, by simp [writeSet, hfail]⟩ <;>
      obtain rfl | rfl | rfl := encRecoveryFailure_code hfail <;> simp [mayReport]
  · obtain ⟨cells, hpmem, haddr⟩ := (encRecoveryJob s).exists_writtenTo_eq_writeAll s.cfg s.pmem
    exact .inr ⟨cells, _, by simp [writeSet, hpass, haddr], by rw [hpmem]; rfl⟩

theorem execSolve_ends {s t : State} (h : execSolve s = .next t) :
    Fails .solve s t ∨ FindsDeficiency .solve s t ∨ Succeeds .solve s t := by
  obtain ⟨code, ho, rfl⟩ | ⟨lowest, ho, rfl⟩ | ⟨cells, c, n, ho, rfl⟩ := execSolve_cases h
  · refine .inl ⟨code, ?_, ?_, rfl, by simp [writeSet, ho]⟩ <;>
      obtain rfl | rfl := solveOutcome_code ho <;> simp [mayReport]
  · exact .inr (.inl ⟨rfl, by simp [writeSet, ho], _, rfl⟩)
  · exact .inr (.inr ⟨cells, _, by simp [writeSet, ho], rfl⟩)

/-- Every command ends in one of the three ways. -/
theorem exec_ends {i : Instr} {s t : State} (h : exec i s = .next t) :
    Fails i s t ∨ FindsDeficiency i s t ∨ Succeeds i s t := by
  cases i with
  | nop =>
    cases h
    exact .inr (.inr (succeeds_of_report _ rfl rfl))
  | gfAdd a b =>
    cases h
    exact .inr (.inr (succeeds_of_report _ rfl rfl))
  | gfMul a b =>
    cases h
    exact .inr (.inr (succeeds_of_report _ rfl rfl))
  | gfDiv a b =>
    obtain ⟨_, rfl⟩ | ⟨_, rfl⟩ := execGfDiv_cases h
    · exact .inl ⟨.invalidInput, by simp [mayReport], by decide, rfl, rfl⟩
    · exact .inr (.inr (succeeds_of_report _ rfl rfl))
  | gfCauchy row col =>
    obtain ⟨_, rfl⟩ | ⟨_, _, rfl⟩ | ⟨_, _, rfl⟩ := execGfCauchy_cases h
    · exact .inl ⟨.invalidInput, by simp [mayReport], by decide, rfl, rfl⟩
    · exact .inl ⟨.degenerate, by simp [mayReport], by decide, rfl, rfl⟩
    · exact .inr (.inr (succeeds_of_report _ rfl rfl))
  | muladdMem c => exact (bulk_ends rfl rfl (by simp [mayReport]) h).imp_right .inr
  | mulMem c => exact (bulk_ends rfl rfl (by simp [mayReport]) h).imp_right .inr
  | genRow row => exact (execGenRow_ends h).imp_right .inr
  | encOriginal => exact (execEncOriginal_ends h).imp_right .inr
  | encRecovery => exact (execEncRecovery_ends h).imp_right .inr
  | encReset =>
    cases h
    exact .inr (.inr ⟨[], Results.zero, rfl, rfl⟩)
  | solve => exact execSolve_ends h

/-! What follows for every command. -/

/-- A failed command changes nothing but its report (30_encoding.md R98). -/
theorem Fails.onlyReported {i : Instr} {s t : State} (h : Fails i s t) :
    ∃ code, code ∈ mayReport i ∧ code ≠ .success ∧ OnlyReported s t code Results.zero := by
  obtain ⟨code, hmem, hne, rfl, _⟩ := h
  exact ⟨code, hmem, hne, onlyReported_raise s code⟩

/-- A SOLVE that counts a rank deficiency changes the SLV registers and no other part of the block. -/
theorem FindsDeficiency.completed {i : Instr} {s t : State} (h : FindsDeficiency i s t) :
    Completed s t .needsMoreData Results.zero ∧ t.enc = s.enc ∧ PmemSame s t := by
  obtain ⟨_, _, lowest, rfl⟩ := h
  exact ⟨⟨rfl, rfl, rfl, rfl, rfl, rfl, rfl, rfl, rfl, rfl, rfl, rfl, rfl, rfl, rfl, rfl, rfl⟩, rfl, fun _ => rfl⟩

/-- A command that succeeds reports, and changes its encoder and the bytes of its write set alone. -/
theorem Succeeds.completed {i : Instr} {s t : State} (h : Succeeds i s t) :
    (∃ r, Completed s t .success r) ∧ t.enc = encoderAfter i s ∧ SlvSame s t
      ∧ ∀ a, a ∉ writeSet i s → t.pmem.read a = s.pmem.read a := by
  obtain ⟨cells, r, haddr, rfl⟩ := h
  refine ⟨⟨r, completed_after_writes s _ _ r⟩, rfl, ⟨rfl, rfl⟩, fun a ha => ?_⟩
  refine Memory.read_writeAll_other s.pmem fun c hc hca => ha ?_
  rw [← haddr, ← hca]
  exact List.mem_map_of_mem hc

/-- Every command reports a code that the table lets it raise. -/
theorem exec_completed {i : Instr} {s t : State} (h : exec i s = .next t) :
    ∃ code r, code ∈ mayReport i ∧ Completed s t code r ∧ (code ≠ .success → r = Results.zero) := by
  obtain hfail | hdef | hsucc := exec_ends h
  · obtain ⟨code, hmem, _, hrep⟩ := hfail.onlyReported
    exact ⟨code, _, hmem, hrep.completed, fun _ => rfl⟩
  · obtain ⟨hcomp, _, _⟩ := hdef.completed
    obtain ⟨rfl, _⟩ := hdef
    exact ⟨_, _, by simp [mayReport], hcomp, fun _ => rfl⟩
  · obtain ⟨⟨r, hcomp⟩, _⟩ := hsucc.completed
    exact ⟨_, r, success_mem_mayReport i, hcomp, fun hne => absurd rfl hne⟩

/-- RESULT tells how a command ended. -/
theorem exec_result {i : Instr} {s t : State} (h : exec i s = .next t) :
    (t.regs.result = .success ∧ Succeeds i s t) ∨ (t.regs.result ≠ .success ∧ (Fails i s t ∨ FindsDeficiency i s t)) := by
  obtain hfail | hdef | hsucc := exec_ends h
  · obtain ⟨code, _, hne, hrep⟩ := hfail.onlyReported
    exact .inr ⟨hrep.completed.result ▸ hne, .inl hfail⟩
  · obtain ⟨hcomp, _, _⟩ := hdef.completed
    exact .inr ⟨hcomp.result ▸ nofun, .inr hdef⟩
  · obtain ⟨⟨r, hcomp⟩, _⟩ := hsucc.completed
    exact .inl ⟨hcomp.result, hsucc⟩

/-- Settles O9: every end of a command is a completion, and a latched word that spells the command has its opcode. -/
theorem everyCommandReports : Obligations.EveryCommandReports := by
  intro i s t h
  obtain ⟨code, r, _, hcomp, hzero⟩ := exec_completed h
  refine ⟨code, r, hcomp, hzero, fun hd => ?_⟩
  obtain ⟨_, hop, _⟩ := Laws.decode_command hd
  rw [hcomp.lastOp, hop]

/-- Settles O10: a command that does not succeed fails a check or is a SOLVE that counts a rank deficiency. -/
theorem failedCommandsOnlyReport : Obligations.FailedCommandsOnlyReport := by
  intro i s t h hne
  obtain ⟨hsucc, _⟩ | ⟨_, hfail | hdef⟩ := exec_result h
  · exact absurd hsucc hne
  · obtain ⟨_, _, _, hrep⟩ := hfail.onlyReported
    exact ⟨hrep.enc, hrep.pmem, .inl hrep.slv⟩
  · obtain ⟨hcomp, henc, hpmem⟩ := hdef.completed
    exact ⟨henc, hpmem, .inr ⟨hdef.1, hcomp.result⟩⟩

/-- Settles O11: the code of every end is in the command's list. -/
theorem commandsReportListedCodes : Obligations.CommandsReportListedCodes := by
  refine ⟨fun i s t h => ?_, rfl, rfl, rfl, rfl, rfl, rfl, rfl⟩
  obtain ⟨code, _, hmem, hcomp, _⟩ := exec_completed h
  exact hcomp.result ▸ hmem

/-- A command that fails or counts a rank deficiency has an empty write set. -/
theorem writeSet_eq_nil_of_unsuccessful {i : Instr} {s t : State} (h : Fails i s t ∨ FindsDeficiency i s t) :
    writeSet i s = [] := by
  obtain ⟨_, _, _, _, hset⟩ | ⟨_, hset, _⟩ := h <;> exact hset

/-- No command changes a byte outside its write set. -/
theorem exec_frame {i : Instr} {s t : State} (h : exec i s = .next t) {a : Nat} (ha : a ∉ writeSet i s) :
    t.pmem.read a = s.pmem.read a := by
  obtain hfail | hdef | hsucc := exec_ends h
  · obtain ⟨_, _, _, hrep⟩ := hfail.onlyReported
    exact hrep.pmem a
  · obtain ⟨_, _, hpmem⟩ := hdef.completed
    exact hpmem a
  · obtain ⟨_, _, _, hpmem⟩ := hsucc.completed
    exact hpmem a ha

theorem encoderAfter_of_other {i : Instr} {s : State} (h : i ≠ .encOriginal ∧ i ≠ .encRecovery ∧ i ≠ .encReset) :
    encoderAfter i s = s.enc := by
  obtain ⟨horiginal, hrecovery, hreset⟩ := h
  cases i with
  | encOriginal => exact absurd rfl horiginal
  | encRecovery => exact absurd rfl hrecovery
  | encReset => exact absurd rfl hreset
  | _ => rfl

/-- The commands to which 70_reset_and_hazards.md R242 gives no write set. -/
theorem writeSet_of_other {i : Instr} {s : State} (hadd : ∀ c, i ≠ .muladdMem c) (hmul : ∀ c, i ≠ .mulMem c)
    (hrow : ∀ row, i ≠ .genRow row) (hrecovery : i ≠ .encRecovery) (hsolve : i ≠ .solve) : writeSet i s = [] := by
  cases i with
  | muladdMem c => exact absurd rfl (hadd c)
  | mulMem c => exact absurd rfl (hmul c)
  | genRow row => exact absurd rfl (hrow row)
  | encRecovery => exact absurd rfl hrecovery
  | solve => exact absurd rfl hsolve
  | _ => rfl

/-- Settles O12: a command's encoder, SLV registers and bytes of PMEM are those that its end writes. -/
theorem onlyOwnersWriteState : Obligations.OnlyOwnersWriteState := by
  intro i s t h
  refine ⟨fun hother => ?enc, fun hsolve => ?slv, fun hadd hmul hrow hrecovery hsolve a => ?pmem⟩
  case enc =>
    obtain hfail | hdef | hsucc := exec_ends h
    · obtain ⟨_, _, _, hrep⟩ := hfail.onlyReported
      exact hrep.enc
    · obtain ⟨_, henc, _⟩ := hdef.completed
      exact henc
    · obtain ⟨_, henc, _⟩ := hsucc.completed
      exact henc.trans (encoderAfter_of_other hother)
  case slv =>
    obtain hfail | hdef | hsucc := exec_ends h
    · obtain ⟨_, _, _, hrep⟩ := hfail.onlyReported
      exact hrep.slv
    · exact absurd hdef.1 hsolve
    · obtain ⟨_, _, hslv, _⟩ := hsucc.completed
      exact hslv
  case pmem =>
    refine exec_frame h ?_
    rw [writeSet_of_other hadd hmul hrow hrecovery hsolve]
    exact List.not_mem_nil

/-- No command faults or is refused (30_encoding.md R96). -/
theorem exec_answers (i : Instr) (s : State) : ∃ t, exec i s = .next t := by
  cases i with
  | nop => exact ⟨_, rfl⟩
  | gfAdd a b => exact ⟨_, rfl⟩
  | gfMul a b => exact ⟨_, rfl⟩
  | gfDiv a b => rw [exec, execGfDiv]; split <;> exact ⟨_, rfl⟩
  | gfCauchy row col => rw [exec, execGfCauchy]; split_ifs <;> exact ⟨_, rfl⟩
  | muladdMem c => rw [exec, execMuladdMem, bulk]; split <;> exact ⟨_, rfl⟩
  | mulMem c => rw [exec, execMulMem, bulk]; split <;> exact ⟨_, rfl⟩
  | genRow row => rw [exec, execGenRow]; split <;> exact ⟨_, rfl⟩
  | encOriginal => rw [exec, execEncOriginal]; split <;> exact ⟨_, rfl⟩
  | encRecovery => rw [exec, execEncRecovery]; split <;> exact ⟨_, rfl⟩
  | encReset => exact ⟨_, rfl⟩
  | solve => rw [exec, execSolve]; split <;> exact ⟨_, rfl⟩

/-- Settles O8: exec answers a next state for every command, and its end clears busy and sets DONE. -/
theorem everyCommandCompletes : Obligations.EveryCommandCompletes := by
  intro i s
  obtain ⟨t, h⟩ := exec_answers i s
  obtain ⟨_, _, _, hcomp, _⟩ := exec_completed h
  exact ⟨t, h, by rw [hcomp.latch], hcomp.done⟩

end Sys2Proof.Machine
end

section
/-! SUPPORT. The write set of a command lies in PMEM (20_memory.md R72): each command checks the range of what it writes. -/

namespace Sys2Proof.Machine

/-! The checks of SOLVE and the shape of its solution. -/

/-- The checks of SOLVE pass exactly where those on the header and those on the problem do. -/
theorem solveFailure_eq_none_iff {cfg : Config} {m : Memory} {d : Nat} :
    solveFailure cfg m d = none ↔
      inRange cfg d 8 = true ∧ countsOk cfg (headerRows m d) (headerCols m d) = true
        ∧ inRange cfg d (problemBytes (headerRows m d) (headerCols m d) (headerRecv m d)) = true
        ∧ (problemAt m d).failure cfg = none := by
  simp only [solveFailure, ite_some_eq_none_iff, Bool.not_eq_true', Bool.not_eq_false]

theorem backSubstitute_length (poly : BitVec 9) (piv : List Nat) (k : Nat) (ws : List WorkRow) (xs : List (List Byte)) :
    (backSubstitute poly piv k ws xs).length = k + xs.length := by
  induction k generalizing ws xs with
  | zero => exact (Nat.zero_add _).symm
  | succ k ih => rw [backSubstitute, ih, List.length_cons, Nat.succ_add, Nat.add_succ]

/-- A solution is what BackSubstitute makes of what ForwardEliminate answers. -/
theorem solution_eq_some_iff {cfg : Config} {m : Memory} {p : Problem} {xs : List (List Byte)} {piv : List Nat} :
    p.solution cfg m = some (xs, piv) ↔
      ∃ ws, forwardEliminate cfg.gfPoly (List.range p.cols.length) (p.eliminated cfg m) [] = some (ws, piv)
        ∧ backSubstitute cfg.gfPoly piv p.cols.length ws [] = xs := by
  rw [Problem.solution]
  cases forwardEliminate cfg.gfPoly (List.range p.cols.length) (p.eliminated cfg m) [] with
  | none => simp
  | some res =>
    obtain ⟨ws, piv'⟩ := res
    simp only [Option.some.injEq, Prod.mk.injEq]
    constructor
    · rintro ⟨rfl, rfl⟩
      exact ⟨ws, ⟨rfl, rfl⟩, rfl⟩
    · rintro ⟨_, ⟨rfl, rfl⟩, rfl⟩
      exact ⟨rfl, rfl⟩

theorem solution_length {cfg : Config} {m : Memory} {p : Problem} {xs : List (List Byte)} {piv : List Nat}
    (h : p.solution cfg m = some (xs, piv)) : xs.length = p.cols.length := by
  obtain ⟨_, _, rfl⟩ := solution_eq_some_iff.mp h
  exact backSubstitute_length _ _ _ _ _

/-! The addresses that SOLVE writes. -/

theorem mem_cellsAt_addr {c : Host.Cell} {a : Nat} {bs : List Byte} (h : c ∈ cellsAt a bs) :
    a ≤ c.1 ∧ c.1 < a + bs.length := by
  have hmem : c.1 ∈ (cellsAt a bs).map Prod.fst := List.mem_map_of_mem h
  rwa [cellsAt_fst, List.mem_range'_1] at hmem

/-- Which addresses a list of blocks covers. -/
theorem mem_blockCells_addr_iff {base : Nat → Nat} {bytes : Nat → List Byte} {n a : Nat} :
    a ∈ (blockCells base bytes n).map Prod.fst ↔ ∃ k, k < n ∧ InBlock base bytes a k := by
  simp only [blockCells, List.map_flatMap, cellsAt_fst, List.mem_flatMap, List.mem_range, List.mem_range'_1, InBlock]

theorem recoveredPayload_length_le (x : List Byte) : (recoveredPayload x).length ≤ recoveredLen x :=
  List.length_take_le _ _

/-- Every byte that a successful SOLVE writes lies in PMEM: the slots by R180, the fields by check 3 (42_solver.md R172). -/
theorem solved_cells_lt {cfg : Config} {m : Memory} {d : Nat} {xs : List (List Byte)} {piv : List Nat}
    (hchecks : solveFailure cfg m d = none) (hlen : xs.length = (problemAt m d).cols.length)
    (hfit : extractionOk cfg (problemAt m d).solutionBytes (problemAt m d).cols xs = true) {c : Host.Cell}
    (hc : c ∈ payloadCells (problemAt m d).cols xs ++ columnCells d (problemAt m d).rows.length xs
      ++ rowCells d (problemAt m d).rows.length piv) : c.1 < cfg.pmemBytes := by
  obtain ⟨_, _, hrange, _⟩ := solveFailure_eq_none_iff.mp hchecks
  have hbytes : d + problemBytes (headerRows m d) (headerCols m d) (headerRecv m d) ≤ cfg.pmemBytes :=
    ((inRange_iff _ _ _).mp hrange).resolve_left (by unfold problemBytes; omega)
  have hrows : (problemAt m d).rows.length = headerRows m d := by simp [problemAt]
  have hcols : (problemAt m d).cols.length = headerCols m d := by simp [problemAt]
  rw [problemBytes] at hbytes
  rw [hrows, List.mem_append, List.mem_append] at hc
  obtain (hc | hc) | hc := hc
  · obtain ⟨cx, hcx, hcell⟩ := List.mem_flatMap.mp hc
    obtain ⟨_, hslot⟩ := Bool.and_eq_true_iff.mp (List.all_eq_true.mp hfit cx hcx)
    have hpayload := recoveredPayload_length_le cx.2
    obtain ⟨hlo, hhi⟩ := mem_cellsAt_addr hcell
    obtain hzero | hslot := (inRange_iff _ _ _).mp hslot <;> omega
  · rw [columnCells_eq, hlen, hcols] at hc
    obtain ⟨k, hk, _, hhi⟩ := mem_blockCells_addr_iff.mp (List.mem_map_of_mem hc)
    simp only [columnOutput_length] at hhi
    omega
  · rw [rowCells_eq] at hc
    obtain ⟨k, hk, _, hhi⟩ := mem_blockCells_addr_iff.mp (List.mem_map_of_mem hc)
    simp only [rowOutput_length] at hhi
    omega

/-! Every command. -/

/-- A range in PMEM holds offsets of PMEM alone. -/
theorem lt_of_mem_range'_of_inRange {cfg : Config} {a n x : Nat} (h : inRange cfg a n = true)
    (hx : x ∈ List.range' a n) : x < cfg.pmemBytes := by
  rw [inRange_iff] at h
  rw [List.mem_range'_1] at hx
  omega

/-- A write set that is empty unless a check passes. -/
theorem mem_of_mem_ite_isNone {o : Option ResultCode} {l : List Nat} {x : Nat}
    (h : x ∈ if o.isNone then l else []) : o = none ∧ x ∈ l := by
  cases o with
  | none => exact ⟨rfl, h⟩
  | some code => cases h

theorem writeSet_lt {i : Instr} {s : State} {a : Nat} (ha : a ∈ writeSet i s) : a < s.cfg.pmemBytes := by
  cases i with
  | muladdMem c =>
    obtain ⟨hpass, ha⟩ := mem_of_mem_ite_isNone ha
    exact lt_of_mem_range'_of_inRange (bulkFailure_eq_none.mp hpass).1 ha
  | mulMem c =>
    obtain ⟨hpass, ha⟩ := mem_of_mem_ite_isNone ha
    exact lt_of_mem_range'_of_inRange (bulkFailure_eq_none.mp hpass).1 ha
  | genRow row =>
    obtain ⟨hpass, ha⟩ := mem_of_mem_ite_isNone ha
    obtain ⟨_, _, _, _, _, hrange⟩ := genRowFailure_eq_none_iff.mp hpass
    exact lt_of_mem_range'_of_inRange hrange ha
  | encRecovery =>
    obtain ⟨hpass, ha⟩ := mem_of_mem_ite_isNone ha
    obtain ⟨_, _, _, hrange⟩ := encRecoveryFailure_eq_none_iff.mp hpass
    exact lt_of_mem_range'_of_inRange hrange ha
  | solve =>
    rw [writeSet] at ha
    obtain ⟨_, _, ho⟩ | ⟨_, _, ho⟩ | ⟨xs, piv, hchecks, hsol, ⟨_, ho⟩ | ⟨hfit, ho⟩⟩ :=
      solveOutcome_cases s.cfg s.pmem (argA s) <;> rw [ho] at ha
    · cases ha
    · cases ha
    · cases ha
    · obtain ⟨c, hc, rfl⟩ := List.mem_map.mp ha
      exact solved_cells_lt hchecks (solution_length hsol) hfit hc
  | _ => cases ha

/-- The bytes that a reset draws for an abandoned command lie in PMEM. -/
theorem inFlightWriteSet_lt {s : State} {a : Nat} (ha : a ∈ s.inFlightWriteSet) : a < s.cfg.pmemBytes := by
  unfold State.inFlightWriteSet at ha
  split at ha
  · split at ha
    · exact writeSet_lt ha
    · cases ha
  · cases ha

end Sys2Proof.Machine
end

section
/-! SUPPORT. The encoder invariants of 10_state.md R43 kept by every change of the encoder: an appended original, an emitted
recovery, ENC_RESET and a reset. -/

namespace Sys2Proof.Machine

/-! The ring (10_state.md R42). -/

/-- A live slot's index without the mathematical mod: it wraps once. -/
theorem slotIndex_eq {cfg : Config} {e : Encoder} (hcursor : e.cursor.toNat < cfg.encWindow)
    (hcount : e.count.toNat ≤ cfg.encWindow) {k : Nat} (hk : k ≤ e.count.toNat) :
    slotIndex cfg e k = if e.count.toNat ≤ e.cursor.toNat + k then e.cursor.toNat + k - e.count.toNat
      else e.cursor.toNat + k + cfg.encWindow - e.count.toNat := by
  rw [slotIndex]
  split
  · rw [Int.emod_eq_of_lt (by omega) (by omega)]
    omega
  · rw [← Int.add_emod_right, Int.emod_eq_of_lt (by omega) (by omega)]
    omega

section
variable {cfg : Config} {e : Encoder} {addr : Word} {len : Nat}

/-- COUNT after an original is appended, where the window fits its field. -/
theorem Encoder.toNat_append_count (hwindow : cfg.encWindow ≤ 256) :
    (e.append cfg addr len).count.toNat = min (e.count.toNat + 1) cfg.encWindow := by
  rw [Encoder.append_count, BitVec.toNat_ofNat, Nat.mod_eq_of_lt (by omega)]

/-- CURSOR after an original is appended, where the window fits its field. -/
theorem Encoder.toNat_append_cursor (hwindow : cfg.encWindow ≤ 256) (hcursor : e.cursor.toNat < cfg.encWindow) :
    (e.append cfg addr len).cursor.toNat = (e.cursor.toNat + 1) % cfg.encWindow := by
  have hlt : (e.cursor.toNat + 1) % cfg.encWindow < cfg.encWindow := Nat.mod_lt _ (by omega)
  rw [Encoder.append_cursor, BitVec.toNat_ofNat, Nat.mod_eq_of_lt (by omega)]

/-- The live slots after an original is appended: the new one is the last, and the others are those before it. -/
theorem liveSlot_append (hwindow : cfg.encWindow ≤ 256) (hok : e.Ok cfg) {j : Nat}
    (hj : j < (e.append cfg addr len).count.toNat) :
    liveSlot cfg (e.append cfg addr len) j =
      if j + 1 = (e.append cfg addr len).count.toNat then
        { seq := e.nextSeq, addr := addr, len := BitVec.ofNat 16 len }
      else liveSlot cfg e (j + (e.count.toNat + 1 - (e.append cfg addr len).count.toNat)) := by
  have hcount := hok.count
  have hcursor := hok.cursor
  have hslots := hok.slots
  have hcount' := Encoder.toNat_append_count (e := e) (addr := addr) (len := len) hwindow
  have hcursor' : (e.append cfg addr len).cursor.toNat =
      if e.cursor.toNat + 1 = cfg.encWindow then 0 else e.cursor.toNat + 1 := by
    rw [Encoder.toNat_append_cursor hwindow hcursor]
    split
    · rw [‹e.cursor.toNat + 1 = cfg.encWindow›, Nat.mod_self]
    · exact Nat.mod_eq_of_lt (by omega)
  have hindex := slotIndex_eq (cfg := cfg) (e := e.append cfg addr len)
    (by rw [hcursor']; split <;> omega) (by omega) (Nat.le_of_lt hj)
  rw [liveSlot, Encoder.append_slots]
  split
  · have hnew : slotIndex cfg (e.append cfg addr len) j = e.cursor.toNat := by
      rw [hindex, hcursor']
      split_ifs <;> omega
    rw [hnew]
    simp [hslots, hcursor]
  · have hold := slotIndex_eq (cfg := cfg) (e := e) hcursor hcount
      (k := j + (e.count.toNat + 1 - (e.append cfg addr len).count.toNat)) (by omega)
    have hsame : slotIndex cfg (e.append cfg addr len) j
        = slotIndex cfg e (j + (e.count.toNat + 1 - (e.append cfg addr len).count.toNat)) := by
      rw [hindex, hold, hcursor']
      split_ifs <;> omega
    have hne : e.cursor.toNat ≠ slotIndex cfg e (j + (e.count.toNat + 1 - (e.append cfg addr len).count.toNat)) := by
      rw [hold]
      split_ifs <;> omega
    rw [hsame, liveSlot, List.getD_eq_getElem?_getD, List.getElem?_set_ne hne, List.getD_eq_getElem?_getD]

/-- A property of the live slots is kept where the new original has it. -/
theorem liveSlot_append_of_forall (hwindow : cfg.encWindow ≤ 256) (hok : e.Ok cfg) {P : Odesc → Prop}
    (hnew : P { seq := e.nextSeq, addr := addr, len := BitVec.ofNat 16 len })
    (hold : ∀ j, j < e.count.toNat → P (liveSlot cfg e j)) {j : Nat} (hj : j < (e.append cfg addr len).count.toNat) :
    P (liveSlot cfg (e.append cfg addr len) j) := by
  have hcount := hok.count
  have hcount' := Encoder.toNat_append_count (e := e) (addr := addr) (len := len) hwindow
  rw [liveSlot_append hwindow hok hj]
  split
  · exact hnew
  · exact hold _ (by omega)

end

/-! The invariants. -/

theorem Encoder.Ok.append {cfg : Config} {e : Encoder} {addr : Word} {len : Nat} (hwindow : 2 ≤ cfg.encWindow)
    (hwindow' : cfg.encWindow ≤ 256) (hok : e.Ok cfg)
    (hpayload : Odesc.payloadOk cfg { seq := e.nextSeq, addr := addr, len := BitVec.ofNat 16 len } = true) :
    (e.append cfg addr len).Ok cfg := by
  have hcount := hok.count
  have hcount' := Encoder.toNat_append_count (e := e) (addr := addr) (len := len) hwindow'
  refine ⟨?slots, ?cursor, ?count, ?column, fun j hj => ?sequences, hok.row, fun j hj => ?payloads⟩
  case slots => rw [Encoder.append_slots, List.length_set, hok.slots]
  case cursor =>
    rw [Encoder.toNat_append_cursor hwindow' hok.cursor]
    exact Nat.mod_lt _ (by omega)
  case count => omega
  case column =>
    have hcolumn := hok.column
    have hseq : (e.nextSeq + 1).toNat = (e.nextSeq.toNat + 1) % 2 ^ 64 := BitVec.toNat_add _ _
    have hnext : (e.nextColumn + 1).toNat = (e.nextColumn.toNat + 1) % 256 := BitVec.toNat_add _ _
    rw [Encoder.append_nextColumn, Encoder.append_nextSeq, hseq, hnext]
    omega
  case sequences =>
    have hone : (1 : Seq) = BitVec.ofNat 64 1 := rfl
    rw [liveSlot_append hwindow' hok hj, Encoder.append_nextSeq, ← BitVec.ofNat_toNat 64 (e.append cfg addr len).count]
    split
    · rename_i hlast
      rw [← hlast, BitVec.ofNat_add, ← hone]
      show e.nextSeq = _
      ring
    · rw [hok.sequences _ (by omega), ← BitVec.ofNat_toNat 64 e.count]
      have hindex : BitVec.ofNat 64 (j + (e.count.toNat + 1 - (e.append cfg addr len).count.toNat))
          + BitVec.ofNat 64 (e.append cfg addr len).count.toNat
          = BitVec.ofNat 64 j + BitVec.ofNat 64 e.count.toNat + 1 := by
        rw [hone, ← BitVec.ofNat_add, ← BitVec.ofNat_add, ← BitVec.ofNat_add]
        congr 1
        omega
      linear_combination hindex
  case payloads => exact liveSlot_append_of_forall (P := fun o => o.payloadOk cfg = true) hwindow' hok hpayload hok.payloads hj

theorem liveSlot_emitted (cfg : Config) (e : Encoder) (row : Byte) (j : Nat) :
    liveSlot cfg (e.emitted row) j = liveSlot cfg e j := by
  simp [liveSlot, slotIndex]

theorem Encoder.Ok.emitted {cfg : Config} {e : Encoder} (hok : e.Ok cfg) (row : Byte) : (e.emitted row).Ok cfg := by
  have hlive : ∀ j, j < (e.emitted row).count.toNat → j < e.count.toNat := fun j hj => by simpa using hj
  refine ⟨by simpa using hok.slots, by simpa using hok.cursor, by simpa using hok.count, by simpa using hok.column,
    fun j hj => ?sequences, ?row, fun j hj => ?payloads⟩
  case sequences => simpa [liveSlot_emitted] using hok.sequences j (hlive j hj)
  case row =>
    rw [Encoder.emitted_nextRow]
    split
    · exact hok.row
    · intro hzero
      have hnext := toNat_nextCauchyRow e.nextRow
      rw [hzero] at hnext
      split at hnext <;> simp at hnext
  case payloads => simpa [liveSlot_emitted] using hok.payloads j (hlive j hj)

/-- An encoder with every counter at its reset value has no live slot. -/
theorem encoder_ok_of_empty {cfg : Config} {e : Encoder} (hwindow : 2 ≤ cfg.encWindow)
    (hslots : e.slots.length = cfg.encWindow) (hcount : e.count = 0) (hcursor : e.cursor = 0) (hseq : e.nextSeq = 0)
    (hcolumn : e.nextColumn = 0) (hrow : e.nextRow = 1) : e.Ok cfg := by
  have hzero : e.count.toNat = 0 := by rw [hcount]; rfl
  refine ⟨hslots, ?_, by omega, by rw [hcolumn, hseq]; rfl, fun j hj => by omega, by rw [hrow]; decide,
    fun j hj => by omega⟩
  rw [hcursor]
  exact Nat.lt_of_lt_of_le Nat.zero_lt_two hwindow

theorem Encoder.Ok.restarted {cfg : Config} {e : Encoder} (hwindow : 2 ≤ cfg.encWindow) (hok : e.Ok cfg) :
    e.restarted.Ok cfg :=
  encoder_ok_of_empty hwindow hok.slots rfl rfl rfl rfl rfl

theorem encoder_ok_reset {cfg : Config} (hwindow : 2 ≤ cfg.encWindow) : (Encoder.reset cfg.encWindow).Ok cfg :=
  encoder_ok_of_empty hwindow List.length_replicate rfl rfl rfl rfl rfl

/-- The window of legal parameters fits CURSOR and COUNT. -/
theorem encWindow_of_wf {cfg : Config} (h : cfg.wf = true) : 2 ≤ cfg.encWindow ∧ cfg.encWindow ≤ 256 := by
  obtain ⟨_, ⟨hwindow, hcols⟩, hmaxCols, _⟩ := (config_wf_iff cfg).mp h
  exact ⟨hwindow, hcols.trans hmaxCols⟩

/-- The original that ENC_ORIGINAL appends, where its check passes, is one that the invariant allows. -/
theorem payloadOk_of_encOriginal {s : State} (hcfg : s.cfg.wf = true) (hpass : encOriginalFailure s = none) :
    Odesc.payloadOk s.cfg { seq := s.enc.nextSeq, addr := s.latch.larg0, len := BitVec.ofNat 16 (argB s) } = true := by
  obtain ⟨_, _, _, _, ⟨_, hmax⟩, _⟩ := (config_wf_iff s.cfg).mp hcfg
  obtain ⟨hlen, hrange⟩ := encOriginalFailure_eq_none_iff.mp hpass
  have hfits : (BitVec.ofNat 16 (argB s)).toNat = argB s := by rw [BitVec.toNat_ofNat]; omega
  rw [Odesc.payloadOk, hfits, Bool.and_eq_true, decide_eq_true_eq, inRange_iff]
  exact ⟨hlen, hrange⟩

end Sys2Proof.Machine
end

section
/-! SUPPORT and the statements of 10_state.md R43, 60_exceptions.md R210 and R224 and the base case of the invariant: what a
step can do to the block, case by case, and that every case keeps the invariant. -/

namespace Sys2Proof.Machine

/-! What a step can do. -/

/-- The cases of a step: the block is left alone; the host writes to it; a command runs; an illegal word completes; the reset
input is asserted. -/
theorem step_effects {s t : State} (h : step s = .next t) :
    (∃ host, t = { s.nextTurn with host := host })
      ∨ (∃ off n v s' host, busWrite s.nextTurn off n v = .ok s' ∧ t = { s' with host := host })
      ∨ (s.turn = .engine ∧ s.latch.busy = true ∧ ∃ i, decode s.latch.lcmd = .command i ∧ exec i s.nextTurn = .next t)
      ∨ t = s.nextTurn.raise .illegalCommand
      ∨ t = s.nextTurn.hwReset := by
  obtain ⟨_, hhost⟩ | ⟨hturn, hengine⟩ | ⟨_, rfl⟩ := step_cases h
  · obtain ⟨_, rfl⟩ | ⟨_, _, _, _, _, _, rfl⟩ | ⟨off, n, v, s', _, hw, rfl⟩ | ⟨_, _, _, _, rfl⟩ := hostTurn_cases hhost
    · exact .inl ⟨s.host, rfl⟩
    · exact .inl ⟨_, rfl⟩
    · exact .inr (.inl ⟨off, n, v, s', _, hw, rfl⟩)
    · exact .inl ⟨_, rfl⟩
  · obtain ⟨_, rfl⟩ | ⟨hbusy, i, hd, hexec⟩ | ⟨_, _, _, rfl⟩ := engineTurn_cases hengine
    · exact .inl ⟨s.host, rfl⟩
    · exact .inr (.inr (.inl ⟨hturn, hbusy, i, hd, hexec⟩))
    · exact .inr (.inr (.inr (.inl rfl)))
  · exact .inr (.inr (.inr (.inr rfl)))

/-- What a write to the register region leaves: a register's own rule changes the block, or nothing does. -/
theorem writeOffset_cases (s : State) (off : Nat) (v : Word) :
    writeOffset s off v = s ∨ ∃ r, writeOffset s off v = regWrite s r v := by
  unfold writeOffset
  split
  · exact .inr ⟨_, rfl⟩
  · exact .inl rfl

/-- The registers that take a write (10_state.md R22). -/
theorem regWrite_cases (s : State) (r : RegName) (v : Word) :
    regWrite s r v = s ∨ regWrite s r v = writeCtrl s v ∨ regWrite s r v = writeStatus s v
      ∨ regWrite s r v = s.writeCmd v
      ∨ ∃ arg0 arg1 arg2, regWrite s r v =
          { s with regs := { s.regs with arg0 := arg0, arg1 := arg1, arg2 := arg2 } } := by
  cases r with
  | ctrl => exact .inr (.inl rfl)
  | status => exact .inr (.inr (.inl rfl))
  | cmd => exact .inr (.inr (.inr (.inl rfl)))
  | arg0 => exact .inr (.inr (.inr (.inr ⟨v, s.regs.arg1, s.regs.arg2, rfl⟩)))
  | arg1 => exact .inr (.inr (.inr (.inr ⟨s.regs.arg0, v, s.regs.arg2, rfl⟩)))
  | arg2 => exact .inr (.inr (.inr (.inr ⟨s.regs.arg0, s.regs.arg1, v, rfl⟩)))
  | _ => exact .inl rfl

/-- What a host write can do to the encoder and to the parameters: a soft reset is the one that reaches the encoder. -/
theorem busWrite_encoder {s t : State} {off n : Nat} {v : Word} (h : busWrite s off n v = .ok t) :
    t.cfg = s.cfg ∧ (t.enc = s.enc ∨ t.enc = Encoder.reset s.cfg.encWindow) := by
  obtain ⟨_, rfl⟩ | ⟨a, _, _, rfl⟩ := busWrite_cases h
  · obtain hw | ⟨r, hw⟩ := writeOffset_cases s off v
    · rw [hw]
      exact ⟨rfl, .inl rfl⟩
    · rw [hw]
      obtain hw | hw | hw | hw | ⟨_, _, _, hw⟩ := regWrite_cases s r v <;> rw [hw]
      · exact ⟨rfl, .inl rfl⟩
      · unfold writeCtrl
        split
        · exact ⟨rfl, .inr rfl⟩
        · exact ⟨rfl, .inl rfl⟩
      · exact ⟨rfl, .inl rfl⟩
      · unfold State.writeCmd
        split
        · exact ⟨rfl, .inl rfl⟩
        · exact ⟨rfl, .inl rfl⟩
      · exact ⟨rfl, .inl rfl⟩
  · exact ⟨rfl, .inl rfl⟩

/-- What a command can do to the encoder. -/
theorem exec_encoder_cases {i : Instr} {s t : State} (h : exec i s = .next t) :
    t.enc = s.enc
      ∨ (i = .encOriginal ∧ encOriginalFailure s = none ∧ t.enc = s.enc.append s.cfg s.latch.larg0 (argB s))
      ∨ (i = .encRecovery ∧ t.enc = s.enc.emitted s.enc.recoveryRow)
      ∨ (i = .encReset ∧ t.enc = s.enc.restarted) := by
  by_cases horiginal : i = .encOriginal
  · subst horiginal
    obtain ⟨_, _, rfl⟩ | ⟨hpass, rfl⟩ := execEncOriginal_cases h
    · exact .inl rfl
    · exact .inr (.inl ⟨rfl, hpass, rfl⟩)
  · by_cases hrecovery : i = .encRecovery
    · subst hrecovery
      obtain ⟨_, _, rfl⟩ | ⟨_, rfl⟩ := execEncRecovery_cases h
      · exact .inl rfl
      · exact .inr (.inr (.inl ⟨rfl, rfl⟩))
    · by_cases hreset : i = .encReset
      · subst hreset
        cases h
        exact .inr (.inr (.inr ⟨rfl, rfl⟩))
      · obtain ⟨henc, _⟩ := onlyOwnersWriteState i s t h
        exact .inl (henc ⟨horiginal, hrecovery, hreset⟩)

/-- What a step can do to the encoder, which holds for one set of parameters. -/
theorem step_encoder_cases {s t : State} (h : step s = .next t) :
    t.cfg = s.cfg
      ∧ (t.enc = s.enc
        ∨ (s.turn = .engine ∧ s.latch.busy = true ∧ decode s.latch.lcmd = .command .encOriginal
          ∧ encOriginalFailure s.nextTurn = none ∧ t.enc = s.enc.append s.cfg s.latch.larg0 s.latch.larg1.toNat)
        ∨ (∃ row, t.enc = s.enc.emitted row)
        ∨ t.enc = s.enc.restarted
        ∨ t.enc = Encoder.reset s.cfg.encWindow) := by
  obtain ⟨_, rfl⟩ | ⟨_, _, _, _, _, hw, rfl⟩ | ⟨hturn, hbusy, i, hd, hexec⟩ | rfl | rfl := step_effects h
  · exact ⟨rfl, .inl rfl⟩
  · obtain ⟨hcfg, henc | henc⟩ := busWrite_encoder hw
    · exact ⟨hcfg, .inl henc⟩
    · exact ⟨hcfg, .inr (.inr (.inr (.inr henc)))⟩
  · obtain ⟨_, _, _, hcomp, _⟩ := exec_completed hexec
    refine ⟨hcomp.cfg, ?_⟩
    obtain henc | ⟨rfl, hpass, henc⟩ | ⟨_, henc⟩ | ⟨_, henc⟩ := exec_encoder_cases hexec
    · exact .inl henc
    · exact .inr (.inl ⟨hturn, hbusy, hd, hpass, henc⟩)
    · exact .inr (.inr (.inl ⟨_, henc⟩))
    · exact .inr (.inr (.inr (.inl henc)))
  · exact ⟨rfl, .inl rfl⟩
  · exact ⟨rfl, .inr (.inr (.inr (.inr rfl)))⟩

/-- Settles O60: no case of a step writes the parameters. -/
theorem stepKeepsConfiguration : Obligations.StepKeepsConfiguration := fun _ _ h => (step_encoder_cases h).1

/-! The encoder. -/

theorem step_keeps_encoder_ok {s t : State} (hinv : s.Inv) (h : step s = .next t) : t.enc.Ok t.cfg := by
  obtain ⟨hwindow, hwindow'⟩ := encWindow_of_wf hinv.cfg
  obtain ⟨hcfg, henc | ⟨_, _, _, hpass, henc⟩ | ⟨row, henc⟩ | henc | henc⟩ := step_encoder_cases h <;> rw [hcfg, henc]
  · exact hinv.enc
  · exact hinv.enc.append hwindow hwindow' (payloadOk_of_encOriginal (s := s.nextTurn) hinv.cfg hpass)
  · exact hinv.enc.emitted row
  · exact hinv.enc.restarted hwindow
  · exact encoder_ok_reset hwindow

/-! PMEM. -/

/-- PMEM is canonical and lies inside its size. -/
def Memory.Fits (cfg : Config) (m : Memory) : Prop := m.wf = true ∧ m.within cfg.pmemBytes = true

theorem Memory.Fits.writeAll {cfg : Config} {m : Memory} (h : m.Fits cfg) {cells : List Host.Cell}
    (hcells : ∀ c ∈ cells, c.1 < cfg.pmemBytes) : (m.writeAll cells).Fits cfg :=
  ⟨Memory.wf_writeAll h.1 _, Memory.within_writeAll h.2 hcells⟩

theorem exec_keeps_pmem_fits {i : Instr} {s t : State} (h : exec i s = .next t) (hfits : s.pmem.Fits s.cfg) :
    t.pmem.Fits s.cfg := by
  obtain ⟨_, _, _, rfl, _⟩ | ⟨_, _, _, rfl⟩ | ⟨cells, _, haddr, rfl⟩ := exec_ends h
  · exact hfits
  · exact hfits
  · exact hfits.writeAll fun c hc => writeSet_lt (i := i) (haddr ▸ List.mem_map_of_mem hc)

/-- A host access that reaches PMEM lies inside it (20_memory.md R64). -/
theorem target_eq_pmem {cfg : Config} {off n a : Nat} (h : target cfg off n = .pmem a) : a + n ≤ cfg.pmemBytes := by
  unfold target at h
  split_ifs at h with _ _ _ _ hplaced
  obtain ⟨_, _, hfits⟩ := hplaced
  obtain rfl : off - pmemBase = a := Target.pmem.inj h
  exact hfits

theorem softReset_keeps_pmem_fits {s : State} (hfits : s.pmem.Fits s.cfg) : s.softReset.pmem.Fits s.cfg :=
  ⟨Memory.wf_scramble hfits.1 _ _, Memory.within_scramble hfits.2 fun _ ha => inFlightWriteSet_lt ha⟩

/-! The control registers. -/

/-- DONE = 0 while a command is in flight, and no reserved result code is held. -/
def State.ControlOk (s : State) : Prop :=
  (s.latch.busy = true → s.regs.done = false) ∧ s.regs.result ≠ .duplicateData ∧ s.regs.result ≠ .outOfMemory

/-- The invariant in three parts: encoder, PMEM and control. -/
theorem inv_iff (s : State) :
    s.Inv ↔ s.cfg.wf = true ∧ s.enc.Ok s.cfg ∧ s.pmem.Fits s.cfg ∧ s.ControlOk :=
  ⟨fun h => ⟨h.cfg, h.enc, ⟨h.pmemWf, h.pmemWithin⟩, h.protocol, h.result⟩,
    fun ⟨hcfg, henc, ⟨hwf, hwithin⟩, hprotocol, hresult⟩ => ⟨hcfg, henc, hwf, hwithin, hprotocol, hresult⟩⟩

theorem mayReport_unreserved {i : Instr} {code : ResultCode} (h : code ∈ mayReport i) :
    code ≠ .duplicateData ∧ code ≠ .outOfMemory := by
  constructor <;> rintro rfl <;> cases i <;> simp [mayReport] at h

theorem controlOk_of_completed {s t : State} {code : ResultCode} {r : Results} (h : Completed s t code r)
    (hcode : code ≠ .duplicateData ∧ code ≠ .outOfMemory) : t.ControlOk := by
  refine ⟨fun hbusy => ?_, h.result.symm ▸ hcode⟩
  rw [h.latch] at hbusy
  cases hbusy

theorem controlOk_of_reset {t : State} (hlatch : t.latch = Latch.reset) (hresult : t.regs.result = .success) :
    t.ControlOk := by
  refine ⟨fun hbusy => ?_, by rw [hresult]; decide⟩
  rw [hlatch] at hbusy
  cases hbusy

/-- A host write keeps PMEM canonical and inside its size, and the control registers in order. -/
theorem busWrite_keeps_pmem_and_control {s t : State} {off n : Nat} {v : Word} (h : busWrite s off n v = .ok t)
    (hfits : s.pmem.Fits s.cfg) (hcontrol : s.ControlOk) : t.pmem.Fits s.cfg ∧ t.ControlOk := by
  obtain ⟨hprotocol, hresult⟩ := hcontrol
  obtain ⟨_, rfl⟩ | ⟨a, htarget, _, rfl⟩ := busWrite_cases h
  · obtain hw | ⟨r, hw⟩ := writeOffset_cases s off v
    · rw [hw]
      exact ⟨hfits, hprotocol, hresult⟩
    · rw [hw]
      obtain hw | hw | hw | hw | ⟨_, _, _, hw⟩ := regWrite_cases s r v <;> rw [hw]
      · exact ⟨hfits, hprotocol, hresult⟩
      · unfold writeCtrl
        split
        · exact ⟨softReset_keeps_pmem_fits hfits, controlOk_of_reset rfl rfl⟩
        · exact ⟨hfits, hprotocol, hresult⟩
      · exact ⟨hfits, fun hbusy => by simp [writeStatus, hprotocol hbusy], hresult⟩
      · unfold State.writeCmd
        split
        · exact ⟨hfits, hprotocol, hresult⟩
        · exact ⟨hfits, fun _ => rfl, hresult⟩
      · exact ⟨hfits, hprotocol, hresult⟩
  · have hrange := target_eq_pmem htarget
    refine ⟨⟨Memory.wf_writeBytes hfits.1 _ _, Memory.within_writeBytes hfits.2 (.inr ?_)⟩, hprotocol, hresult⟩
    rwa [leBytes_length]

theorem step_keeps_pmem_and_control {s t : State} (hinv : s.Inv) (h : step s = .next t) :
    t.pmem.Fits s.cfg ∧ t.ControlOk := by
  obtain ⟨_, _, hfits, hcontrol⟩ := (inv_iff s).mp hinv
  obtain ⟨_, rfl⟩ | ⟨_, _, _, _, _, hw, rfl⟩ | ⟨_, _, i, _, hexec⟩ | rfl | rfl := step_effects h
  · exact ⟨hfits, hcontrol⟩
  · obtain ⟨hfits', hcontrol'⟩ := busWrite_keeps_pmem_and_control hw hfits hcontrol
    exact ⟨hfits', hcontrol'⟩
  · obtain ⟨_, _, hmem, hcomp, _⟩ := exec_completed hexec
    have hfits' : t.pmem.Fits s.cfg := exec_keeps_pmem_fits (s := s.nextTurn) hexec hfits
    exact ⟨hfits', controlOk_of_completed hcomp (mayReport_unreserved hmem)⟩
  · exact ⟨hfits, controlOk_of_completed (onlyReported_raise s.nextTurn .illegalCommand).completed (by decide)⟩
  · exact ⟨⟨Memory.wf_drawn _ _, Memory.within_drawn _ _⟩, controlOk_of_reset rfl rfl⟩

/-- Settles O58: a step keeps the parameters, the encoder's invariants, PMEM's form and the control registers' order. -/
theorem stepKeepsInvariant : Obligations.StepKeepsInvariant := by
  intro s t hinv h
  have hcfg := stepKeepsConfiguration s t h
  obtain ⟨hfits, hcontrol⟩ := step_keeps_pmem_and_control hinv h
  exact (inv_iff t).mpr ⟨hcfg ▸ hinv.cfg, step_keeps_encoder_ok hinv h, hcfg ▸ hfits, hcontrol⟩

/-- The invariant at power-on. -/
theorem powerOn_inv {cfg : Config} {launch : Memory} {prog : List HostStmt} {sched : List Turn} (hcfg : cfg.wf = true)
    (hwf : launch.wf = true) (hwithin : launch.within cfg.pmemBytes = true) :
    (State.powerOn cfg launch prog sched).Inv :=
  (inv_iff _).mpr ⟨hcfg, encoder_ok_reset (encWindow_of_wf hcfg).1, ⟨hwf, hwithin⟩, controlOk_of_reset rfl rfl⟩

/-- The default parameters are legal. -/
theorem config_default_wf : Config.default.wf = true := by decide +kernel

/-- Settles O59: State.reset is a power-on state with the default parameters and nothing listed. -/
theorem powerOnMeetsInvariant : Obligations.PowerOnMeetsInvariant :=
  ⟨powerOn_inv config_default_wf rfl rfl,
    fun _ _ _ _ hcfg hwf hwithin => powerOn_inv hcfg hwf hwithin⟩

/-! The ring and the sequence numbers. -/

/-- Settles O35: an appended original moves CURSOR, COUNT and NextSequence on together, and a restart sets all three to 0. -/
theorem ringFollowsSequence : Obligations.RingFollowsSequence := by
  intro s t hinv h hlt hcursor hcount
  obtain ⟨hwindow, hwindow'⟩ := encWindow_of_wf hinv.cfg
  obtain ⟨hcfg, henc | ⟨_, _, _, _, henc⟩ | ⟨row, henc⟩ | henc | henc⟩ := step_encoder_cases h <;> rw [hcfg, henc]
  · exact ⟨hcursor, hcount⟩
  · have hnext : (s.enc.nextSeq + 1).toNat = s.enc.nextSeq.toNat + 1 := by
      have hadd : (s.enc.nextSeq + 1).toNat = (s.enc.nextSeq.toNat + 1) % 2 ^ 64 := BitVec.toNat_add _ _
      omega
    rw [Encoder.toNat_append_cursor hwindow' hinv.enc.cursor, Encoder.toNat_append_count hwindow',
      Encoder.append_nextSeq, hnext, hcursor, hcount, Nat.mod_add_mod]
    omega
  · simpa using ⟨hcursor, hcount⟩
  · simp
  · simp [Encoder.reset]

/-! Empty originals. -/

/-- A live slot inside PMEM, as 10_state.md R43 (5) writes it. -/
def Odesc.InPmem (cfg : Config) (o : Odesc) : Prop :=
  o.addr.toNat + o.len.toNat ≤ cfg.pmemBytes ∧ o.len.toNat ≤ cfg.maxPayload

/-- ENC_ORIGINAL with LEN = 0 passes its check. -/
theorem encOriginalFailure_of_empty {s : State} (h : s.latch.larg1 = 0) : encOriginalFailure s = none := by
  have hzero : argB s = 0 := by rw [argB, h]; rfl
  rw [encOriginalFailure_eq_none_iff, hzero]
  exact ⟨Nat.zero_le _, .inl rfl⟩

/-- The original that ENC_ORIGINAL appends lies in PMEM, unless it is empty and ADDR is not. -/
theorem appended_inPmem {s : State} (hcfg : s.cfg.wf = true) (hpass : encOriginalFailure s = none)
    (hempty : s.latch.larg1 = 0 → s.latch.larg0.toNat ≤ s.cfg.pmemBytes) :
    Odesc.InPmem s.cfg { seq := s.enc.nextSeq, addr := s.latch.larg0, len := BitVec.ofNat 16 (argB s) } := by
  obtain ⟨_, _, _, _, ⟨_, hmax⟩, _⟩ := (config_wf_iff s.cfg).mp hcfg
  obtain ⟨hlen, hrange⟩ := encOriginalFailure_eq_none_iff.mp hpass
  have hfits : (BitVec.ofNat 16 (argB s)).toNat = argB s := by rw [BitVec.toNat_ofNat]; omega
  rw [Odesc.InPmem, hfits]
  refine ⟨?_, hlen⟩
  obtain hzero | hrange := hrange
  · rw [hzero]
    exact hempty (BitVec.eq_of_toNat_eq hzero)
  · exact hrange

/-- Settles O36: an empty original passes the check whatever ADDR is; of the changes of the encoder only an append makes a live
slot, and its check puts it in PMEM but for an empty one. -/
theorem emptyOriginalMayLieAnywhere : Obligations.EmptyOriginalMayLieAnywhere := by
  constructor
  · rintro s addr rfl hempty
    refine ⟨_, execEncOriginal_of_pass (encOriginalFailure_of_empty hempty), rfl, fun hok => ?_⟩
    simp [argB, hempty, hok.slots, hok.cursor]
  · intro s t hinv hslots h hempty
    obtain ⟨_, hwindow'⟩ := encWindow_of_wf hinv.cfg
    obtain ⟨hcfg, henc | ⟨hturn, hbusy, hd, hpass, henc⟩ | ⟨row, henc⟩ | henc | henc⟩ := step_encoder_cases h <;>
      rw [hcfg, henc]
    · exact hslots
    · have hnew := appended_inPmem (s := s.nextTurn) hinv.cfg hpass (hempty hturn hbusy hd)
      exact fun j hj => liveSlot_append_of_forall (P := Odesc.InPmem s.cfg) hwindow' hinv.enc hnew hslots hj
    · simpa only [Encoder.SlotsInPmem, Encoder.emitted_count, liveSlot_emitted] using hslots
    · exact fun j hj => absurd hj (Nat.not_lt_zero j)
    · exact fun j hj => absurd hj (Nat.not_lt_zero j)

end Sys2Proof.Machine
end

section
/-! SUPPORT and the statements of 20_memory.md R74 and R75, 30_encoding.md R96 and 60_exceptions.md R222 on one step: the turn
that is taken, and the host's statement or the engine's command that it runs. -/

namespace Sys2Proof.Machine

/-! The engine's turn. -/

theorem engineTurn_of_command {s : State} {i : Instr} (hbusy : s.latch.busy = true) (hd : decode s.latch.lcmd = .command i) :
    engineTurn s = exec i s := by
  rw [engineTurn, if_pos hbusy, hd]

theorem engineTurn_of_idle {s : State} (hidle : s.latch.busy = false) : engineTurn s = .next s :=
  if_neg (Bool.eq_false_iff.mp hidle)

/-- Settles O4: the engine's turn with a latched command is the command's meaning. -/
theorem stepRunsDecodedCommand : Obligations.StepRunsDecodedCommand := fun s _ hturn hbusy hd =>
  (step_of_engine_turn hturn).trans (engineTurn_of_command (s := s.nextTurn) hbusy hd)

/-- With a command in flight the engine's turn completes. -/
theorem engineTurn_completes {s : State} (hbusy : s.latch.busy = true) :
    ∃ t, engineTurn s = .next t ∧ t.regs.done = true ∧ t.host = s.host ∧ t.sched = s.sched := by
  cases hd : decode s.latch.lcmd with
  | command i =>
    obtain ⟨t, hexec⟩ := exec_answers i s
    obtain ⟨_, _, _, hcomp, _⟩ := exec_completed hexec
    exact ⟨t, (engineTurn_of_command hbusy hd).trans hexec, hcomp.done, hcomp.host, hcomp.sched⟩
  | illegal why => exact ⟨_, engineTurn_of_illegal hbusy hd, rfl, rfl, rfl⟩

/-! The host's turn. -/

theorem step_of_host_turn {s : State} (h : s.turn = .host) : step s = hostTurn s.nextTurn := by
  rw [step, h, takeTurn]

/-- The host's turn is its next statement. -/
theorem hostTurn_of_stmt {s : State} {stmt : HostStmt} (h : s.host.prog[s.host.pos]? = some stmt) :
    hostTurn s = runStmt s stmt := by
  rw [hostTurn, h]

theorem hostTurn_of_end {s : State} (h : s.host.prog[s.host.pos]? = none) : hostTurn s = .next s := by
  rw [hostTurn, h]

/-- The host's place after a branch (30_encoding.md R99). -/
theorem branched_eq (h : HostAgent) (x : Nat) (mask : Word) (distance : Int) :
    h.branched x mask distance =
      { h with pos := if h.vars.getD x 0 &&& mask = 0 then h.pos + 1 else ((h.pos : Int) + distance).toNat } := by
  unfold HostAgent.branched HostAgent.var
  split <;> rfl

/-- Settles O6: each of the five clauses is one case of the turn that is taken. -/
theorem stepRunsOneAccess : Obligations.StepRunsOneAccess := by
  intro s
  refine ⟨fun hturn off n v hstmt => ?store, fun hturn off n x hstmt => ?load, fun hturn x mask distance hstmt => ?bnz,
    fun hturn hend => ?ended, fun hturn hidle => ?idle⟩
  case store =>
    rw [step_of_host_turn hturn, hostTurn_of_stmt (s := s.nextTurn) hstmt, runStmt]
    cases busWrite s.nextTurn off n v <;> rfl
  case load =>
    rw [step_of_host_turn hturn, hostTurn_of_stmt (s := s.nextTurn) hstmt, runStmt]
    cases busRead s.nextTurn off n <;> rfl
  case bnz =>
    rw [step_of_host_turn hturn, hostTurn_of_stmt (s := s.nextTurn) hstmt, runStmt, State.nextTurn_host, branched_eq]
  case ended => exact (step_of_host_turn hturn).trans (hostTurn_of_end (s := s.nextTurn) hend)
  case idle => exact (step_of_engine_turn hturn).trans (engineTurn_of_idle (s := s.nextTurn) hidle)

/-- Settles O53: the step is the read's, which answers with the host agent alone changed. -/
theorem readsHaveNoSideEffect : Obligations.ReadsHaveNoSideEffect := by
  intro s t off n x hturn hstmt h
  obtain ⟨_, hload, _⟩ := stepRunsOneAccess s
  rw [hload hturn off n x hstmt] at h
  cases hread : busRead s.nextTurn off n with
  | ok v =>
    rw [hread] at h
    cases h
    exact ⟨rfl, rfl⟩
  | fault f =>
    rw [hread] at h
    cases h
  | refused r =>
    rw [hread] at h
    cases h

/-! An acknowledgement of DONE (60_exceptions.md R221 and R222). -/

/-- A host whose next statement writes 1 to DONE clears it. -/
theorem hostTurn_acknowledges {s : State} {v : Word} (hv : v.getLsbD 1 = true)
    (hstmt : s.host.prog[s.host.pos]? = some (.store 0x024 4 v)) :
    ∃ t, hostTurn s = .next t ∧ t.regs.done = false ∧ t.latch = s.latch ∧ t.sched = s.sched := by
  have hwrite : busWrite s 0x024 4 v = .ok (writeStatus s v) := busWrite_regOffset s .status v
  refine ⟨{ writeStatus s v with host := s.host.advanced }, ?_, ?_, rfl, rfl⟩
  · rw [hostTurn_of_stmt hstmt, runStmt, hwrite]
  · simp [writeStatus, hv]

theorem turn_of_sched {s : State} {turn : Turn} {rest : List Turn} (h : s.sched = turn :: rest) : s.turn = turn := by
  rw [State.turn, h]

/-- Two steps that answer next states are a run of two. -/
theorem run_two {s u t : State} (hfirst : step s = .next u) (hsecond : step u = .next t) :
    Sys2Proof.core.run 2 s = .next t := by
  have hfirst' : Sys2Proof.core.step s = .next u := hfirst
  have hsecond' : Sys2Proof.core.step u = .next t := hsecond
  simp only [Host.Core.run, hfirst', hsecond']

/-- Settles O54: the later of the two steps decides DONE. -/
theorem completionAndAcknowledgeInEitherOrder : Obligations.CompletionAndAcknowledgeInEitherOrder := by
  intro s v rest hbusy hv hstmt
  constructor
  · intro hsched
    obtain ⟨u, hhost, _, hlatch, husched⟩ := hostTurn_acknowledges (s := s.nextTurn) hv hstmt
    have huturn : u.turn = .engine := turn_of_sched (rest := rest) (by rw [husched, State.nextTurn_sched, hsched]; rfl)
    have hubusy : u.nextTurn.latch.busy = true := by rw [State.nextTurn_latch, hlatch]; exact hbusy
    obtain ⟨t, hengine, hdone, _⟩ := engineTurn_completes hubusy
    exact ⟨t, run_two ((step_of_host_turn (turn_of_sched hsched)).trans hhost)
      ((step_of_engine_turn huturn).trans hengine), hdone⟩
  · intro hsched
    obtain ⟨u, hengine, _, huhost, husched⟩ := engineTurn_completes (s := s.nextTurn) hbusy
    have huturn : u.turn = .host := turn_of_sched (rest := rest) (by rw [husched, State.nextTurn_sched, hsched]; rfl)
    obtain ⟨t, hhost, hdone, _⟩ := hostTurn_acknowledges (s := u.nextTurn) hv (by rw [State.nextTurn_host, huhost]; exact hstmt)
    exact ⟨t, run_two ((step_of_engine_turn (turn_of_sched hsched)).trans hengine)
      ((step_of_host_turn huturn).trans hhost), hdone⟩

end Sys2Proof.Machine
end

section
/-! SUPPORT and the statements of 10_state.md and 20_memory.md on the registers and the bus: the words of the encoder's
registers, the registers that take no write, the bus errors, and the byte order of PMEM accesses. -/

namespace Sys2Proof.Machine

/-! The words of the encoder's registers (10_state.md R35 to R40). -/

theorem encStateWord_nextColumn (e : Encoder) : (encStateWord e).extractLsb' 0 8 = e.nextColumn := by
  simp (disch := omega) [encStateWord, bitWord, BitVec.extractLsb'_or, extractLsb'_lowField, extractLsb'_field_disjoint]

theorem encStateWord_nextRow (e : Encoder) : (encStateWord e).extractLsb' 8 8 = e.nextRow := by
  simp (disch := omega) [encStateWord, bitWord, BitVec.extractLsb'_or, extractLsb'_lowField_above, extractLsb'_field,
    extractLsb'_field_disjoint]

theorem encStateWord_count (e : Encoder) : (encStateWord e).extractLsb' 16 9 = e.count := by
  simp (disch := omega) [encStateWord, bitWord, BitVec.extractLsb'_or, extractLsb'_lowField_above, extractLsb'_field,
    extractLsb'_field_disjoint]

theorem encStateWord_newData (e : Encoder) : (encStateWord e).getLsbD 25 = e.newData := by
  simp [encStateWord]

theorem encStateWord_reserved (e : Encoder) : (encStateWord e).extractLsb' 26 6 = 0 := by
  simp (disch := omega) [encStateWord, bitWord, BitVec.extractLsb'_or, extractLsb'_lowField_above,
    extractLsb'_field_disjoint]

/-- The two halves of a u64 make it up (20_memory.md R65). -/
theorem hiWord_append_loWord (q : Seq) : hiWord q ++ loWord q = q := by
  rw [hiWord, loWord, BitVec.extractLsb'_append_extractLsb'_eq_extractLsb' (by decide)]
  exact BitVec.extractLsb'_eq_self

/-- Settles O45: each offset is a mapped register's, and its word is read field by field. -/
theorem encoderRegistersRead : Obligations.EncoderRegistersRead := fun s =>
  ⟨_, _, _, _, _, _, _, _, busRead_regOffset s .encState, encStateWord_nextColumn s.enc, encStateWord_nextRow s.enc,
    encStateWord_count s.enc, encStateWord_newData s.enc, encStateWord_reserved s.enc,
    busRead_regOffset s .encCursor, extractLsb'_lowField s.enc.cursor (by decide),
    extractLsb'_lowField_above s.enc.cursor (by decide),
    busRead_regOffset s .encNseqLo, busRead_regOffset s .encNseqHi, hiWord_append_loWord s.enc.nextSeq,
    busRead_regOffset s .encPseqLo, busRead_regOffset s .encPseqHi, hiWord_append_loWord s.enc.nextParity,
    busRead_regOffset s .res0, busRead_regOffset s .res1, busRead_regOffset s .res2, busRead_regOffset s .res3,
    busRead_regOffset s .slvFails, busRead_regOffset s .slvLowestLo, busRead_regOffset s .slvLowestHi,
    hiWord_append_loWord s.regs.slvLowest⟩

/-! The register map (10_state.md R22 and R23). -/

theorem map_regOffset_allRegs : allRegs.map regOffset = mappedOffsets := rfl

/-- The map has no register at an offset that it does not list. -/
theorem regAt_of_unlisted {off : Nat} (h : off ∉ mappedOffsets) : regAt off = none := by
  rw [regAt, List.find?_eq_none]
  intro r hr heq
  rw [← map_regOffset_allRegs] at h
  exact h (List.mem_map.mpr ⟨r, hr, beq_iff_eq.mp heq⟩)

/-- A listed offset is a register's. -/
theorem exists_regOffset_of_listed {off : Nat} (h : off ∈ mappedOffsets) : ∃ r, regOffset r = off := by
  rw [← map_regOffset_allRegs] at h
  obtain ⟨r, _, hr⟩ := List.mem_map.mp h
  exact ⟨r, hr⟩

/-- The registers other than CTRL, STATUS, CMD and ARG0 to ARG2 ignore writes. -/
theorem regWrite_of_readOnly (s : State) {r : RegName} (v : Word)
    (h : regOffset r ∉ [0x020, 0x024, 0x028, 0x030, 0x034, 0x038]) : regWrite s r v = s := by
  cases r with
  | ctrl | status | cmd | arg0 | arg1 | arg2 => simp [regOffset] at h
  | _ => rfl

/-- Settles O47: the map's answer at the offset decides. -/
theorem unlistedAndReadOnlyOffsets : Obligations.UnlistedAndReadOnlyOffsets := by
  intro s off v hlt hal
  refine ⟨fun hun => ⟨?read, ?write⟩, fun hlisted hro => ?readOnly, busRead_regOffset s .cmd⟩
  case read => rw [busRead_of_aligned s hlt hal, readOffset, regAt_of_unlisted hun]
  case write => rw [busWrite_of_aligned s v hlt hal, writeOffset, regAt_of_unlisted hun]
  case readOnly =>
    obtain ⟨r, rfl⟩ := exists_regOffset_of_listed hlisted
    rw [busWrite_regOffset, regWrite_of_readOnly s v hro]

/-- Settles O48: each ARG register's own rule stores the value, and its read answers it. -/
theorem argumentRegistersHoldWrites : Obligations.ArgumentRegistersHoldWrites := fun s v =>
  ⟨_, _, _, busWrite_regOffset s .arg0 v, busRead_regOffset _ .arg0, rfl, busWrite_regOffset s .arg1 v,
    busRead_regOffset _ .arg1, rfl, busWrite_regOffset s .arg2 v, busRead_regOffset _ .arg2, rfl⟩

/-! STATUS and CTRL (10_state.md R30 and R31). -/

theorem writeCtrl_of_noReset {s : State} {v : Word} (h : v.getLsbD 1 = false) :
    writeCtrl s v = { s with regs := { s.regs with irqEn := v.getLsbD 0 } } :=
  if_neg (Bool.eq_false_iff.mp h)

theorem ctrlWord_irqEn (s : State) : (ctrlWord s).getLsbD 0 = s.regs.irqEn := by
  simp [ctrlWord]

theorem ctrlWord_reserved (s : State) : (ctrlWord s).extractLsb' 1 31 = 0 :=
  extractLsb'_lowField_above _ (by decide)

theorem regWrite_status_done (s : State) (v : Word) :
    (regWrite s .status v).regs.done = (s.regs.done && !v.getLsbD 1) := rfl

theorem regWrite_status_overrun (s : State) (v : Word) :
    (regWrite s .status v).regs.overrun = (s.regs.overrun && !v.getLsbD 2) := rfl

/-- Settles O49: the two registers' own rules, flag by flag. -/
theorem statusWriteClearsFlags : Obligations.StatusWriteClearsFlags := by
  intro s v
  refine ⟨⟨_, busWrite_regOffset s .status v, fun hv => ?_, fun hv => ?_, fun hv => ?_, fun hv => ?_, rfl⟩,
    fun hv => ⟨_, busWrite_regOffset s .ctrl v, writeCtrl_of_noReset hv, ?_, ?_⟩,
    _, busRead_regOffset s .ctrl, ctrlWord_irqEn s, ctrlWord_reserved s⟩
  · rw [State.irq, regWrite_status_done, hv]
    simp
  · rw [regWrite_status_done, hv]
    exact Bool.and_true _
  · rw [regWrite_status_overrun, hv]
    exact Bool.and_false _
  · rw [regWrite_status_overrun, hv]
    exact Bool.and_true _
  · rw [regWrite, writeCtrl_of_noReset hv]
    rfl
  · rw [regWrite, writeCtrl_of_noReset hv]

/-! Bus errors (20_memory.md R61, R63 and R64). -/

/-- Which accesses inside the aperture are misplaced. -/
theorem target_eq_busError_iff (cfg : Config) {off : Nat} (n : Nat) (hoff : off < 0x200000) :
    target cfg off n = .busError ↔
      ¬(off < 0x1000 ∧ n = 4 ∧ off % 4 = 0)
      ∧ ¬(0x100000 ≤ off ∧ (n = 1 ∨ n = 2 ∨ n = 4) ∧ (off - 0x100000) % n = 0 ∧ off - 0x100000 + n ≤ cfg.pmemBytes) := by
  unfold target regRegionBytes pmemBase apertureBytes
  split_ifs with hreg hword hbelow hplaced
  · simp [hreg, hword]
  · simp only [true_iff]
    exact ⟨fun ⟨_, h⟩ => hword h, by omega⟩
  · simp only [true_iff]
    exact ⟨by omega, by omega⟩
  · simp only [false_iff]
    exact fun ⟨_, h⟩ => h ⟨by omega, hplaced⟩
  · simp only [true_iff]
    exact ⟨by omega, fun ⟨_, h⟩ => hplaced h⟩

theorem busRead_eq_busError_iff (s : State) (off n : Nat) :
    busRead s off n = .fault .busError ↔ target s.cfg off n = .busError := by
  unfold busRead
  cases target s.cfg off n with
  | pmem a => cases s.latch.busy <;> simp
  | _ => simp

theorem busWrite_eq_busError_iff (s : State) (off n : Nat) (v : Word) :
    busWrite s off n v = .fault .busError ↔ target s.cfg off n = .busError := by
  unfold busWrite
  cases target s.cfg off n with
  | pmem a => cases s.latch.busy <;> simp
  | _ => simp

/-- Settles O50: reads and writes are bus errors where the access's target is. -/
theorem busErrorsExactly : Obligations.BusErrorsExactly := fun s off n v hoff =>
  ⟨(busRead_eq_busError_iff s off n).trans (busWrite_eq_busError_iff s off n v).symm,
    (busRead_eq_busError_iff s off n).trans (target_eq_busError_iff s.cfg n hoff)⟩

/-! The byte order of PMEM accesses (20_memory.md R65). -/

/-- Byte `k` of a number's little-endian bytes. -/
theorem getD_leBytes {n k : Nat} (v : Nat) (hk : k < n) : (leBytes n v).getD k 0 = BitVec.ofNat 8 (v / 256 ^ k) := by
  induction n generalizing v k with
  | zero => omega
  | succ n ih =>
    cases k with
    | zero => simp [leBytes]
    | succ k => rw [leBytes, List.getD_cons_succ, ih _ (Nat.lt_of_succ_lt_succ hk), Nat.div_div_eq_div_mul, ← Nat.pow_succ']

/-- PMEM reads a number where its bytes are the number's. -/
theorem Memory.readLE_of_bytes {m : Memory} {a w v : Nat} (h : ∀ k, k < w → m.read (a + k) = BitVec.ofNat 8 (v / 256 ^ k)) :
    m.readLE a w = v % 256 ^ w := by
  induction w generalizing a v with
  | zero => simp [Memory.readLE, Memory.bytes, leValue, Nat.mod_one]
  | succ w ih =>
    have hfirst : m.read a = BitVec.ofNat 8 v := by simpa using h 0 (Nat.succ_pos w)
    have hrest := ih (a := a + 1) (v := v / 256) fun k hk => by
      rw [Nat.div_div_eq_div_mul, ← Nat.pow_succ', Nat.add_assoc, Nat.add_comm 1 k]
      exact h (k + 1) (Nat.succ_lt_succ hk)
    rw [Memory.readLE] at hrest ⊢
    have hsplit : v % (256 * 256 ^ w) = v % 256 + 256 * (v / 256 % 256 ^ w) := Nat.mod_mul
    rw [Memory.bytes, leValue, hrest, hfirst, Nat.pow_succ', hsplit, BitVec.toNat_ofNat]

/-- A byte of PMEM after a little-endian write. -/
theorem Memory.read_writeLE {m : Memory} (hwf : m.wf = true) (a n v x : Nat) :
    (m.writeLE a n v).read x =
      if a ≤ x ∧ x < a + n then BitVec.ofNat 8 (v / 256 ^ (x - a)) else m.read x := by
  rw [Memory.writeLE, Memory.read_writeBytes hwf, leBytes_length]
  refine if_ctx_congr Iff.rfl (fun hx => ?_) fun _ => rfl
  exact getD_leBytes v (by omega)

/-- Settles O52: the write stores the value's bytes least significant first, and a read inside it puts them together again. -/
theorem hostMemoryIsLittleEndian : Obligations.HostMemoryIsLittleEndian := by
  intro s a n v hwf hidle hsize hal hfit hpmem
  have hnot : ¬s.latch.busy = true := ne_true_of_eq_false hidle
  have hbyte : ∀ k, k < n → (s.pmem.writeLE a n v.toNat).read (a + k) = BitVec.ofNat 8 (v.toNat / 256 ^ k) := by
    intro k hk
    rw [Memory.read_writeLE hwf, if_pos (by omega), Nat.add_sub_cancel_left]
  refine ⟨_, (busWrite_of_wellPlaced hsize hal hfit hpmem v).trans (if_neg hnot), rfl, fun k hk => ?byte,
    fun x hx => ?frame, fun k w hw hkal hkw => ?read⟩
  case byte =>
    rw [State.setPmem_pmem, hbyte k hk]
    apply BitVec.eq_of_toNat_eq
    rw [BitVec.toNat_ofNat, BitVec.extractLsb'_toNat, Nat.shiftRight_eq_div_pow, Nat.pow_mul]
  case frame => rw [State.setPmem_pmem, Memory.read_writeLE hwf, if_neg hx]
  case read =>
    have hal' : (a + k) % w = 0 := by
      obtain rfl | rfl | rfl := hsize <;> obtain rfl | rfl | rfl := hw <;> omega
    rw [Nat.add_assoc 0x100000]
    have hread := busRead_of_wellPlaced (s := s.setPmem (s.pmem.writeLE a n v.toNat)) hw hal'
      (show a + k + w ≤ s.cfg.pmemBytes by omega) hpmem
    refine hread.trans ((if_neg hnot).trans ?_)
    have hvalue : (s.pmem.writeLE a n v.toNat).readLE (a + k) w = v.toNat / 256 ^ k % 256 ^ w := by
      refine Memory.readLE_of_bytes fun j hj => ?_
      rw [Nat.add_assoc, hbyte (k + j) (by omega), Nat.div_div_eq_div_mul, ← Nat.pow_add]
    rw [State.setPmem_pmem, hvalue, Nat.pow_mul, Nat.pow_mul]

end Sys2Proof.Machine
end

section
/-! SUPPORT and the statements of 70_reset_and_hazards.md on the soft reset and the reset input. -/

namespace Sys2Proof.Machine

/-- Settles O55: State.reset is written out with the values of the table. -/
theorem resetValuesMatchTable : Obligations.ResetValuesMatchTable :=
  ⟨rfl, rfl, rfl, rfl, rfl, rfl, rfl, rfl, rfl, rfl, rfl, rfl, rfl, rfl, rfl, rfl, rfl, rfl, rfl, rfl, rfl, rfl, rfl⟩

/-- A block whose registers, encoder and latch a reset has written. -/
theorem atResetValues_of_reset {t : State} {window : Nat} (hregs : t.regs = { Regs.reset with irqEn := t.regs.irqEn })
    (henc : t.enc = Encoder.reset window) (hlatch : t.latch = Latch.reset) : AtResetValues t := by
  refine ⟨hregs, ?_, ?_, ?_⟩
  · rw [hlatch]
    rfl
  · rw [henc]
    exact ⟨rfl, rfl, rfl, rfl⟩
  · rw [henc]
    exact ⟨rfl, rfl, rfl⟩

/-- The write set of a latched command in flight (70_reset_and_hazards.md R242). -/
theorem inFlightWriteSet_of_command {s : State} {i : Instr} (hbusy : s.latch.busy = true)
    (hd : decode s.latch.lcmd = .command i) : s.inFlightWriteSet = writeSet i s := by
  rw [State.inFlightWriteSet, if_pos hbusy, hd]

theorem inFlightWriteSet_of_idle {s : State} (hidle : s.latch.busy = false) : s.inFlightWriteSet = [] :=
  if_neg (Bool.eq_false_iff.mp hidle)

theorem inFlightWriteSet_of_illegal {s : State} {why : IllegalWord} (hd : decode s.latch.lcmd = .illegal why) :
    s.inFlightWriteSet = [] := by
  rw [State.inFlightWriteSet, hd]
  exact ite_self _

theorem writeCtrl_of_reset {s : State} {v : Word} (h : v.getLsbD 1 = true) :
    writeCtrl s v = { s.softReset with regs := { s.softReset.regs with irqEn := v.getLsbD 0 } } :=
  if_pos h

/-- Settles O56: the soft reset replaces the block but PMEM, of which it draws the write set of the command in flight. -/
theorem softResetKeepsPmem : Obligations.SoftResetKeepsPmem := by
  intro s v hv hwf
  have hpmem : ∀ a, (writeCtrl s v).pmem.read a =
      if a ∈ s.inFlightWriteSet then Config.freeByte s.draws a else s.pmem.read a := fun a => by
    rw [writeCtrl_of_reset hv]
    exact Memory.read_scramble hwf s.draws a s.inFlightWriteSet
  refine ⟨writeCtrl s v, busWrite_regOffset s .ctrl v, ?reset, ?irqEn, ?irq, ?cfg, ?draws, ?host, ?sched,
    fun hidle a => ?idle, fun why hd a => ?illegal, fun i hbusy hd => ⟨fun a ha => ?kept, fun a ha => ?drawn⟩⟩
  case reset =>
    rw [writeCtrl_of_reset hv]
    exact atResetValues_of_reset (window := s.cfg.encWindow) rfl rfl rfl
  case irq =>
    rw [writeCtrl_of_reset hv]
    exact Bool.and_false _
  case idle =>
    rw [hpmem, inFlightWriteSet_of_idle hidle]
    rfl
  case illegal =>
    rw [hpmem, inFlightWriteSet_of_illegal hd]
    rfl
  case kept => rw [hpmem, inFlightWriteSet_of_command hbusy hd, if_neg ha]
  case drawn => rw [hpmem, inFlightWriteSet_of_command hbusy hd, if_pos ha]
  all_goals rw [writeCtrl_of_reset hv]
  all_goals rfl

/-- A byte of freely drawn cells: those drawn as an unlisted byte are not listed. -/
theorem Memory.read_drawn_range' (draw : Nat) {lo n a : Nat} (hlo : lo ≤ a) (hhi : a < lo + n) :
    Memory.read ((List.range' lo n).filterMap fun x =>
      if Config.freeByte draw x = Memory.unlisted then none else some (x, Config.freeByte draw x)) a
      = Config.freeByte draw a := by
  induction n generalizing lo with
  | zero => omega
  | succ n ih =>
    rw [List.range'_succ, List.filterMap_cons]
    obtain rfl | hlt := Nat.eq_or_lt_of_le hlo
    · by_cases hb : Config.freeByte draw lo = Memory.unlisted
      · simp only [hb, if_true]
        exact Memory.read_below (Memory.wfFrom_drawn draw n (lo + 1)) (Nat.lt_succ_self lo)
      · simp only [hb, if_false, Memory.read_cons, if_true]
    · by_cases hb : Config.freeByte draw lo = Memory.unlisted
      · simp only [hb, if_true]
        exact ih hlt (by omega)
      · simp only [hb, if_false, Memory.read_cons, if_neg (Nat.ne_of_lt hlt)]
        exact ih hlt (by omega)

/-- A byte of a freely drawn PMEM (93_implementation_defined.md U2). -/
theorem Memory.read_drawn (draw : Nat) {size a : Nat} (ha : a < size) :
    (Memory.drawn draw size).read a = Config.freeByte draw a := by
  rw [Memory.drawn, List.range_eq_range']
  exact Memory.read_drawn_range' draw (Nat.zero_le a) (by omega)

/-- Settles O57: the reset input replaces the block and draws every byte. -/
theorem hardwareResetDrawsPmem : Obligations.HardwareResetDrawsPmem := by
  intro s hturn
  refine ⟨s.nextTurn.hwReset, by rw [step, hturn, takeTurn], atResetValues_of_reset (window := s.cfg.encWindow) rfl rfl rfl,
    rfl, rfl, rfl, rfl, rfl, rfl, fun a ha => ?_⟩
  exact Memory.read_drawn s.draws ha

end Sys2Proof.Machine
end

section
/-! SUPPORT and the statements of 40_gf256.md R113, R115, R117, R122 and R123: the laws of the field, den, and the scalar
commands that check their operands. -/

namespace Sys2Proof.Machine

/-! The laws of the field (40_gf256.md R115). -/

section
variable {poly : BitVec 9} (hpoly : poly.getLsbD 8 = true)
include hpoly

theorem gfMul_comm (a b : Byte) : gfMul poly a b = gfMul poly b a :=
  residue_injective hpoly (by simp only [residue_gfMul hpoly, mul_comm])

theorem gfMul_xor (a b c : Byte) : gfMul poly a (b ^^^ c) = gfMul poly a b ^^^ gfMul poly a c :=
  residue_injective hpoly (by simp only [residue_gfMul hpoly, residue_xor, mul_add])

end

section
variable {poly : BitVec 9} (hprim : primitive poly = true)
include hprim

theorem gfMul_ne_zero {a b : Byte} (ha : a ≠ 0) (hb : b ≠ 0) : gfMul poly a b ≠ 0 := by
  intro hzero
  refine ha (gfMul_right_cancel hprim hb ?_)
  rw [hzero]
  exact (zero_gfMul (getLsbD_of_primitive hprim) b).symm

/-- `gf_inv(b)` is an inverse of `b`. -/
theorem gfMul_gfInv_right {b : Byte} (hb : b ≠ 0) : gfMul poly b (gfInv poly b) = 1 := by
  rw [gfMul_comm (getLsbD_of_primitive hprim)]
  exact gfMul_gfInv hprim hb

end

/-- A turn on a power of x below x^7 needs no reduction. -/
theorem timesX_of_lt (poly : BitVec 9) {x : BitVec 9} (h : x.toNat < 2 ^ 7) : timesX poly x = x <<< 1 := by
  have hx : x.getLsbD 7 = false := Nat.testBit_lt_two_pow h
  have hbit : (x <<< 1).getLsbD 8 = false := by
    rw [BitVec.getLsbD_shiftLeft]
    show (_ && x.getLsbD 7) = false
    rw [hx, Bool.and_false]
  exact if_neg (Bool.eq_false_iff.mp hbit)

/-- The loop of R112 does not read p(x) where no turn but the last can carry `x` past degree 7. -/
theorem gfMulLoop_eq_of_lt (poly poly' : BitVec 9) (k : Nat) (r x : BitVec 9) (y : Byte)
    (h : x.toNat * 2 ^ k ≤ 2 ^ 8) : gfMulLoop poly k r x y = gfMulLoop poly' k r x y := by
  induction k generalizing r x y with
  | zero => rfl
  | succ k ih =>
    rw [gfMulLoop_succ, gfMulLoop_succ]
    obtain rfl | hk := Nat.eq_zero_or_pos k
    · rfl
    · have hlarge : 2 ≤ 2 ^ k := Nat.le_self_pow hk.ne' 2
      have hx : x.toNat < 2 ^ 7 := by
        have hle := Nat.mul_le_mul_left x.toNat (Nat.mul_le_mul_right 2 hlarge)
        rw [← pow_succ] at hle
        omega
      have hdouble : (x <<< 1).toNat = x.toNat * 2 := by
        rw [BitVec.toNat_shiftLeft, Nat.shiftLeft_eq]
        omega
      rw [timesX_of_lt poly hx, timesX_of_lt poly' hx]
      refine ih _ _ _ ?_
      rw [hdouble, Nat.mul_assoc, ← Nat.pow_succ']
      exact h

/-- A byte is its own product with 1, whatever p(x) is: only the last turn could reduce, and its `x` is not added. -/
theorem one_gfMul (poly : BitVec 9) (a : Byte) : gfMul poly 1 a = a := by
  have hdegree : (0x14D : BitVec 9).getLsbD 8 = true := by decide
  have hsame : gfMul poly 1 a = gfMul 0x14D 1 a :=
    congrArg (BitVec.setWidth 8) (gfMulLoop_eq_of_lt poly 0x14D 8 0 (BitVec.setWidth 9 (1 : Byte)) a (by decide))
  have hone : residue 0x14D 1 = 1 := residue_one 0x14D
  rw [hsame]
  exact residue_injective hdegree (by rw [residue_gfMul hdegree, hone, one_mul])

/-- Settles O16: a byte whose product with b is 1 has the product that the inverse has, and b cancels. -/
theorem inverseIsUnique : Obligations.InverseIsUnique := by
  intro poly b hprim hb
  have hpoly := getLsbD_of_primitive hprim
  refine ⟨gfMul_gfInv_right hprim hb, fun z hz => gfMul_right_cancel hprim hb ?_⟩
  rw [gfMul_comm hpoly z, hz]
  exact (gfMul_gfInv hprim hb).symm

/-- gf_inv(0x02) for the default GF_POLY: the byte whose product with 0x02 is 1. -/
theorem gfInv_default_two : gfInv 0x14D 0x02 = 0xA6 := by
  obtain ⟨hprim, _⟩ := (config_wf_iff Config.default).mp config_default_wf
  obtain ⟨_, hunique⟩ := inverseIsUnique 0x14D 0x02 hprim (by decide)
  exact (hunique 0xA6 (by decide)).symm

/-- Settles O15: bytes multiply as residues modulo p(x), and division by a nonzero byte undoes multiplication. -/
theorem fieldLawsHold : Obligations.FieldLawsHold :=
  ⟨fun poly hpoly a b c => ⟨gfMul_comm hpoly a b, gfMul_assoc hpoly a b c, gfMul_xor hpoly a b c, one_gfMul poly a,
      zero_gfMul hpoly a⟩,
    fun _ hprim a _ => ⟨gfMul_ne_zero hprim, fun hb => gfMul_gfDiv hprim hb a⟩,
    by decide, by decide, by decide, by decide, gfInv_default_two⟩

/-! den (40_gf256.md R117). -/

theorem den_eq_zero_iff (cfg : Config) (row col : Byte) : den cfg row col = 0 ↔ row = col + cfg.cauchyOffset :=
  BitVec.xor_eq_zero_iff

/-- Settles O17: den is 0 at the column row - CAUCHY_OFFSET alone. -/
theorem eachRowHasOneDegenerateColumn : Obligations.EachRowHasOneDegenerateColumn := by
  intro cfg row
  refine ⟨fun col => ?_, ⟨row - cfg.cauchyOffset, ?_⟩, fun c c' hc hc' => ?_⟩
  · rw [den, BitVec.ofNat_add, BitVec.ofNat_toNat, BitVec.ofNat_toNat, BitVec.setWidth_eq, BitVec.setWidth_eq]
  · rw [den_eq_zero_iff, BitVec.sub_add_cancel]
  · rw [den_eq_zero_iff] at hc hc'
    exact add_right_cancel (hc.symm.trans hc')

/-! GF_DIV and GF_CAUCHY (40_gf256.md R122 and R123). -/

theorem execGfDiv_of_zero (a : Byte) (s : State) : execGfDiv a 0 s = .next (s.raise .invalidInput) := if_pos rfl

theorem execGfDiv_of_ne {b : Byte} (hb : b ≠ 0) (a : Byte) (s : State) :
    execGfDiv a b s = .next (s.complete .success (scalarResult (gfDiv s.cfg.gfPoly a b))) := if_neg hb

/-- Settles O21: the check on b, and the quotient that its product with b undoes. -/
theorem gfDivReportsQuotient : Obligations.GfDivReportsQuotient := by
  refine fun a b => ⟨decode_wordAB (.gfDiv a b), fun s hcfg => ⟨?_, fun hb => ?_⟩⟩
  · rintro rfl
    exact ⟨_, execGfDiv_of_zero a s, onlyReported_raise s .invalidInput⟩
  · obtain ⟨hprim, _⟩ := (config_wf_iff s.cfg).mp hcfg
    exact ⟨_, _, execGfDiv_of_ne hb a s, onlyReported_success s (scalarResult (gfDiv s.cfg.gfPoly a b)), rfl,
      gfMul_gfDiv hprim hb a⟩

/-- Settles O22: the two checks in order, and the inverse of den. -/
theorem gfCauchyReportsCoefficient : Obligations.GfCauchyReportsCoefficient := by
  refine fun row col => ⟨decode_wordAB (.gfCauchy row col), fun s hcfg => ⟨fun hrow => ?_, fun hrow hden => ?_,
    fun hrow hden => ?_⟩⟩
  · exact ⟨_, if_pos hrow, onlyReported_raise s .invalidInput⟩
  · have hzero := (den_eq_zero_iff s.cfg row col).mpr hden
    exact ⟨_, (if_neg hrow).trans (if_pos hzero), onlyReported_raise s .degenerate⟩
  · obtain ⟨hprim, _⟩ := (config_wf_iff s.cfg).mp hcfg
    have hne : den s.cfg row col ≠ 0 := (den_eq_zero_iff s.cfg row col).not.mpr hden
    exact ⟨_, _, (if_neg hrow).trans (if_neg hne), onlyReported_success s (scalarResult (cauchy s.cfg row col)), rfl,
      gfMul_gfInv_right hprim hne⟩

end Sys2Proof.Machine
end

section
/-! SUPPORT and the statements of 41_rowgen_encoder.md on the failures of GEN_ROW and ENC_RECOVERY, the parity payload, the
column bytes, the parity slices, and ENC_RECOVERY as a GEN_ROW over the live slots. -/

namespace Sys2Proof.Machine

/-! The parity payload (41_rowgen_encoder.md R140). -/

theorem coef_parity (cfg : Config) (q : Nat) : coef cfg 0 q = 1 := by
  rw [coef, coefCol, if_pos rfl]

theorem rowByte_parity (cfg : Config) (m : Memory) (es : List Odesc) (b : Nat) :
    rowByte cfg m 0 es b = es.foldr (fun e acc => prefixedByte m e.addr.toNat e.len.toNat b ^^^ acc) 0 := by
  simp only [rowByte, coef_parity, one_gfMul, gfAdd, Odesc.prefixedAt, prefixed_eq_prefixedByte]

theorem getD_rowPayload (cfg : Config) (m : Memory) (row : Byte) {es : List Odesc} {b : Nat} (hb : b < outLen es) :
    (rowPayload cfg m row es).getD b 0 = rowByte cfg m row es b := by
  simp [rowPayload, List.getD_eq_getElem?_getD, hb]

/-- Settles O27: the coefficients of row 0 are 1, whose products are the bytes themselves. -/
theorem parityPayloadIsPlainXor : Obligations.ParityPayloadIsPlainXor := fun cfg m es b hb =>
  (getD_rowPayload cfg m 0 hb).trans (rowByte_parity cfg m es b)

/-! The failures of GEN_ROW (41_rowgen_encoder.md R144). -/

/-- The checks 1 to 4 of GEN_ROW, on the `n` ODESCs from `list` up. -/
structure GenRowForm (s : State) (list n : Nat) : Prop where
  count : 1 ≤ n ∧ n ≤ s.cfg.maxCols
  listInRange : list + 16 * n ≤ s.cfg.pmemBytes
  contiguous : ∀ k, k < n → (odescAt s.pmem (list + 16 * k)).seq = (odescAt s.pmem list).seq + BitVec.ofNat 64 k
  payloads : ∀ k, k < n → (odescAt s.pmem (list + 16 * k)).payloadOk s.cfg = true

/-- A sequence of checks does not report the code of its first check exactly where that passes and the others do not. -/
theorem ite_some_ne_some_iff {c : Prop} [Decidable c] {code : ResultCode} {rest : Option ResultCode} :
    (if c then some code else rest) ≠ some code ↔ ¬c ∧ rest ≠ some code := by
  by_cases hc : c <;> simp [hc]

section
variable {row : Byte} {s : State} {list n : Nat} (hlist : s.latch.larg1.toNat = list) (hn : s.latch.larg2.toNat = n)
include hlist hn

/-- The checks 1 to 4 as the model makes them. -/
theorem genRowForm_iff : GenRowForm s list n ↔ (1 ≤ argC s ∧ argC s ≤ s.cfg.maxCols)
    ∧ inRange s.cfg (argB s) (16 * argC s) = true ∧ contiguousFrom (genRowJob row s).start (genRowJob row s).es = true
    ∧ (genRowJob row s).es.any (fun e => !e.payloadOk s.cfg) = false := by
  subst hlist hn
  constructor
  · rintro ⟨⟨hleast, hmost⟩, hlist, hcontig, hpayload⟩
    rw [genRowJob_start hleast, genRowJob_es, contiguousFrom_map_range_iff, any_map_range_eq_false_iff]
    exact ⟨⟨hleast, hmost⟩, (inRange_iff _ _ _).mpr (.inr hlist), hcontig, fun k hk => by rw [hpayload k hk]; rfl⟩
  · rintro ⟨⟨hleast, hmost⟩, hlist, hcontig, hpayload⟩
    rw [genRowJob_start hleast, genRowJob_es, contiguousFrom_map_range_iff] at hcontig
    rw [genRowJob_es, any_map_range_eq_false_iff] at hpayload
    exact ⟨⟨hleast, hmost⟩, ((inRange_iff _ _ _).mp hlist).resolve_left (by omega), hcontig,
      fun k hk => by simpa using hpayload k hk⟩

/-- Where one of the checks 1 to 4 fails, GEN_ROW reports INVALID_INPUT. -/
theorem genRowFailure_of_not_form (h : ¬GenRowForm s list n) : genRowFailure row s = some .invalidInput := by
  by_contra hne
  rw [genRowFailure, ← Ne, ite_some_ne_some_iff, ite_some_ne_some_iff, ite_some_ne_some_iff, ite_some_ne_some_iff] at hne
  obtain ⟨hcount, hrange, hcontig, hpayload, _⟩ := hne
  refine h ((genRowForm_iff (row := row) hlist hn).mpr ⟨?_, by simpa using hrange, by simpa using hcontig,
    Bool.eq_false_iff.mpr hpayload⟩)
  simp only [Bool.or_eq_true, decide_eq_true_iff] at hcount
  omega

/-- Where the checks 1 to 4 hold, the coefficients and the output range decide. -/
theorem genRowFailure_of_form (h : GenRowForm s list n) : genRowFailure row s =
    if ((List.range n).map fun k => odescAt s.pmem (list + 16 * k)).any
        fun e => degenerateAt s.cfg row (columnByte e.seq.toNat) then some .degenerate
    else if !inRange s.cfg (argA s) (outLen ((List.range n).map fun k => odescAt s.pmem (list + 16 * k))) then
      some .invalidInput
    else none := by
  obtain ⟨hcount, hrange, hcontig, hpayload⟩ := (genRowForm_iff (row := row) hlist hn).mp h
  have hpass : ¬(decide (argC s < 1) || decide (argC s > s.cfg.maxCols)) = true := by
    simp only [Bool.or_eq_true, decide_eq_true_iff]
    omega
  subst hlist hn
  rw [genRowFailure, if_neg hpass, hrange, hcontig, hpayload]
  rfl

end

theorem execGenRow_of_failure {row : Byte} {s : State} {code : ResultCode} (h : genRowFailure row s = some code) :
    execGenRow row s = .next (s.raise code) := by
  rw [execGenRow, h]

/-- Some original meets a column where den is 0. -/
theorem any_degenerate_iff {cfg : Config} {row : Byte} {n : Nat} {es : Nat → Odesc} :
    ((List.range n).map es).any (fun e => degenerateAt cfg row (columnByte e.seq.toNat)) = true ↔
      row ≠ 0 ∧ ∃ k, k < n ∧ row = columnAt cfg (es k).seq.toNat := by
  simp only [List.any_map, List.any_eq_true, List.mem_range, Function.comp, degenerateAt_columnByte_iff]
  exact ⟨fun ⟨k, hk, hrow, hcol⟩ => ⟨hrow, k, hk, hcol⟩, fun ⟨hrow, k, hk, hcol⟩ => ⟨k, hk, hrow, hcol⟩⟩

/-- Settles O26: the checks 1 to 4 first, then the coefficients, then the output range. -/
theorem genRowReportsFirstFailure : Obligations.GenRowReportsFirstFailure := by
  rintro row s _ list n len rfl hlist hn
  refine ⟨fun hbad => ?form, fun hleast hmost hrange hcontig hpayload => ?_⟩
  case form =>
    refine ⟨_, execGenRow_of_failure (genRowFailure_of_not_form hlist hn fun h => ?_), onlyReported_raise s _⟩
    obtain ⟨⟨hleast, hmost⟩, hrange, hcontig, hpayload⟩ := h
    obtain hbad | hbad | hbad | ⟨k, hk, hne⟩ | ⟨k, hk, hno⟩ := hbad
    · omega
    · omega
    · omega
    · exact hne (hcontig k hk)
    · exact absurd (hpayload k hk) (ne_true_of_eq_false hno)
  have hchecks := genRowFailure_of_form (row := row) hlist hn ⟨⟨hleast, hmost⟩, hrange, hcontig, hpayload⟩
  refine ⟨fun hrow hcol => ?coef, fun hcoef hlong hout => ?range⟩
  case coef =>
    rw [if_pos (any_degenerate_iff.mpr ⟨hrow, hcol⟩)] at hchecks
    exact ⟨_, execGenRow_of_failure hchecks, onlyReported_raise s _⟩
  case range =>
    have hnone : ¬((List.range n).map fun k => odescAt s.pmem (list + 16 * k)).any
        (fun e => degenerateAt s.cfg row (columnByte e.seq.toNat)) = true := by
      rw [any_degenerate_iff]
      exact fun ⟨hrow, k, hk, hcol⟩ => hcoef hrow k hk hcol
    obtain ⟨_, k, hk, hlen⟩ := id hlong
    have hoverflow : inRange s.cfg (argA s) len = false := by
      rw [Bool.eq_false_iff, Ne, inRange_iff, argA]
      omega
    rw [if_neg hnone, outLen_eq_of_longest hlong, hoverflow] at hchecks
    exact ⟨_, execGenRow_of_failure hchecks, onlyReported_raise s _⟩

/-! The failures of ENC_RECOVERY (41_rowgen_encoder.md R155). -/

theorem execEncRecovery_of_failure {s : State} {code : ResultCode} (h : encRecoveryFailure s = some code) :
    execEncRecovery s = .next (s.raise code) := by
  rw [execEncRecovery, h]

/-- The row that ENC_RECOVERY chooses, as the statements write it out. -/
theorem chosenRow_eq_recoveryRow (e : Encoder) :
    chosenRow e ((e.nextSeq.toNat + 2 ^ 64 - e.count.toNat) % 2 ^ 64) = e.recoveryRow := by
  rw [← Encoder.toNat_spanStart]
  rfl

/-- ENC_RECOVERY's first two checks. -/
theorem encRecoveryFailure_of_noData {s : State} (h : s.enc.count.toNat < 2 ∨ s.enc.newData = false) :
    encRecoveryFailure s = some .needsMoreData := by
  unfold encRecoveryFailure
  by_cases hcount : s.enc.count.toNat < 2
  · rw [if_pos hcount]
  · rw [if_neg hcount, h.resolve_left hcount]
    rfl

/-- Where the first two checks hold, the coefficients and the output range decide. -/
theorem encRecoveryFailure_of_data {s : State} (hok : s.enc.Ok s.cfg) (hcount : 2 ≤ s.enc.count.toNat)
    (hnew : s.enc.newData = true) : encRecoveryFailure s =
    if ((List.range s.enc.count.toNat).map (liveSlot s.cfg s.enc)).any
        fun e => degenerateAt s.cfg s.enc.recoveryRow (columnByte e.seq.toNat) then some .degenerate
    else if !inRange s.cfg (argA s) (outLen ((List.range s.enc.count.toNat).map (liveSlot s.cfg s.enc))) then
      some .invalidInput
    else none := by
  have hcolumns : (List.range s.enc.count.toNat).any (fun j => degenerateAt s.cfg s.enc.recoveryRow (s.enc.column j))
      = ((List.range s.enc.count.toNat).map (liveSlot s.cfg s.enc)).any
        fun e => degenerateAt s.cfg s.enc.recoveryRow (columnByte e.seq.toNat) := by
    rw [List.any_map, Bool.eq_iff_iff, List.any_eq_true, List.any_eq_true]
    refine exists_congr fun j => and_congr_right fun hj => ?_
    rw [Encoder.column_eq_columnByte hok (List.mem_range.mp hj)]
    rfl
  rw [encRecoveryFailure, if_neg (by omega), hnew, hcolumns]
  rfl

/-- Settles O30: COUNT and NEW_DATA first, then the coefficients of the live originals, then the output range. -/
theorem encRecoveryReportsFirstFailure : Obligations.EncRecoveryReportsFirstFailure := by
  rintro s _ _ start len row hok _ rfl rfl rfl hrow
  rw [chosenRow_eq_recoveryRow] at hrow
  subst hrow
  refine ⟨fun hno => ?data, fun hcount hnew hrow hcol => ?coef, fun hcount hnew hcoef hlong hout => ?range⟩
  case data => exact ⟨_, execEncRecovery_of_failure (encRecoveryFailure_of_noData hno), onlyReported_raise s _⟩
  case coef =>
    have hchecks := encRecoveryFailure_of_data hok hcount hnew
    rw [if_pos (any_degenerate_iff.mpr ⟨hrow, hcol⟩)] at hchecks
    exact ⟨_, execEncRecovery_of_failure hchecks, onlyReported_raise s _⟩
  case range =>
    have hchecks := encRecoveryFailure_of_data hok hcount hnew
    have hnone : ¬((List.range s.enc.count.toNat).map (liveSlot s.cfg s.enc)).any
        (fun e => degenerateAt s.cfg s.enc.recoveryRow (columnByte e.seq.toNat)) = true := by
      rw [any_degenerate_iff]
      exact fun ⟨hrow, k, hk, hcol⟩ => hcoef hrow k hk hcol
    obtain ⟨_, k, hk, hlen⟩ := id hlong
    have hoverflow : inRange s.cfg (argA s) len = false := by
      rw [Bool.eq_false_iff, Ne, inRange_iff, argA]
      omega
    rw [if_neg hnone, outLen_eq_of_longest hlong, hoverflow] at hchecks
    exact ⟨_, execEncRecovery_of_failure hchecks, onlyReported_raise s _⟩

/-! Column bytes (41_rowgen_encoder.md R149). -/

/-- The column that ENC_RECOVERY checks, as a number. -/
theorem Encoder.toNat_column (e : Encoder) (j : Nat) :
    ((e.column j).toNat : Int) = ((e.nextColumn.toNat : Int) - e.count.toNat + j) % 256 := by
  have hcolumn := e.nextColumn.isLt
  simp only [Encoder.column, BitVec.toNat_add, BitVec.toNat_sub, BitVec.toNat_ofNat]
  omega

/-- Settles O32: the column is a difference of bytes, and in a well-formed encoder the byte of the original's sequence. -/
theorem columnByteIsSequenceByte : Obligations.ColumnByteIsSequenceByte :=
  ⟨fun _ => BitVec.toNat_ofNat _ _,
    fun _ e j => ⟨e.toNat_column j, fun hok hj => Encoder.column_eq_columnByte hok hj⟩⟩

/-! RES of a recovery packet. -/

/-- ROW in RES2. -/
theorem rowCountWord_row (row : Byte) (n : Nat) : (rowCountWord row n).extractLsb' 16 16 = row.setWidth 16 := by
  rw [rowCountWord, BitVec.extractLsb'_or, extractLsb'_lowField_above _ (by decide)]
  ext i hi
  simp [show 16 + i < 32 by omega, BitVec.getElem_setWidth]

/-- n in RES2. -/
theorem rowCountWord_count (row : Byte) (n : Nat) : (rowCountWord row n).extractLsb' 0 16 = BitVec.ofNat 16 n := by
  rw [rowCountWord, BitVec.extractLsb'_or, extractLsb'_lowField _ (by decide), extractLsb'_field_disjoint _ (by decide)]
  exact BitVec.zero_or

theorem setWidth_eq_zero_iff (row : Byte) : row.setWidth 16 = 0 ↔ row = 0 := by
  refine ⟨fun h => BitVec.eq_of_toNat_eq ?_, fun h => by rw [h]; rfl⟩
  have hnat : (row.setWidth 16).toNat = 0 := by rw [h]; rfl
  rw [BitVec.toNat_setWidth] at hnat
  have hlt := row.isLt
  show row.toNat = 0
  omega

/-- The RES values of a successful ENC_RECOVERY. -/
theorem encRecovery_success {s t : State} (h : exec .encRecovery s = .next t) (hsucc : t.regs.result = .success) :
    encRecoveryFailure s = none
      ∧ t = ((s.setPmem ((encRecoveryJob s).writtenTo s.cfg s.pmem)).setEnc
          (s.enc.emitted s.enc.recoveryRow)).complete .success ((encRecoveryJob s).results s.enc.spanStart) := by
  obtain ⟨code, hfail, rfl⟩ | hpass := execEncRecovery_cases h
  · obtain rfl : code = .success := hsucc
    obtain hcode | hcode | hcode := encRecoveryFailure_code hfail <;> cases hcode
  · exact hpass

theorem encRecoveryJob_length (s : State) : (encRecoveryJob s).es.length = s.enc.count.toNat := by
  simp [encRecoveryJob, liveSlots]

/-! Parity slices (41_rowgen_encoder.md R158). -/

/-- Settles O34: the parity row is chosen where the span starts at or after NextParitySequence, which then moves to its end. -/
theorem paritySlicesAreDisjoint : Obligations.ParitySlicesAreDisjoint := by
  intro i s t h
  refine ⟨fun hne => ?owner, ?parity, ?cauchy⟩
  case owner =>
    obtain henc | ⟨_, _, henc⟩ | ⟨hi, _⟩ | ⟨hi, _⟩ := exec_encoder_cases h
    · exact absurd (congrArg Encoder.nextParity henc) hne
    · exact absurd (congrArg Encoder.nextParity henc) hne
    · exact .inl hi
    · exact .inr hi
  case parity =>
    rintro rfl hsucc hrow hok _
    obtain ⟨_, rfl⟩ := encRecovery_success h hsucc
    have hzero : s.enc.recoveryRow = 0 :=
      (setWidth_eq_zero_iff _).mp ((rowCountWord_row s.enc.recoveryRow (encRecoveryJob s).es.length).symm.trans hrow)
    have hstart : s.enc.nextParity.toNat ≤ s.enc.spanStart.toNat := by
      by_contra hlt
      exact hok.row ((if_neg hlt).symm.trans hzero)
    have hword : hiWord s.enc.spanStart ++ loWord s.enc.spanStart = s.enc.spanStart := hiWord_append_loWord _
    have hspan : (BitVec.ofNat 16 (encRecoveryJob s).es.length).setWidth 64 = s.enc.count.setWidth 64 := by
      have hlt := s.enc.count.isLt
      apply BitVec.eq_of_toNat_eq
      simp only [encRecoveryJob_length, BitVec.toNat_setWidth, BitVec.toNat_ofNat]
      omega
    simp only [State.complete_res0, State.complete_res1, State.complete_res2, State.complete_enc, State.setEnc_enc,
      reported_success, RowJob.results, hword, rowCountWord_count, hspan, Encoder.emitted_nextParity, hzero, if_true]
    exact ⟨hstart, (BitVec.sub_add_cancel _ _).symm⟩
  case cauchy =>
    rintro rfl hsucc hrow
    obtain ⟨_, rfl⟩ := encRecovery_success h hsucc
    have hne : s.enc.recoveryRow ≠ 0 := fun hzero =>
      hrow ((rowCountWord_row s.enc.recoveryRow (encRecoveryJob s).es.length).trans ((setWidth_eq_zero_iff _).mpr hzero))
    exact (Encoder.emitted_nextParity s.enc s.enc.recoveryRow).trans (if_neg hne)

/-! ENC_RECOVERY as a GEN_ROW (41_rowgen_encoder.md R157). -/

/-- A number of `n` bytes is the value of its little-endian bytes. -/
theorem ofNat_readLE_of_bytes {m : Memory} {a n w : Nat} (v : BitVec w) (hw : w = 8 * n)
    (h : ∀ k, k < n → m.read (a + k) = (leBytes n v.toNat).getD k 0) : BitVec.ofNat w (m.readLE a n) = v := by
  have hvalue : m.readLE a n = v.toNat % 256 ^ n :=
    Memory.readLE_of_bytes fun k hk => (h k hk).trans (getD_leBytes _ hk)
  have hlt : v.toNat < 256 ^ n := v.isLt.trans_eq (by rw [hw, Nat.pow_mul])
  rw [hvalue, Nat.mod_eq_of_lt hlt, BitVec.ofNat_toNat, BitVec.setWidth_eq]

/-- An ODESC is read back from its bytes (20_memory.md R67). -/
theorem odescAt_of_bytes {m : Memory} {a : Nat} {e : Odesc} (h : ∀ b, b < 16 → m.read (a + b) = (odescBytes e).getD b 0) :
    odescAt m a = e := by
  have hseq : BitVec.ofNat 64 (m.readLE a 8) = e.seq := by
    refine ofNat_readLE_of_bytes e.seq rfl fun k hk => ?_
    rw [h k (by omega), odescBytes, List.append_assoc, List.append_assoc, List.getD_append _ _ _ _ (by simpa using hk)]
  have haddr : BitVec.ofNat 32 (m.readLE (a + 8) 4) = e.addr := by
    refine ofNat_readLE_of_bytes e.addr rfl fun k hk => ?_
    rw [Nat.add_assoc, h (8 + k) (by omega), odescBytes, List.append_assoc, List.append_assoc,
      List.getD_append_right _ _ _ _ (by simp), leBytes_length, Nat.add_sub_cancel_left,
      List.getD_append _ _ _ _ (by simpa using hk)]
  have hlen : BitVec.ofNat 16 (m.readLE (a + 12) 2) = e.len := by
    refine ofNat_readLE_of_bytes e.len rfl fun k hk => ?_
    rw [Nat.add_assoc, h (12 + k) (by omega), odescBytes, List.append_assoc,
      List.getD_append_right _ _ _ _ (by simp), List.length_append, leBytes_length, leBytes_length,
      Nat.add_sub_cancel_left, List.getD_append _ _ _ _ (by simpa using hk)]
  rw [odescAt, hseq, haddr, hlen]

/-- The greatest prefixed length is that of some original. -/
theorem exists_prefixedLen_eq_outLen {es : List Odesc} (h : es ≠ []) : ∃ e ∈ es, e.prefixedLen = outLen es := by
  induction es with
  | nil => exact absurd rfl h
  | cons e es ih =>
    have hmax : outLen (e :: es) = max e.prefixedLen (outLen es) := rfl
    rw [hmax]
    obtain hle | hle := Nat.le_total (outLen es) e.prefixedLen
    · exact ⟨e, List.mem_cons_self, (Nat.max_eq_left hle).symm⟩
    · obtain rfl | hne := eq_or_ne es []
      · exact ⟨e, List.mem_cons_self, (Nat.max_eq_left (Nat.zero_le _)).symm⟩
      · obtain ⟨e', hmem, hlen⟩ := ih hne
        exact ⟨e', List.mem_cons_of_mem _ hmem, by rw [hlen, Nat.max_eq_right hle]⟩

theorem longestPrefixed_outLen {n : Nat} (hn : 0 < n) (es : Nat → Odesc) :
    LongestPrefixed n es (outLen ((List.range n).map es)) := by
  constructor
  · intro k hk
    exact (outLen_le_iff _ _).mp (Nat.le_refl _) _ (List.mem_map_of_mem (List.mem_range.mpr hk))
  · have hne : (List.range n).map es ≠ [] := by simpa using hn.ne'
    obtain ⟨e, hmem, hlen⟩ := exists_prefixedLen_eq_outLen hne
    obtain ⟨k, hk, rfl⟩ := List.mem_map.mp hmem
    exact ⟨k, List.mem_range.mp hk, hlen⟩

/-- RES3 holds the output length. -/
theorem outLen_lt (es : List Odesc) : outLen es < 2 ^ 32 := by
  refine Nat.lt_of_le_of_lt ((outLen_le_iff es 65537).mpr fun e _ => ?_) (by decide)
  have hlen := e.len.isLt
  rw [Odesc.prefixedLen]
  omega

/-- A prefixed payload depends on the bytes of the payload alone. -/
theorem prefixedByte_congr {m m' : Memory} {addr len : Nat} (h : ∀ b, b < len → m.read (addr + b) = m'.read (addr + b))
    (k : Nat) : prefixedByte m addr len k = prefixedByte m' addr len k := by
  match k with
  | 0 => rfl
  | 1 => rfl
  | k + 2 => exact if_ctx_congr Iff.rfl (h k) fun _ => rfl

/-- A recovery payload depends on the parameters and on the bytes of the payloads alone. -/
theorem payloadByte_congr {s u : State} {n : Nat} {es : Nat → Odesc} (hcfg : u.cfg = s.cfg)
    (h : ∀ k, k < n → ∀ b, b < (es k).len.toNat →
      u.pmem.read ((es k).addr.toNat + b) = s.pmem.read ((es k).addr.toNat + b)) (row : Byte) (b : Nat) :
    payloadByte u row n es b = payloadByte s row n es b := by
  rw [payloadByte, payloadByte, hcfg]
  exact xorOver_congr fun k hk => by rw [prefixedByte_congr (h k hk)]

/-- The span of a recovery packet starts at (NextSequence - COUNT) mod 2^64 (41_rowgen_encoder.md R153). -/
theorem encRecoveryJob_start {s : State} (hok : s.enc.Ok s.cfg) (hcount : 1 ≤ s.enc.count.toNat) :
    (encRecoveryJob s).start = s.enc.spanStart := by
  have hes : (encRecoveryJob s).es = (List.range s.enc.count.toNat).map (liveSlot s.cfg s.enc) := rfl
  obtain ⟨n, hn⟩ := Nat.exists_eq_add_of_le' hcount
  have hfirst := hok.sequences 0 hcount
  rw [RowJob.start, hes, hn, List.range_succ_eq_map]
  simpa [Encoder.spanStart] using hfirst

/-- GEN_ROW passes its checks on the live slots of an encoder whose recovery does. -/
theorem genRowFailure_of_recovery {s u : State} (hcfg : s.cfg.wf = true) (hok : s.enc.Ok s.cfg) (hucfg : u.cfg = s.cfg)
    (hn : u.latch.larg2.toNat = s.enc.count.toNat)
    (hlist : u.latch.larg1.toNat + 16 * s.enc.count.toNat ≤ s.cfg.pmemBytes)
    (hjob : genRowJob s.enc.recoveryRow u = encRecoveryJob s) (hpass : encRecoveryFailure s = none) :
    genRowFailure s.enc.recoveryRow u = none := by
  obtain ⟨_, ⟨_, hwindow⟩, _⟩ := (config_wf_iff s.cfg).mp hcfg
  obtain ⟨hcount, _, hcoefs, hrange⟩ := encRecoveryFailure_eq_none_iff.mp hpass
  have hmost := hok.count
  have hes : (encRecoveryJob s).es = (List.range s.enc.count.toNat).map (liveSlot s.cfg s.enc) := rfl
  have hstart := encRecoveryJob_start hok (show 1 ≤ s.enc.count.toNat by omega)
  have hdst : argA u = argA s := congrArg RowJob.dst hjob
  rw [genRowFailure_eq_none_iff, hjob, hstart, hes, contiguousFrom_map_range_iff, any_map_range_eq_false_iff,
    any_map_range_eq_false_iff, hucfg, inRange_iff, argB, argC, hn, hdst]
  refine ⟨⟨by omega, by omega⟩, .inr hlist, hok.sequences, fun k hk => ?_, fun k hk => ?_, hrange⟩
  · rw [hok.payloads k hk]
    rfl
  · rw [← Encoder.column_eq_columnByte hok hk]
    exact hcoefs k hk

/-- Settles O33: the list holds the live slots, so both commands write the same packet over payloads that agree. -/
theorem encRecoveryEqualsGenRow : Obligations.EncRecoveryEqualsGenRow := by
  rintro s u t _ hcfg hok hwf huwf hucfg hdst rfl hn hlist hbytes hpayloads h hsucc
  obtain ⟨hpass, rfl⟩ := encRecovery_success h hsucc
  obtain ⟨hcount, _⟩ := encRecoveryFailure_eq_none_iff.mp hpass
  have hes : (encRecoveryJob s).es = (List.range s.enc.count.toNat).map (liveSlot s.cfg s.enc) := rfl
  have hjob : genRowJob s.enc.recoveryRow u = encRecoveryJob s := by
    have hlists : (genRowJob s.enc.recoveryRow u).es = (encRecoveryJob s).es := by
      rw [genRowJob_es, hn, hes]
      exact List.map_congr_left fun k hk => odescAt_of_bytes (hbytes k (List.mem_range.mp hk))
    rw [genRowJob, encRecoveryJob, RowJob.mk.injEq]
    exact ⟨rfl, hlists, congrArg BitVec.toNat hdst⟩
  have hgen := execGenRow_of_pass (genRowFailure_of_recovery hcfg hok hucfg hn hlist hjob hpass)
  rw [hjob, encRecoveryJob_start hok (by omega)] at hgen
  have hlong := longestPrefixed_outLen (n := s.enc.count.toNat) (by omega) (liveSlot s.cfg s.enc)
  refine ⟨_, hgen, rfl, rfl, rfl, rfl, rfl, fun b hb => ?_⟩
  have hlen : b < outLen ((List.range s.enc.count.toNat).map (liveSlot s.cfg s.enc)) := by
    have hres : ((encRecoveryJob s).results s.enc.spanStart).r3.toNat = outLen (encRecoveryJob s).es := by
      rw [RowJob.results, BitVec.toNat_ofNat, Nat.mod_eq_of_lt (outLen_lt _)]
    exact hb.trans_eq hres
  calc ((encRecoveryJob s).writtenTo u.cfg u.pmem).read (argA s + b)
      = payloadByte u s.enc.recoveryRow s.enc.count.toNat (liveSlot s.cfg s.enc) b :=
        RowJob.read_writtenTo_payload hes hlong huwf hlen
    _ = payloadByte s s.enc.recoveryRow s.enc.count.toNat (liveSlot s.cfg s.enc) b :=
        payloadByte_congr hucfg hpayloads _ b
    _ = ((encRecoveryJob s).writtenTo s.cfg s.pmem).read (argA s + b) :=
        (RowJob.read_writtenTo_payload hes hlong hwf hlen).symm

end Sys2Proof.Machine
end

section
/-! SUPPORT. Systems of equations over the field, as ForwardEliminate and BackSubstitute work on them (42_solver.md R177 to
R179): how far values are from solving a row, triangular systems, and what the row operations keep. -/

namespace Sys2Proof.Machine

/-! Triangular systems. -/

/-- The square matrix `a` of `n` rows has no zero on its diagonal and zeros before it. -/
def UpperTriangular (a : Nat → Nat → Byte) (n : Nat) : Prop := ∀ j, j < n → a j j ≠ 0 ∧ ∀ j', j' < j → a j j' = 0

theorem UpperTriangular.of_succ {a : Nat → Nat → Byte} {n : Nat} (h : UpperTriangular a (n + 1)) : UpperTriangular a n :=
  fun j hj => h j (Nat.lt_succ_of_lt hj)

theorem xorOver_eq_zero {n : Nat} {f : Nat → Byte} (h : ∀ k, k < n → f k = 0) : xorOver n f = 0 := by
  induction n with
  | zero => rfl
  | succ n ih =>
    rw [xorOver_succ, ih fun k hk => h k (Nat.lt_succ_of_lt hk), h n (Nat.lt_succ_self n)]
    rfl

section
variable {poly : BitVec 9} (hprim : primitive poly = true) {a : Nat → Nat → Byte}
include hprim

/-- The last row of a triangular matrix has its diagonal entry alone. -/
theorem UpperTriangular.xorOver_last {n : Nat} (h : UpperTriangular a (n + 1)) (x : Nat → Byte) :
    xorOver (n + 1) (fun j => gfMul poly (a n j) (x j)) = gfMul poly (a n n) (x n) := by
  obtain ⟨_, hzero⟩ := h n (Nat.lt_succ_self n)
  rw [xorOver_succ, xorOver_eq_zero fun j hj => by rw [hzero j hj]; exact zero_gfMul (getLsbD_of_primitive hprim) _]
  exact BitVec.zero_xor

/-- A triangular system with zeros on its right side has no solution but zeros. -/
theorem UpperTriangular.eq_zero {n : Nat} (h : UpperTriangular a n) {x : Nat → Byte}
    (hx : ∀ j, j < n → xorOver n (fun j' => gfMul poly (a j j') (x j')) = 0) : ∀ j, j < n → x j = 0 := by
  induction n with
  | zero => exact fun j hj => absurd hj (Nat.not_lt_zero j)
  | succ n ih =>
    obtain ⟨hdiag, _⟩ := h n (Nat.lt_succ_self n)
    have hlast : x n = 0 := by
      by_contra hne
      exact gfMul_ne_zero hprim hdiag hne ((h.xorOver_last hprim x).symm.trans (hx n (Nat.lt_succ_self n)))
    have hrest : ∀ j, j < n → xorOver n (fun j' => gfMul poly (a j j') (x j')) = 0 := by
      intro j hj
      have hrow := hx j (Nat.lt_succ_of_lt hj)
      have hterm : gfMul poly (a j n) 0 = 0#8 := gfMul_zero (getLsbD_of_primitive hprim) _
      rwa [xorOver_succ, hlast, hterm, BitVec.xor_zero] at hrow
    intro j hj
    obtain rfl | hlt := Nat.eq_or_lt_of_le (Nat.le_of_lt_succ hj)
    · exact hlast
    · exact ih h.of_succ hrest j hlt

/-- A triangular system has a solution, whatever its right side is. -/
theorem UpperTriangular.exists_solution {n : Nat} (h : UpperTriangular a n) (v : Nat → Byte) :
    ∃ x : Nat → Byte, ∀ j, j < n → xorOver n (fun j' => gfMul poly (a j j') (x j')) = v j := by
  have hpoly := getLsbD_of_primitive hprim
  induction n generalizing v with
  | zero => exact ⟨fun _ => 0, fun j hj => absurd hj (Nat.not_lt_zero j)⟩
  | succ n ih =>
    obtain ⟨hdiag, _⟩ := h n (Nat.lt_succ_self n)
    obtain ⟨x, hx⟩ := ih h.of_succ fun j => v j ^^^ gfMul poly (a j n) (gfDiv poly (v n) (a n n))
    have hsame : ∀ j j', j' < n → gfMul poly (a j j') (if j' < n then x j' else gfDiv poly (v n) (a n n))
        = gfMul poly (a j j') (x j') := fun j j' hj' => by rw [if_pos hj']
    refine ⟨fun j => if j < n then x j else gfDiv poly (v n) (a n n), fun j hj => ?_⟩
    obtain rfl | hlt := Nat.eq_or_lt_of_le (Nat.le_of_lt_succ hj)
    · rw [h.xorOver_last hprim, if_neg (Nat.lt_irrefl _), gfMul_comm hpoly, gfMul_gfDiv hprim hdiag]
    · rw [xorOver_succ, xorOver_congr (hsame j), hx j hlt, BitVec.xor_assoc]
      simp

end

/-! How far values are from solving a row. -/

/-- The XOR of a row's products with the values `x` and of its data byte `b`: 0 where `x` solves the row. -/
def WorkRow.defect (poly : BitVec 9) (c : Nat) (x : Nat → Byte) (b : Nat) (w : WorkRow) : Byte :=
  xorOver c (fun j => gfMul poly (w.coefs.getD j 0) (x j)) ^^^ w.data.getD b 0

/-- Values solve a row where its products with them make its data byte. -/
theorem defect_eq_zero_iff {poly : BitVec 9} {c : Nat} {x : Nat → Byte} {b : Nat} {w : WorkRow} :
    w.defect poly c x b = 0 ↔ xorOver c (fun j => gfMul poly (w.coefs.getD j 0) (x j)) = w.data.getD b 0 :=
  BitVec.xor_eq_zero_iff

/-- An element of a row with a multiple of another row added, past the rows' end too. -/
theorem getD_addRow_scaleRow_all {poly : BitVec 9} (hpoly : poly.getLsbD 8 = true) {t : Byte} {xs ys : List Byte}
    (hlen : ys.length = xs.length) (j : Nat) :
    (addRow xs (scaleRow poly t ys)).getD j 0 = xs.getD j 0 ^^^ gfMul poly t (ys.getD j 0) := by
  by_cases hj : j < xs.length
  · exact getD_addRow_scaleRow hlen hj
  · rw [List.getD_eq_default _ _ (by rw [addRow_length (by simpa using hlen)]; omega),
      List.getD_eq_default _ _ (by omega), List.getD_eq_default _ _ (by omega)]
    have hzero : gfMul poly t 0 = 0 := gfMul_zero hpoly t
    rw [hzero]
    rfl

/-- Row operations act on the defects as on the rows. -/
theorem defect_addScaled {poly : BitVec 9} (hpoly : poly.getLsbD 8 = true) {c b : Nat} {x : Nat → Byte} (f : Byte)
    {pivot w : WorkRow} (hcoefs : pivot.coefs.length = w.coefs.length) (hdata : pivot.data.length = w.data.length) :
    (WorkRow.addScaled poly f pivot w).defect poly c x b
      = w.defect poly c x b ^^^ gfMul poly f (pivot.defect poly c x b) := by
  apply residue_injective hpoly
  simp only [WorkRow.defect, WorkRow.addScaled, getD_addRow_scaleRow_all hpoly hcoefs, getD_addRow_scaleRow_all hpoly hdata,
    residue_xor, residue_gfMul hpoly, residue_xorOver, add_mul, mul_add, Finset.sum_add_distrib, Finset.mul_sum, mul_assoc]
  ring

/-! ForwardEliminate, whatever the matrix is. -/

/-- A run over some columns and then others. -/
theorem forwardEliminate_append (poly : BitVec 9) (js js' : List Nat) (ws : List WorkRow) (piv : List Nat) :
    forwardEliminate poly (js ++ js') ws piv =
      (forwardEliminate poly js ws piv).bind fun res => forwardEliminate poly js' res.1 res.2 := by
  induction js generalizing ws piv with
  | nil => rfl
  | cons j js ih =>
    rw [List.cons_append, forwardEliminate, forwardEliminate]
    cases findPivot ws piv j with
    | none => rfl
    | some p => exact ih _ _

/-- A run that has a column left finds its pivot and goes on. -/
theorem forwardEliminate_cons_eq_some {poly : BitVec 9} {j : Nat} {js : List Nat} {ws ws' : List WorkRow}
    {piv piv' : List Nat} (h : forwardEliminate poly (j :: js) ws piv = some (ws', piv')) :
    ∃ p, findPivot ws piv j = some p
      ∧ forwardEliminate poly js (eliminateColumn poly ws (piv ++ [p]) p j) (piv ++ [p]) = some (ws', piv') := by
  rw [forwardEliminate] at h
  split at h
  · cases h
  · exact ⟨_, ‹_›, h⟩

/-- A run adds pivots after those that were there. -/
theorem forwardEliminate_prefix {poly : BitVec 9} {js : List Nat} {ws ws' : List WorkRow} {piv piv' : List Nat}
    (h : forwardEliminate poly js ws piv = some (ws', piv')) : piv <+: piv' := by
  induction js generalizing ws piv with
  | nil =>
    cases h
    exact List.prefix_rfl
  | cons j js ih =>
    obtain ⟨p, _, hrest⟩ := forwardEliminate_cons_eq_some h
    exact (List.prefix_append piv [p]).trans (ih hrest)

/-- A run keeps the rows and adds one pivot for each column. -/
theorem forwardEliminate_length {poly : BitVec 9} {js : List Nat} {ws ws' : List WorkRow} {piv piv' : List Nat}
    (h : forwardEliminate poly js ws piv = some (ws', piv')) :
    ws'.length = ws.length ∧ piv'.length = piv.length + js.length := by
  induction js generalizing ws piv with
  | nil =>
    cases h
    exact ⟨rfl, rfl⟩
  | cons j js ih =>
    obtain ⟨p, _, hrest⟩ := forwardEliminate_cons_eq_some h
    obtain ⟨hrows, hlen⟩ := ih hrest
    rw [List.length_append, List.length_singleton] at hlen
    exact ⟨hrows.trans eliminateColumn_length, by rw [hlen, List.length_cons]; omega⟩

/-- The pivots are distinct rows of `r`. -/
def DistinctRows (r : Nat) (piv : List Nat) : Prop := piv.Nodup ∧ ∀ p ∈ piv, p < r

theorem distinctRows_nil (r : Nat) : DistinctRows r [] := ⟨List.nodup_nil, fun _ hp => absurd hp List.not_mem_nil⟩

theorem DistinctRows.append {r p : Nat} {piv : List Nat} (h : DistinctRows r piv) (hp : p < r) (hnew : p ∉ piv) :
    DistinctRows r (piv ++ [p]) := by
  obtain ⟨hnodup, hlt⟩ := h
  refine ⟨List.nodup_append.mpr ⟨hnodup, List.nodup_singleton p, fun q hq q' hq' => ?_⟩, fun q hq => ?_⟩
  · rintro rfl
    exact hnew (List.mem_singleton.mp hq' ▸ hq)
  · exact (List.mem_append.mp hq).elim (hlt q) fun hq => List.mem_singleton.mp hq ▸ hp

/-- The pivots of a run are distinct rows. -/
theorem forwardEliminate_distinct {poly : BitVec 9} {js : List Nat} {ws ws' : List WorkRow} {piv piv' : List Nat}
    (h : forwardEliminate poly js ws piv = some (ws', piv')) (hpiv : DistinctRows ws.length piv) :
    DistinctRows ws.length piv' := by
  induction js generalizing ws piv with
  | nil =>
    cases h
    exact hpiv
  | cons j js ih =>
    obtain ⟨p, hfind, hrest⟩ := forwardEliminate_cons_eq_some h
    obtain ⟨⟨hp, hnew, _⟩, _⟩ := findPivot_eq_some hfind
    have hdone := ih hrest (by rw [eliminateColumn_length]; exact hpiv.append hp hnew)
    rwa [eliminateColumn_length] at hdone

/-- A run keeps the shape of the working arrays. -/
theorem forwardEliminate_shaped {poly : BitVec 9} {c n : Nat} {js : List Nat} {ws ws' : List WorkRow}
    {piv piv' : List Nat} (h : forwardEliminate poly js ws piv = some (ws', piv')) (hshape : Shaped c n ws) :
    Shaped c n ws' := by
  induction js generalizing ws piv with
  | nil =>
    cases h
    exact hshape
  | cons j js ih =>
    obtain ⟨p, hfind, hrest⟩ := forwardEliminate_cons_eq_some h
    obtain ⟨⟨hp, _⟩, _⟩ := findPivot_eq_some hfind
    exact ih hrest (hshape.eliminateColumn hp)

section
variable {poly : BitVec 9} (hpoly : poly.getLsbD 8 = true) {c n : Nat} (x : Nat → Byte) (b : Nat)
include hpoly

/-- The defects after column `j` is eliminated: a multiple of the pivot row's is added to each unused row's. -/
theorem defect_eliminateColumn {ws : List WorkRow} {used : List Nat} {p j i : Nat} (hshape : Shaped c n ws)
    (hp : p < ws.length) (hi : i < ws.length) :
    ∃ f, ((eliminateColumn poly ws used p j).getD i WorkRow.none).defect poly c x b
      = (ws.getD i WorkRow.none).defect poly c x b ^^^ gfMul poly f ((ws.getD p WorkRow.none).defect poly c x b) := by
  obtain ⟨hic, hid⟩ := hshape.getD hi
  obtain ⟨hpc, hpd⟩ := hshape.getD hp
  rw [getD_eliminateColumn hi]
  split
  · exact ⟨_, defect_addScaled hpoly _ (hpc.trans hic.symm) (hpd.trans hid.symm)⟩
  · refine ⟨0, ?_⟩
    have hzero : gfMul poly 0 ((ws.getD p WorkRow.none).defect poly c x b) = 0#8 := zero_gfMul hpoly _
    rw [hzero, BitVec.xor_zero]

/-- Where values solve the pivot row, they solve the other rows before and after alike. -/
theorem defect_eliminateColumn_eq_zero_iff {ws : List WorkRow} {used : List Nat} {p j i : Nat} (hshape : Shaped c n ws)
    (hp : p < ws.length) (hi : i < ws.length) (hsolved : (ws.getD p WorkRow.none).defect poly c x b = 0) :
    ((eliminateColumn poly ws used p j).getD i WorkRow.none).defect poly c x b = 0
      ↔ (ws.getD i WorkRow.none).defect poly c x b = 0 := by
  obtain ⟨f, hf⟩ := defect_eliminateColumn hpoly x b (used := used) (j := j) hshape hp hi
  have hzero : gfMul poly f 0 = 0#8 := gfMul_zero hpoly f
  rw [hf, hsolved, hzero, BitVec.xor_zero]

omit hpoly in
/-- A pivot row stays as it is. -/
theorem getD_eliminateColumn_of_used {ws : List WorkRow} {used : List Nat} {p j i : Nat} (hi : i < ws.length)
    (hused : i ∈ used) : (eliminateColumn poly ws used p j).getD i WorkRow.none = ws.getD i WorkRow.none := by
  rw [getD_eliminateColumn hi, if_neg fun ⟨hfree, _⟩ => hfree hused]

/-- Values solve a set of rows that holds the pivots exactly where they solve the set after the run. -/
theorem forwardEliminate_solved_iff {js : List Nat} {ws ws' : List WorkRow} {piv piv' : List Nat}
    (h : forwardEliminate poly js ws piv = some (ws', piv')) (hshape : Shaped c n ws) {S : Nat → Prop}
    (hS : ∀ p ∈ piv', S p) :
    (∀ i, i < ws.length → S i → (ws.getD i WorkRow.none).defect poly c x b = 0)
      ↔ ∀ i, i < ws.length → S i → (ws'.getD i WorkRow.none).defect poly c x b = 0 := by
  induction js generalizing ws piv with
  | nil =>
    cases h
    exact Iff.rfl
  | cons j js ih =>
    obtain ⟨p, hfind, hrest⟩ := forwardEliminate_cons_eq_some h
    obtain ⟨⟨hp, _⟩, _⟩ := findPivot_eq_some hfind
    have hused : p ∈ piv ++ [p] := List.mem_append_right _ (List.mem_singleton_self p)
    have hSp : S p := hS p ((forwardEliminate_prefix hrest).subset hused)
    have hturn := ih hrest (hshape.eliminateColumn hp)
    rw [eliminateColumn_length] at hturn
    rw [← hturn]
    have hkept := getD_eliminateColumn_of_used (poly := poly) (p := p) (j := j) hp hused
    constructor
    · intro hsolved i hi hSi
      exact (defect_eliminateColumn_eq_zero_iff hpoly x b hshape hp hi (hsolved p hp hSp)).mpr (hsolved i hi hSi)
    · intro hsolved i hi hSi
      exact (defect_eliminateColumn_eq_zero_iff hpoly x b hshape hp hi (hkept ▸ hsolved p hp hSp)).mp (hsolved i hi hSi)

end

/-! The pivot rows are upper triangular. -/

/-- The pivot rows, in the order of their columns, as a square matrix. -/
def pivotMatrix (ws : List WorkRow) (piv : List Nat) (j j' : Nat) : Byte := entryAt ws (piv.getD j 0) j'

section
variable {poly : BitVec 9} {a : Nat → Nat → Byte} {r c n : Nat} {ws : List WorkRow} {piv : List Nat}
  (hprim : primitive poly = true)

/-- One more pivot: its row is cleared before its column, and the others stay as they are. -/
theorem EliminatedTo.upperTriangular_step (h : EliminatedTo poly a r c n ws piv) (hpiv : DistinctRows ws.length piv)
    (htri : UpperTriangular (pivotMatrix ws piv) piv.length) {p : Nat} (hfind : findPivot ws piv piv.length = some p) :
    UpperTriangular (pivotMatrix (eliminateColumn poly ws (piv ++ [p]) p piv.length) (piv ++ [p]))
      (piv ++ [p]).length := by
  obtain ⟨⟨hp, hnew, hentry⟩, _⟩ := findPivot_eq_some hfind
  have hkept : ∀ q ∈ piv ++ [p], ∀ j', entryAt (eliminateColumn poly ws (piv ++ [p]) p piv.length) q j' = entryAt ws q j' :=
    fun q hq j' => by
      rw [entryAt, getD_eliminateColumn_of_used ((hpiv.append hp hnew).2 q hq) hq]
      rfl
  intro j hj
  rw [List.length_append, List.length_singleton] at hj
  obtain rfl | hlt := Nat.eq_or_lt_of_le (Nat.le_of_lt_succ hj)
  · have hlast : (piv ++ [p]).getD piv.length 0 = p := by simp
    simp only [pivotMatrix, hlast, hkept p (List.mem_append_right _ (List.mem_singleton_self p))]
    exact ⟨hentry, h.cleared p (h.rows ▸ hp) hnew⟩
  · have hearlier : (piv ++ [p]).getD j 0 = piv.getD j 0 := List.getD_append _ _ _ _ hlt
    have hmem : piv.getD j 0 ∈ piv ++ [p] := by
      rw [List.getD_eq_getElem _ _ hlt]
      exact List.mem_append_left _ (List.getElem_mem hlt)
    simp only [pivotMatrix, hearlier, hkept _ hmem]
    exact htri j hlt

include hprim in
/-- A run over some of the columns that are left, where it finds a pivot for each. -/
theorem EliminatedTo.run {left : Nat} {ws' : List WorkRow} {piv' : List Nat} (h : EliminatedTo poly a r c n ws piv)
    (hpiv : DistinctRows ws.length piv) (htri : UpperTriangular (pivotMatrix ws piv) piv.length)
    (hleft : piv.length + left ≤ c)
    (hrun : Machine.forwardEliminate poly (List.range' piv.length left) ws piv = some (ws', piv')) :
    EliminatedTo poly a r c n ws' piv' ∧ UpperTriangular (pivotMatrix ws' piv') piv'.length := by
  induction left generalizing ws piv with
  | zero =>
    obtain ⟨rfl, rfl⟩ : ws = ws' ∧ piv = piv' := by simpa [Machine.forwardEliminate] using hrun
    exact ⟨h, htri⟩
  | succ left ih =>
    rw [List.range'_succ] at hrun
    obtain ⟨p, hfind, hrest⟩ := forwardEliminate_cons_eq_some hrun
    obtain ⟨⟨hp, hnew, _⟩, _⟩ := findPivot_eq_some hfind
    refine ih (h.step hprim (by omega) hfind) ?_ (h.upperTriangular_step hpiv htri hfind) ?_ ?_
    · rw [eliminateColumn_length]
      exact hpiv.append hp hnew
    · rw [List.length_append, List.length_singleton]
      omega
    · simpa using hrest

end

/-- A run over the first `k` columns, where it finds a pivot for each. -/
theorem forwardEliminate_reduced {poly : BitVec 9} (hprim : primitive poly = true) {c n k : Nat} {ws ws' : List WorkRow}
    {piv : List Nat} (hshape : Shaped c n ws) (hk : k ≤ c)
    (hrun : forwardEliminate poly (List.range k) ws [] = some (ws', piv)) :
    EliminatedTo poly (entryAt ws) ws.length c n ws' piv ∧ UpperTriangular (pivotMatrix ws' piv) k ∧ piv.length = k := by
  have hstart : EliminatedTo poly (entryAt ws) ws.length c n ws [] := EliminatedTo.initial rfl hshape fun _ _ _ _ => rfl
  obtain ⟨_, hlen⟩ := forwardEliminate_length hrun
  rw [List.length_range, List.length_nil, Nat.zero_add] at hlen
  rw [List.range_eq_range'] at hrun
  obtain ⟨hdone, htri⟩ := hstart.run hprim (distinctRows_nil _) (fun j hj => absurd hj (Nat.not_lt_zero j))
    (by simpa using hk) hrun
  exact ⟨hdone, hlen ▸ htri, hlen⟩

/-! Rank deficiency (42_solver.md R177). -/

/-- No row may be the pivot. -/
theorem findPivot_eq_none_iff {ws : List WorkRow} {used : List Nat} {j : Nat} :
    findPivot ws used j = none ↔ ∀ i, i < ws.length → i ∉ used → entryAt ws i j = 0 := by
  simp only [findPivot, List.find?_eq_none, List.mem_range, Bool.and_eq_true, Bool.not_eq_true', List.contains_eq_mem,
    decide_eq_false_iff_not, bne_iff_ne, not_and, Decidable.not_not]

/-- A run over one more column. -/
theorem forwardEliminate_range_succ (poly : BitVec 9) (k : Nat) (ws : List WorkRow) :
    forwardEliminate poly (List.range (k + 1)) ws [] =
      (forwardEliminate poly (List.range k) ws []).bind fun res => forwardEliminate poly [k] res.1 res.2 := by
  rw [List.range_succ, forwardEliminate_append]

/-- A run fails exactly where, after the columns before, some column has no pivot. -/
theorem forwardEliminate_eq_none_iff {poly : BitVec 9} {c : Nat} {ws : List WorkRow} :
    forwardEliminate poly (List.range c) ws [] = none ↔
      ∃ j wj piv, j < c ∧ forwardEliminate poly (List.range j) ws [] = some (wj, piv) ∧ findPivot wj piv j = none := by
  induction c with
  | zero => simp [forwardEliminate]
  | succ c ih =>
    rw [forwardEliminate_range_succ]
    cases hrun : forwardEliminate poly (List.range c) ws [] with
    | none =>
      obtain ⟨j, wj, piv, hj, hprefix⟩ := ih.mp hrun
      simp only [Option.bind_none, true_iff]
      exact ⟨j, wj, piv, Nat.lt_succ_of_lt hj, hprefix⟩
    | some res =>
      obtain ⟨wc, pivc⟩ := res
      simp only [Option.bind_some, forwardEliminate]
      constructor
      · intro h
        split at h
        · exact ⟨c, wc, pivc, Nat.lt_succ_self c, hrun, ‹_›⟩
        · cases h
      · rintro ⟨j, wj, piv, hj, hprefix, hnone⟩
        obtain rfl | hlt := Nat.eq_or_lt_of_le (Nat.le_of_lt_succ hj)
        · obtain ⟨rfl, rfl⟩ : wc = wj ∧ pivc = piv := by simpa using hrun.symm.trans hprefix
          rw [hnone]
        · have hfail := ih.mpr ⟨j, wj, piv, hlt, hprefix, hnone⟩
          cases hrun.symm.trans hfail

/-- A run that succeeds does so on its first columns too, and the column after them has the pivot that the run has. -/
theorem forwardEliminate_eq_some_prefix {poly : BitVec 9} {c j : Nat} {ws ws' : List WorkRow} {piv : List Nat}
    (h : forwardEliminate poly (List.range c) ws [] = some (ws', piv)) (hj : j < c) :
    ∃ wj, forwardEliminate poly (List.range j) ws [] = some (wj, piv.take j) ∧ findPivot wj (piv.take j) j = some (piv.getD j 0) := by
  have hsplit : List.range c = List.range j ++ j :: List.range' (j + 1) (c - (j + 1)) := by
    have happend := List.range'_append_1 (s := 0) (m := j) (n := c - (j + 1) + 1)
    rw [Nat.zero_add, List.range'_succ] at happend
    rw [List.range_eq_range', List.range_eq_range', happend]
    congr 1
    omega
  rw [hsplit, forwardEliminate_append, Option.bind_eq_some_iff] at h
  obtain ⟨⟨wj, pivj⟩, hprefix, hrest⟩ := h
  obtain ⟨p, hfind, hrest⟩ := forwardEliminate_cons_eq_some hrest
  obtain ⟨_, hlen⟩ := forwardEliminate_length hprefix
  rw [List.length_range, List.length_nil, Nat.zero_add] at hlen
  obtain ⟨later, rfl⟩ := forwardEliminate_prefix hrest
  have htake : (pivj ++ [p] ++ later).take j = pivj := by
    rw [List.append_assoc, List.take_append_of_le_length hlen.ge, List.take_of_length_le hlen.le]
  have hget : (pivj ++ [p] ++ later).getD j 0 = p := by
    rw [← hlen, List.append_assoc]
    simp
  rw [htake, hget]
  exact ⟨wj, hprefix, hfind⟩

/-- Rows without data: what values make of them is what the matrix makes of the values. -/
theorem defect_of_noData {poly : BitVec 9} {c i : Nat} {ws : List WorkRow} (hshape : Shaped c 0 ws) (hi : i < ws.length)
    (x : Nat → Byte) :
    (ws.getD i WorkRow.none).defect poly c x 0 = xorOver c fun j => gfMul poly (entryAt ws i j) (x j) := by
  obtain ⟨_, hdata⟩ := hshape.getD hi
  rw [WorkRow.defect, List.eq_nil_of_length_eq_zero hdata]
  exact BitVec.xor_zero

theorem gfMul_one {poly : BitVec 9} (hpoly : poly.getLsbD 8 = true) (a : Byte) : gfMul poly a 1 = a :=
  (gfMul_comm hpoly a 1).trans (one_gfMul poly a)

/-- The sum of a row's products with values that are `y` before column `k`, 1 at it and 0 after it. -/
theorem xorOver_unit {poly : BitVec 9} (hpoly : poly.getLsbD 8 = true) {a y : Nat → Byte} {c k : Nat} (hk : k < c) :
    xorOver c (fun j => gfMul poly (a j) (if j < k then y j else if j = k then 1 else 0))
      = xorOver k (fun j => gfMul poly (a j) (y j)) ^^^ a k := by
  induction c with
  | zero => omega
  | succ c ih =>
    rw [xorOver_succ]
    obtain rfl | hlt := Nat.eq_or_lt_of_le (Nat.le_of_lt_succ hk)
    · rw [if_neg (Nat.lt_irrefl k), if_pos rfl, gfMul_one hpoly]
      congr 1
      exact xorOver_congr fun j hj => by rw [if_pos hj]
    · have hzero : gfMul poly (a c) 0 = 0#8 := gfMul_zero hpoly _
      rw [if_neg (by omega), if_neg (by omega), hzero, BitVec.xor_zero, ih hlt]

section
variable {poly : BitVec 9} (hprim : primitive poly = true) {c k : Nat} {ws ws' : List WorkRow} {piv : List Nat}
  (hshape : Shaped c 0 ws)
include hprim hshape

/-- Values that the matrix takes to 0 before a run over its first columns, it takes to 0 after it. -/
theorem kernel_iff_of_run (hrun : forwardEliminate poly (List.range k) ws [] = some (ws', piv)) (x : Nat → Byte) :
    (∀ i, i < ws.length → xorOver c (fun j => gfMul poly (entryAt ws i j) (x j)) = 0)
      ↔ ∀ i, i < ws.length → xorOver c (fun j => gfMul poly (entryAt ws' i j) (x j)) = 0 := by
  have hpoly := getLsbD_of_primitive hprim
  obtain ⟨hrows, _⟩ := forwardEliminate_length hrun
  have hsolved := forwardEliminate_solved_iff hpoly x 0 hrun hshape (S := fun _ => True) fun _ _ => trivial
  simp only [true_implies] at hsolved
  have hbefore : ∀ i, i < ws.length → ((ws.getD i WorkRow.none).defect poly c x 0 = 0
      ↔ xorOver c (fun j => gfMul poly (entryAt ws i j) (x j)) = 0) := fun i hi => by
    rw [defect_of_noData hshape hi]
  have hafter : ∀ i, i < ws.length → ((ws'.getD i WorkRow.none).defect poly c x 0 = 0
      ↔ xorOver c (fun j => gfMul poly (entryAt ws' i j) (x j)) = 0) := fun i hi => by
    rw [defect_of_noData (forwardEliminate_shaped hrun hshape) (hrows ▸ hi)]
  exact (forall₂_congr hbefore).symm.trans (hsolved.trans (forall₂_congr hafter))

/-- Where a run finds every pivot, only zeros are taken to 0. -/
theorem not_dependent_of_run (hrun : forwardEliminate poly (List.range c) ws [] = some (ws', piv)) :
    ¬DependentColumns poly (entryAt ws) ws.length c := by
  rintro ⟨x, ⟨j, hj, hne⟩, hx⟩
  obtain ⟨_, htri, hlen⟩ := forwardEliminate_reduced hprim hshape (Nat.le_refl c) hrun
  obtain ⟨_, hlt⟩ := forwardEliminate_distinct hrun (distinctRows_nil _)
  refine hne (htri.eq_zero hprim (fun k hk => ?_) j hj)
  refine (kernel_iff_of_run hprim hshape hrun x).mp hx (piv.getD k 0) (hlt _ ?_)
  rw [List.getD_eq_getElem _ _ (hlen.symm ▸ hk)]
  exact List.getElem_mem _

/-- Where a column has no pivot, it depends on those before it. -/
theorem dependent_of_noPivot (hk : k < c) (hrun : forwardEliminate poly (List.range k) ws [] = some (ws', piv))
    (hnone : findPivot ws' piv k = none) : DependentColumns poly (entryAt ws) ws.length c := by
  obtain ⟨hdone, htri, hlen⟩ := forwardEliminate_reduced hprim hshape hk.le hrun
  obtain ⟨hrows, _⟩ := forwardEliminate_length hrun
  obtain ⟨y, hy⟩ := htri.exists_solution hprim fun j => entryAt ws' (piv.getD j 0) k
  refine ⟨fun j => if j < k then y j else if j = k then 1 else 0, ⟨k, hk, by simp⟩, ?_⟩
  refine (kernel_iff_of_run hprim hshape hrun _).mpr fun i hi => ?_
  rw [xorOver_unit (getLsbD_of_primitive hprim) hk]
  by_cases hpiv : i ∈ piv
  · obtain ⟨j, hj, rfl⟩ := List.mem_iff_getElem.mp hpiv
    have hrow := hy j (hlen ▸ hj)
    simp only [pivotMatrix, List.getD_eq_getElem _ _ hj] at hrow
    rw [hrow]
    exact BitVec.xor_self
  · rw [xorOver_eq_zero fun j hj => ?_, findPivot_eq_none_iff.mp hnone i (hrows ▸ hi) hpiv]
    · rfl
    · rw [hdone.cleared i hi hpiv j (hlen.symm ▸ hj)]
      exact zero_gfMul (getLsbD_of_primitive hprim) _

/-- A run fails exactly where the columns are linearly dependent. -/
theorem forwardEliminate_eq_none_iff_dependent :
    forwardEliminate poly (List.range c) ws [] = none ↔ DependentColumns poly (entryAt ws) ws.length c := by
  constructor
  · intro h
    obtain ⟨k, _, _, hk, hrun, hnone⟩ := forwardEliminate_eq_none_iff.mp h
    exact dependent_of_noPivot hprim hshape hk hrun hnone
  · intro hdep
    cases hrun : forwardEliminate poly (List.range c) ws [] with
    | none => rfl
    | some res => exact absurd hdep (not_dependent_of_run hprim hshape hrun)

end

end Sys2Proof.Machine
end

section
/-! SUPPORT and the statement of 42_solver.md on ForwardEliminate: the run on the coefficients alone, and the working arrays
that SOLVE starts it from. -/

namespace Sys2Proof.Machine

/-! The coefficients alone decide a run. -/

/-- A row without its data. -/
def WorkRow.matrixOnly (w : WorkRow) : WorkRow := { w with data := [] }

theorem getD_map_matrixOnly (ws : List WorkRow) (i : Nat) :
    (ws.map WorkRow.matrixOnly).getD i WorkRow.none = (ws.getD i WorkRow.none).matrixOnly := by
  simp only [List.getD_eq_getElem?_getD, List.getElem?_map]
  cases ws[i]? <;> rfl

theorem entryAt_map_matrixOnly (ws : List WorkRow) (i j : Nat) :
    entryAt (ws.map WorkRow.matrixOnly) i j = entryAt ws i j := by
  rw [entryAt, getD_map_matrixOnly]
  rfl

theorem findPivot_map_matrixOnly (ws : List WorkRow) (used : List Nat) (j : Nat) :
    findPivot (ws.map WorkRow.matrixOnly) used j = findPivot ws used j := by
  simp only [findPivot, List.length_map, entryAt_map_matrixOnly]

theorem addScaled_matrixOnly (poly : BitVec 9) (f : Byte) (pivot w : WorkRow) :
    WorkRow.addScaled poly f pivot.matrixOnly w.matrixOnly = (WorkRow.addScaled poly f pivot w).matrixOnly := rfl

theorem eliminateColumn_map_matrixOnly (poly : BitVec 9) (ws : List WorkRow) (used : List Nat) (p j : Nat) :
    eliminateColumn poly (ws.map WorkRow.matrixOnly) used p j
      = (eliminateColumn poly ws used p j).map WorkRow.matrixOnly := by
  rw [eliminateColumn, eliminateColumn, List.zipIdx_map, List.map_map, List.map_map]
  refine List.map_congr_left fun wi _ => ?_
  simp only [Function.comp, Prod.map, getD_map_matrixOnly, entryAt_map_matrixOnly, addScaled_matrixOnly, id]
  split
  · rw [if_pos ‹_›]
    rfl
  · rw [if_neg ‹_›]

/-- A run on rows without their data answers what the run answers, without its data. -/
theorem forwardEliminate_map_matrixOnly (poly : BitVec 9) (js : List Nat) (ws : List WorkRow) (piv : List Nat) :
    forwardEliminate poly js (ws.map WorkRow.matrixOnly) piv =
      (forwardEliminate poly js ws piv).map fun res => (res.1.map WorkRow.matrixOnly, res.2) := by
  induction js generalizing ws piv with
  | nil => rfl
  | cons j js ih =>
    rw [forwardEliminate, forwardEliminate, findPivot_map_matrixOnly]
    cases findPivot ws piv j with
    | none => rfl
    | some p =>
      simp only [eliminateColumn_map_matrixOnly]
      exact ih _ _

theorem shaped_map_matrixOnly {c : Nat} {ws : List WorkRow} (h : ∀ w ∈ ws, w.coefs.length = c) :
    Shaped c 0 (ws.map WorkRow.matrixOnly) := by
  intro w hw
  obtain ⟨v, hv, rfl⟩ := List.mem_map.mp hw
  exact ⟨h v hv, rfl⟩

/-! The working arrays that SOLVE starts from (42_solver.md R174 and R176). -/

/-- The XOR of the contributions of received originals to byte `b` of a row. -/
def receivedPart (cfg : Config) (m : Memory) (r : RowEntry) (es : List RecvEntry) (b : Nat) : Byte :=
  es.foldr (fun e acc =>
    (if r.covers e.seq then gfMul cfg.gfPoly (coefAt cfg r.row e.seq) (prefixedByte m e.addr e.len b) else 0) ^^^ acc) 0

/-- EliminateOriginals removes the contributions of the received originals in the row's span. -/
theorem getD_eliminateReceived (cfg : Config) (m : Memory) (r : RowEntry) (es : List RecvEntry) {n b : Nat}
    {data : List Byte} (hdata : data.length = n) (hb : b < n) :
    (eliminateReceived cfg m n r es data).getD b 0 = data.getD b 0 ^^^ receivedPart cfg m r es b := by
  induction es generalizing data with
  | nil => exact BitVec.xor_zero.symm
  | cons e es ih =>
    have hprefixed : (e.prefixedBytes m n).getD b 0 = prefixedByte m e.addr e.len b := by
      simp [RecvEntry.prefixedBytes, List.getD_eq_getElem?_getD, hb, RecvEntry.prefixedAt, prefixed_eq_prefixedByte]
    have hlen : (e.prefixedBytes m n).length = data.length := by simp [RecvEntry.prefixedBytes, hdata]
    rw [eliminateReceived, receivedPart, List.foldr_cons, ← receivedPart]
    split
    · rw [ih (by rw [addRow_length (by simpa using hlen), hdata]), getD_addRow_scaleRow hlen (hdata ▸ hb), hprefixed,
        coef_eq_coefAt, BitVec.xor_assoc]
    · rw [ih hdata]
      congr 1
      exact BitVec.zero_xor.symm

/-- A row of the working arrays: its coefficients at the lost sequences, and its payload with the received originals
removed. -/
theorem rowEntry_eliminated (cfg : Config) (m : Memory) (p : Problem) (r : RowEntry) :
    (r.eliminated cfg m p).coefs = p.lost.map (r.initCoef cfg)
      ∧ (r.eliminated cfg m p).data.length = p.solutionBytes
      ∧ ∀ b, b < p.solutionBytes →
        (r.eliminated cfg m p).data.getD b 0 = r.initData m b ^^^ receivedPart cfg m r p.recv b := by
  have hinit : (r.initial cfg m p).data.length = p.solutionBytes := by simp [RowEntry.initial]
  refine ⟨rfl, eliminateReceived_length _ _ _ _ _ hinit, fun b hb => ?_⟩
  rw [RowEntry.eliminated, getD_eliminateReceived cfg m r p.recv hinit hb]
  simp [RowEntry.initial, List.getD_eq_getElem?_getD, hb]

theorem eliminated_shaped (cfg : Config) (m : Memory) (p : Problem) :
    Shaped p.cols.length p.solutionBytes (p.eliminated cfg m) := by
  intro w hw
  obtain ⟨r, _, rfl⟩ := List.mem_map.mp hw
  obtain ⟨hcoefs, hdata, _⟩ := rowEntry_eliminated cfg m p r
  exact ⟨by rw [hcoefs, List.length_map, Problem.lost, List.length_map], hdata⟩

section
variable {m : Memory} {d r c n : Nat} (hr : m.readLE d 2 = r) (hc : m.readLE (d + 2) 2 = c) (hn : m.readLE (d + 4) 2 = n)
include hr hc hn

theorem problemAt_recv : (problemAt m d).recv = (List.range n).map fun k => recvEntryAt m (recvEntryAddr d r c k) := by
  rw [← hr, ← hc, ← hn]
  rfl

/-- The received originals of the problem in PMEM, as the statements write them out. -/
theorem receivedPart_problemAt (cfg : Config) (i b : Nat) :
    receivedPart cfg m (rowEntryAt m (rowEntryAddr d i)) (problemAt m d).recv b =
      xorOver n fun k =>
        if inSpan m d i (receivedOf m d r c k) then
          gfMul cfg.gfPoly (coefAt cfg (rowOf m d i) (receivedOf m d r c k))
            (prefixedByte m (receivedAddrOf m d r c k) (receivedLenOf m d r c k) b)
        else 0 := by
  rw [problemAt_recv hr hc hn, receivedPart, List.foldr_map, xorOver]
  simp only [RowEntry.covers, Bool.and_eq_true, decide_eq_true_eq]
  rfl

/-- The data of row `i` after EliminateOriginals, as the statements write it out. -/
theorem getD_eliminated_data (cfg : Config) (i : Nat) {b : Nat} (hb : b < (problemAt m d).solutionBytes) :
    ((rowEntryAt m (rowEntryAddr d i)).eliminated cfg m (problemAt m d)).data.getD b 0 = lostPartAt cfg m d r c n i b := by
  obtain ⟨_, _, hdata⟩ := rowEntry_eliminated cfg m (problemAt m d) (rowEntryAt m (rowEntryAddr d i))
  rw [hdata b hb, receivedPart_problemAt hr hc hn]
  rfl

end

/-- Settles O41: the run on the coefficients alone is triangular and fails exactly on dependent columns; its first
columns give each pivot; and the working arrays are those of R174 after R176. -/
theorem forwardEliminationIsTriangular : Obligations.ForwardEliminationIsTriangular := by
  constructor
  · intro poly c ws hprim hcoefs
    have hshape := shaped_map_matrixOnly hcoefs
    have hentry : entryAt (ws.map WorkRow.matrixOnly) = entryAt ws := by
      funext i j
      exact entryAt_map_matrixOnly ws i j
    refine ⟨fun ws' piv hrun => ?some, ?noPivot, ?dependent⟩
    case some =>
      obtain ⟨hrows, hlen⟩ := forwardEliminate_length hrun
      rw [List.length_range, List.length_nil, Nat.zero_add] at hlen
      obtain ⟨hnodup, hlt⟩ := forwardEliminate_distinct hrun (distinctRows_nil _)
      have hstripped := forwardEliminate_map_matrixOnly poly (List.range c) ws []
      rw [hrun] at hstripped
      obtain ⟨_, htri, _⟩ := forwardEliminate_reduced hprim hshape (Nat.le_refl c) hstripped
      refine ⟨hlen, hnodup, hlt, fun j hj => ?_, fun j hj => ?_⟩
      · simpa only [pivotMatrix, entryAt_map_matrixOnly] using htri j hj
      · obtain ⟨wj, hprefix, hfind⟩ := forwardEliminate_eq_some_prefix hrun hj
        obtain ⟨⟨_, _, hne⟩, hfirst⟩ := findPivot_eq_some hfind
        exact ⟨wj, hprefix, hne, fun i hi hused => Decidable.not_not.mp fun hz => hfirst i hi ⟨hused, hz⟩⟩
    case noPivot =>
      rw [forwardEliminate_eq_none_iff]
      refine exists_congr fun j => exists_congr fun wj => exists_congr fun piv => and_congr_right fun _ =>
        and_congr_right fun hprefix => ?_
      rw [findPivot_eq_none_iff, (forwardEliminate_length hprefix).1]
    case dependent =>
      have hiff := forwardEliminate_eq_none_iff_dependent hprim hshape
      rwa [forwardEliminate_map_matrixOnly, Option.map_eq_none_iff, hentry, List.length_map] at hiff
  · intro cfg m d r c n len hr hc hn hlong
    have hrows := problemAt_rows hr
    have hbytes := solutionBytes_eq_of_longest hr hlong
    refine ⟨by simp [Problem.eliminated, hrows], fun i w hw => ?_⟩
    rw [Problem.eliminated, hrows, List.map_map, List.getElem?_map, Option.map_eq_some_iff] at hw
    obtain ⟨i', hi', rfl⟩ := hw
    obtain ⟨hi, rfl⟩ : i < r ∧ i = i' := by simpa using List.getElem?_eq_some_iff.mp hi'
    obtain ⟨hcoefs, hdata, _⟩ := rowEntry_eliminated cfg m (problemAt m d) (rowEntryAt m (rowEntryAddr d i))
    have hlost := problemAt_lost hr hc
    refine ⟨?_, fun j hj => ?_, hdata.trans hbytes, fun b hb => ?_⟩
    · simp [Function.comp, hcoefs, hlost]
    · simp [Function.comp, hcoefs, hlost, List.getD_eq_getElem?_getD, hj, initCoef_rowEntryAt, matrixAt]
    · exact getD_eliminated_data hr hc hn cfg i (hbytes.symm ▸ hb)

end Sys2Proof.Machine
end

section
/-! SUPPORT. The solution of a problem (42_solver.md R176 to R179): BackSubstitute solves the triangular system that
ForwardEliminate leaves, so its answer solves the pivot rows that both started from. -/

namespace Sys2Proof.Machine

/-! BackSubstitute (42_solver.md R179). -/

section
variable {poly : BitVec 9} {j i : Nat} {x : List Byte} {earlier : List Nat} {ws : List WorkRow}

theorem getD_subtractFrom (hi : i < ws.length) :
    (subtractFrom poly j x earlier ws).getD i WorkRow.none =
      if i ∈ earlier ∧ entryAt ws i j ≠ 0 then
        { ws.getD i WorkRow.none with
          data := addRow (ws.getD i WorkRow.none).data (scaleRow poly (entryAt ws i j) x) }
      else ws.getD i WorkRow.none := by
  simp [subtractFrom, entryAt, List.getD_eq_getElem?_getD, hi]

/-- A solved column leaves the coefficients as they are. -/
theorem entryAt_subtractFrom (hi : i < ws.length) (j' : Nat) :
    entryAt (subtractFrom poly j x earlier ws) i j' = entryAt ws i j' := by
  rw [entryAt, getD_subtractFrom hi]
  split <;> rfl

/-- A solved column is removed from the data of the earlier pivot rows. -/
theorem getD_data_subtractFrom (hpoly : poly.getLsbD 8 = true) (hi : i < ws.length) (hearlier : i ∈ earlier)
    (hx : x.length = (ws.getD i WorkRow.none).data.length) (b : Nat) :
    ((subtractFrom poly j x earlier ws).getD i WorkRow.none).data.getD b 0
      = (ws.getD i WorkRow.none).data.getD b 0 ^^^ gfMul poly (entryAt ws i j) (x.getD b 0) := by
  rw [getD_subtractFrom hi]
  split
  · exact getD_addRow_scaleRow_all hpoly hx b
  · rename_i hzero
    have hentry : entryAt ws i j = 0#8 := Decidable.not_not.mp fun hne => hzero ⟨hearlier, hne⟩
    rw [hentry, zero_gfMul hpoly, BitVec.xor_zero]

end

/-- A byte of a row divided by its coefficient. -/
theorem getD_map_gfDiv (poly : BitVec 9) (e : Byte) {xs : List Byte} {b : Nat} (hb : b < xs.length) :
    (xs.map fun d => gfDiv poly d e).getD b 0 = gfDiv poly (xs.getD b 0) e := by
  rw [List.getD_eq_getElem _ _ (by rwa [List.length_map]), List.getElem_map, List.getD_eq_getElem _ _ hb]

/-- BackSubstitute over the first `k` columns solves the first `k` pivot rows in them. -/
theorem backSubstitute_solves {poly : BitVec 9} (hprim : primitive poly = true) {piv : List Nat} {n : Nat} (k : Nat)
    (hk : k ≤ piv.length) {ws : List WorkRow} {xs : List (List Byte)} (hdata : DataShaped n ws)
    (hpiv : ∀ p ∈ piv, p < ws.length) (htri : UpperTriangular (pivotMatrix ws piv) k) :
    ∃ ys, backSubstitute poly piv k ws xs = ys ++ xs ∧ ys.length = k
      ∧ ∀ j, j < k → ∀ b, b < n →
        xorOver k (fun j' => gfMul poly (pivotMatrix ws piv j j') ((ys.getD j' []).getD b 0))
          = (ws.getD (piv.getD j 0) WorkRow.none).data.getD b 0 := by
  have hpoly := getLsbD_of_primitive hprim
  induction k generalizing ws xs with
  | zero => exact ⟨[], rfl, rfl, fun j hj => absurd hj (Nat.not_lt_zero j)⟩
  | succ k ih =>
    have hpivot : ∀ j, j < piv.length → piv.getD j 0 < ws.length := fun j hj => by
      rw [List.getD_eq_getElem _ _ hj]
      exact hpiv _ (List.getElem_mem hj)
    have hlen : ∀ j, j < piv.length → (ws.getD (piv.getD j 0) WorkRow.none).data.length = n := fun j hj => by
      rw [List.getD_eq_getElem _ _ (hpivot j hj)]
      exact hdata _ (List.getElem_mem _)
    obtain ⟨hdiag, _⟩ := htri k (Nat.lt_succ_self k)
    rw [backSubstitute]
    generalize hx : (ws.getD (piv.getD k 0) WorkRow.none).data.map
      (fun d => gfDiv poly d ((ws.getD (piv.getD k 0) WorkRow.none).coefs.getD k 0)) = x
    have hxlen : x.length = n := by rw [← hx, List.length_map, hlen k hk]
    have hsame : ∀ j, j < piv.length → ∀ j',
        pivotMatrix (subtractFrom poly k x (piv.take k) ws) piv j j' = pivotMatrix ws piv j j' :=
      fun j hj j' => entryAt_subtractFrom (hpivot j hj) j'
    obtain ⟨ys, hys, hyslen, hsolved⟩ := ih (Nat.le_of_succ_le hk) (ws := subtractFrom poly k x (piv.take k) ws) (xs := x :: xs)
      (hdata.subtractFrom hxlen) (fun p hp => by rw [subtractFrom_length]; exact hpiv p hp)
      (fun j hj => by
        obtain ⟨hne, hzero⟩ := htri j (Nat.lt_succ_of_lt hj)
        rw [hsame j (by omega)]
        exact ⟨hne, fun j' hj' => by rw [hsame j (by omega)]; exact hzero j' hj'⟩)
    refine ⟨ys ++ [x], by rw [hys, List.append_assoc]; rfl, by rw [List.length_append, hyslen]; rfl, fun j hj b hb => ?_⟩
    have hlast : (ys ++ [x]).getD k [] = x := by rw [← hyslen]; simp
    have hfirst : ∀ j', j' < k → (ys ++ [x]).getD j' [] = ys.getD j' [] := fun j' hj' =>
      List.getD_append _ _ _ _ (hyslen.symm ▸ hj')
    obtain rfl | hlt := Nat.eq_or_lt_of_le (Nat.le_of_lt_succ hj)
    · have hquot : x.getD b 0 = gfDiv poly ((ws.getD (piv.getD j 0) WorkRow.none).data.getD b 0) (pivotMatrix ws piv j j) := by
        rw [← hx, getD_map_gfDiv _ _ ((hlen j hk).symm ▸ hb)]
        rfl
      rw [htri.xorOver_last hprim fun j' => ((ys ++ [x]).getD j' []).getD b 0, hlast, hquot, gfMul_comm hpoly,
        gfMul_gfDiv hprim hdiag]
    · have hmem : piv.getD j 0 ∈ piv.take k := by
        rw [List.getD_eq_getElem _ _ (by omega)]
        exact List.mem_take_iff_getElem.mpr ⟨j, by omega, rfl⟩
      have hrow := hsolved j hlt b hb
      rw [getD_data_subtractFrom hpoly (hpivot j (by omega)) hmem (hxlen.trans (hlen j (by omega)).symm)] at hrow
      rw [xorOver_succ, xorOver_congr fun j' hj' => by rw [hfirst j' hj', ← hsame j (by omega)], hrow, hlast,
        BitVec.xor_assoc]
      simp [pivotMatrix]

/-! The solution of a problem. -/

theorem xorOver_xor (n : Nat) (f g : Nat → Byte) : xorOver n (fun k => f k ^^^ g k) = xorOver n f ^^^ xorOver n g := by
  induction n with
  | zero => exact (BitVec.xor_self (x := 0#8)).symm
  | succ n ih =>
    rw [xorOver_succ, xorOver_succ, xorOver_succ, ih]
    ac_rfl

section
variable {cfg : Config} {m : Memory} {p : Problem} {xs : List (List Byte)} {piv : List Nat}
  (hsol : p.solution cfg m = some (xs, piv))
include hsol

/-- A solution has one array of S bytes and one pivot for each column, and the pivots are distinct rows. -/
theorem solution_shape :
    xs.length = p.cols.length ∧ (∀ x ∈ xs, x.length = p.solutionBytes) ∧ piv.length = p.cols.length
      ∧ DistinctRows p.rows.length piv := by
  obtain ⟨ws, hrun, rfl⟩ := solution_eq_some_iff.mp hsol
  obtain ⟨hrows, hlen⟩ := forwardEliminate_length hrun
  rw [List.length_range, List.length_nil, Nat.zero_add] at hlen
  have hdistinct := forwardEliminate_distinct hrun (distinctRows_nil _)
  have hshape := forwardEliminate_shaped hrun (eliminated_shaped cfg m p)
  have hdata : DataShaped p.solutionBytes ws := fun w hw => (hshape w hw).2
  obtain ⟨hcount, hall⟩ := backSubstitute_shape p.cols.length hlen.ge hdata (xs := [])
    (fun q hq => hrows ▸ hdistinct.2 q hq) (fun x hx => absurd hx List.not_mem_nil)
  refine ⟨hcount, hall, hlen, ?_⟩
  rwa [Problem.eliminated, List.length_map] at hdistinct

/-- What elimination leaves is triangular in the pivot rows, and the solution solves it. -/
theorem solution_solves_triangular (hprim : primitive cfg.gfPoly = true) :
    ∃ ws, forwardEliminate cfg.gfPoly (List.range p.cols.length) (p.eliminated cfg m) [] = some (ws, piv)
      ∧ UpperTriangular (pivotMatrix ws piv) p.cols.length
      ∧ ∀ j, j < p.cols.length → ∀ b, b < p.solutionBytes →
        xorOver p.cols.length (fun j' => gfMul cfg.gfPoly (pivotMatrix ws piv j j') ((xs.getD j' []).getD b 0))
          = (ws.getD (piv.getD j 0) WorkRow.none).data.getD b 0 := by
  obtain ⟨_, _, hlen, _⟩ := solution_shape hsol
  obtain ⟨ws, hrun, rfl⟩ := solution_eq_some_iff.mp hsol
  have hshape := eliminated_shaped cfg m p
  obtain ⟨hrows, _⟩ := forwardEliminate_length hrun
  obtain ⟨_, hlt⟩ := forwardEliminate_distinct hrun (distinctRows_nil _)
  obtain ⟨_, htri, _⟩ := forwardEliminate_reduced hprim hshape (Nat.le_refl _) hrun
  obtain ⟨ys, hys, _, hsolved⟩ := backSubstitute_solves hprim p.cols.length hlen.ge (xs := [])
    (fun w hw => (forwardEliminate_shaped hrun hshape w hw).2) (fun q hq => hrows ▸ hlt q hq) htri
  rw [List.append_nil] at hys
  exact ⟨ws, hrun, htri, hys ▸ hsolved⟩

/-- A solution solves the pivot rows that elimination starts from. -/
theorem solution_solves (hprim : primitive cfg.gfPoly = true) {i b : Nat} (hi : i ∈ piv) (hb : b < p.solutionBytes) :
    xorOver p.cols.length (fun j => gfMul cfg.gfPoly (entryAt (p.eliminated cfg m) i j) ((xs.getD j []).getD b 0))
      = ((p.eliminated cfg m).getD i WorkRow.none).data.getD b 0 := by
  obtain ⟨_, _, hlen, _⟩ := solution_shape hsol
  obtain ⟨ws, hrun, _, hsolved⟩ := solution_solves_triangular hsol hprim
  obtain ⟨_, hlt⟩ := forwardEliminate_distinct hrun (distinctRows_nil _)
  have hafter : ∀ q, q < (p.eliminated cfg m).length → q ∈ piv →
      (ws.getD q WorkRow.none).defect cfg.gfPoly p.cols.length (fun j => (xs.getD j []).getD b 0) b = 0 := by
    intro q _ hq
    obtain ⟨j, hj, rfl⟩ := List.mem_iff_getElem.mp hq
    have hrow := hsolved j (hlen ▸ hj) b hb
    rw [List.getD_eq_getElem _ _ hj] at hrow
    rw [defect_eq_zero_iff, ← hrow]
    simp only [pivotMatrix, List.getD_eq_getElem _ _ hj]
    rfl
  exact defect_eq_zero_iff.mp ((forwardEliminate_solved_iff (getLsbD_of_primitive hprim) _ b hrun
    (eliminated_shaped cfg m p) fun _ hq => hq).mpr hafter i (hlt i hi) hi)

/-- Values that solve every row that elimination starts from are the solution's. -/
theorem solution_unique (hprim : primitive cfg.gfPoly = true) {b : Nat} (hb : b < p.solutionBytes) {x : Nat → Byte}
    (hx : ∀ i, i < (p.eliminated cfg m).length →
      ((p.eliminated cfg m).getD i WorkRow.none).defect cfg.gfPoly p.cols.length x b = 0) {j : Nat}
    (hj : j < p.cols.length) : (xs.getD j []).getD b 0 = x j := by
  have hpoly := getLsbD_of_primitive hprim
  obtain ⟨_, _, hlen, _⟩ := solution_shape hsol
  obtain ⟨ws, hrun, htri, hsolved⟩ := solution_solves_triangular hsol hprim
  obtain ⟨_, hlt⟩ := forwardEliminate_distinct hrun (distinctRows_nil _)
  have hafter := (forwardEliminate_solved_iff hpoly x b hrun (eliminated_shaped cfg m p) (S := fun _ => True)
    fun _ _ => trivial).mp fun i hi _ => hx i hi
  refine BitVec.xor_eq_zero_iff.mp (htri.eq_zero hprim (x := fun j => (xs.getD j []).getD b 0 ^^^ x j) (fun k hk => ?_) j hj)
  have hk' : k < piv.length := hlen.symm ▸ hk
  have hrow : xorOver p.cols.length (fun j' => gfMul cfg.gfPoly (pivotMatrix ws piv k j') (x j'))
      = (ws.getD (piv.getD k 0) WorkRow.none).data.getD b 0 := by
    refine defect_eq_zero_iff.mp (hafter (piv.getD k 0) (hlt _ ?_) trivial)
    rw [List.getD_eq_getElem _ _ hk']
    exact List.getElem_mem hk'
  simp only [gfMul_xor hpoly, xorOver_xor, hsolved k hk b hb, hrow]
  exact BitVec.xor_self

end

end Sys2Proof.Machine
end

section
/-! SUPPORT and the statements of 42_solver.md R172 on the checks of SOLVE: each check of the model as the check that the
statement writes out over the fields of the problem in PMEM. -/

namespace Sys2Proof.Machine

/-! Lists of sequences. -/

theorem strictlyAscending_iff_pairwise (qs : List Nat) : strictlyAscending qs = true ↔ qs.Pairwise (· < ·) := by
  induction qs with
  | nil => simp [strictlyAscending]
  | cons q qs ih => simp [strictlyAscending, ih]

theorem strictlyAscending_map_range_iff (f : Nat → Nat) (n : Nat) :
    strictlyAscending ((List.range n).map f) = true ↔ ∀ j j', j < j' → j' < n → f j < f j' := by
  rw [strictlyAscending_iff_pairwise, List.pairwise_iff_getElem]
  simp only [List.length_map, List.length_range, List.getElem_map, List.getElem_range]
  exact ⟨fun h j j' hlt hj' => h j j' (hlt.trans hj') hj' hlt, fun h j j' _ hj' hlt => h j j' hlt hj'⟩

theorem mem_span_iff (r : RowEntry) (q : Nat) : q ∈ r.span ↔ r.covers q = true := by
  simp only [RowEntry.span, List.mem_map, List.mem_range, RowEntry.covers, Bool.and_eq_true, decide_eq_true_eq]
  constructor
  · rintro ⟨k, hk, rfl⟩
    omega
  · rintro ⟨hlo, hhi⟩
    exact ⟨q - r.start, by omega, by omega⟩

/-! The checks on the problem, in the model's terms. -/

/-- The checks 4 to 8 of R172, as the model makes them. -/
def Problem.FormOk (cfg : Config) (p : Problem) : Prop :=
  p.rows.all (RowEntry.formOk cfg) = true ∧ p.lostOk = true ∧ p.receivedOk cfg = true ∧ p.coversU = true
    ∧ p.lengthsOk = true

theorem problem_failure_of_not_form {cfg : Config} {p : Problem} (h : ¬p.FormOk cfg) :
    p.failure cfg = some .invalidInput := by
  by_contra hne
  rw [Problem.failure, ← Ne, ite_some_ne_some_iff, ite_some_ne_some_iff, ite_some_ne_some_iff, ite_some_ne_some_iff,
    ite_some_ne_some_iff] at hne
  simp only [Bool.not_eq_true', Bool.not_eq_false] at hne
  obtain ⟨h4, h5, h6, h7, h8, _⟩ := hne
  exact h ⟨h4, h5, h6, h7, h8⟩

theorem problem_failure_of_form {cfg : Config} {p : Problem} (h : p.FormOk cfg) :
    p.failure cfg = if p.coefsOk cfg then none else some .degenerate := by
  obtain ⟨h4, h5, h6, h7, h8⟩ := h
  rw [Problem.failure, h4, h5, h6, h7, h8]
  cases p.coefsOk cfg <;> rfl

/-- The checks 4 to 9 pass exactly where the form is right and no coefficient is degenerate. -/
theorem problem_failure_eq_none_iff {cfg : Config} {p : Problem} :
    p.failure cfg = none ↔ p.FormOk cfg ∧ p.coefsOk cfg = true := by
  by_cases hform : p.FormOk cfg
  · rw [problem_failure_of_form hform]
    simp [hform]
  · simp [problem_failure_of_not_form hform, hform]

/-! The checks on the problem in PMEM, in the statements' terms. -/

section
variable {cfg : Config} {m : Memory} {d r c n : Nat} (hr : m.readLE d 2 = r)
include hr

theorem all_rows_iff (P : RowEntry → Bool) :
    (problemAt m d).rows.all P = true ↔ ∀ i, i < r → P (rowEntryAt m (rowEntryAddr d i)) = true := by
  rw [problemAt_rows hr]
  simp [Function.comp]

theorem inU_iff (q : Nat) : (problemAt m d).inU q = true ↔ inUnion m d r q := by
  rw [Problem.inU, problemAt_rows hr, List.any_map, List.any_eq_true]
  simp only [List.mem_range, Function.comp, RowEntry.covers, Bool.and_eq_true, decide_eq_true_eq]
  rfl

/-- Check 4. -/
theorem rowsOk_iff : (problemAt m d).rows.all (RowEntry.formOk cfg) = true ↔
    ∀ i, i < r → 1 ≤ countOf m d i ∧ countOf m d i ≤ cfg.maxCols ∧ startOf m d i + countOf m d i ≤ 2 ^ 64
      ∧ 1 ≤ plenOf m d i ∧ plenOf m d i ≤ cfg.maxPayload + 2 ∧ paddrOf m d i + plenOf m d i ≤ cfg.pmemBytes := by
  rw [all_rows_iff hr]
  refine forall₂_congr fun i _ => ?_
  simp only [RowEntry.formOk, Bool.and_eq_true, decide_eq_true_eq, inRange_iff, and_assoc]
  refine and_congr_right fun _ => and_congr_right fun _ => and_congr_right fun _ => and_congr_right fun hplen =>
    and_congr_right fun _ => ?_
  exact ⟨fun h => h.resolve_left (by omega), .inr⟩

/-- Check 9. -/
theorem coefsOk_iff : (problemAt m d).coefsOk cfg = true ↔ CoefCheck cfg m d r := by
  rw [Problem.coefsOk, all_rows_iff hr]
  simp only [List.all_eq_true, mem_span_iff, RowEntry.covers, Bool.and_eq_true, decide_eq_true_eq, Bool.not_eq_true',
    Bool.eq_false_iff, Ne, degenerateAt_columnByte_iff]
  exact ⟨fun h i q hi hrow hq hcol => h i hi q hq ⟨hrow, hcol⟩, fun h i hi q hq ⟨hrow, hcol⟩ => h i q hi hrow hq hcol⟩

section
variable (hc : m.readLE (d + 2) 2 = c)
include hc

theorem mem_lost_iff (q : Nat) : q ∈ (problemAt m d).lost ↔ ∃ j, j < c ∧ q = lostOf m d r j := by
  simp only [problemAt_lost hr hc, List.mem_map, List.mem_range, eq_comm]

/-- Check 5. -/
theorem lostOk_iff : (problemAt m d).lostOk = true ↔
    (∀ j j', j < j' → j' < c → lostOf m d r j < lostOf m d r j') ∧ ∀ j, j < c → inUnion m d r (lostOf m d r j) := by
  rw [Problem.lostOk, problemAt_lost hr hc, Bool.and_eq_true, strictlyAscending_map_range_iff, List.all_map]
  simp only [List.all_eq_true, List.mem_range, Function.comp, inU_iff hr]

variable (hn : m.readLE (d + 4) 2 = n)
include hn

theorem all_recv_iff (P : RecvEntry → Bool) :
    (problemAt m d).recv.all P = true ↔ ∀ k, k < n → P (recvEntryAt m (recvEntryAddr d r c k)) = true := by
  rw [problemAt_recv hr hc hn]
  simp [Function.comp]

theorem problemAt_received : (problemAt m d).received = (List.range n).map (receivedOf m d r c) := by
  rw [Problem.received, problemAt_recv hr hc hn, List.map_map]
  rfl

theorem mem_received_iff (q : Nat) : q ∈ (problemAt m d).received ↔ ∃ k, k < n ∧ q = receivedOf m d r c k := by
  simp only [problemAt_received hr hc hn, List.mem_map, List.mem_range, eq_comm]

/-- Check 6. -/
theorem receivedOk_iff : (problemAt m d).receivedOk cfg = true ↔
    (∀ k k', k < k' → k' < n → receivedOf m d r c k < receivedOf m d r c k')
    ∧ ∀ k, k < n → inUnion m d r (receivedOf m d r c k) ∧ (∀ j, j < c → receivedOf m d r c k ≠ lostOf m d r j)
      ∧ receivedLenOf m d r c k ≤ cfg.maxPayload
      ∧ (receivedLenOf m d r c k = 0 ∨ receivedAddrOf m d r c k + receivedLenOf m d r c k ≤ cfg.pmemBytes) := by
  rw [Problem.receivedOk, Bool.and_eq_true, Bool.and_eq_true, Bool.and_eq_true, all_recv_iff hr hc hn,
    problemAt_received hr hc hn, strictlyAscending_map_range_iff]
  simp only [List.all_map, List.all_eq_true, List.mem_range, Function.comp, inU_iff hr, Bool.not_eq_true',
    List.contains_eq_mem, decide_eq_false_iff_not, mem_lost_iff hr hc, not_exists, not_and, Bool.and_eq_true,
    decide_eq_true_eq, inRange_iff]
  constructor
  · rintro ⟨⟨⟨hasc, hin⟩, hnot⟩, hfit⟩
    exact ⟨hasc, fun k hk => ⟨hin k hk, hnot k hk, hfit k hk⟩⟩
  · rintro ⟨hasc, hall⟩
    exact ⟨⟨⟨hasc, fun k hk => (hall k hk).1⟩, fun k hk => (hall k hk).2.1⟩, fun k hk => (hall k hk).2.2⟩

/-- Check 7. -/
theorem coversU_iff : (problemAt m d).coversU = true ↔
    ∀ q, inUnion m d r q → (∃ j, j < c ∧ q = lostOf m d r j) ∨ ∃ k, k < n ∧ q = receivedOf m d r c k := by
  rw [Problem.coversU, all_rows_iff hr]
  simp only [List.all_eq_true, mem_span_iff, RowEntry.covers, Bool.and_eq_true, decide_eq_true_eq, Bool.or_eq_true,
    List.contains_iff_mem, mem_lost_iff hr hc, mem_received_iff hr hc hn]
  exact ⟨fun h q ⟨i, hi, hq⟩ => h i hi q hq, fun h i hi q hq => h q ⟨i, hi, hq⟩⟩

/-- Check 8. -/
theorem lengthsOk_iff : (problemAt m d).lengthsOk = true ↔
    ∀ i k, i < r → k < n → inSpan m d i (receivedOf m d r c k) → receivedLenOf m d r c k + 2 ≤ plenOf m d i := by
  rw [Problem.lengthsOk, all_rows_iff hr]
  simp only [all_recv_iff hr hc hn, Bool.or_eq_true, Bool.not_eq_true', Bool.eq_false_iff, RowEntry.covers, Ne,
    Bool.and_eq_true, decide_eq_true_eq]
  constructor
  · exact fun h i k hi hk hspan => (h i hi k hk).resolve_left fun hno => hno hspan
  · exact fun h i hi k hk => or_iff_not_imp_left.mpr fun hspan => h i k hi hk (Decidable.not_not.mp hspan)

/-- The checks 4 to 8. -/
theorem formOk_iff : (problemAt m d).FormOk cfg ↔ FormChecks cfg m d r c n := by
  rw [Problem.FormOk, rowsOk_iff hr, lostOk_iff hr hc, receivedOk_iff hr hc hn, coversU_iff hr hc hn, lengthsOk_iff hr hc hn]
  exact ⟨fun ⟨h4, h5, h6, h7, h8⟩ => ⟨h4, h5, h6, h7, h8⟩, fun ⟨h4, h5, h6, h7, h8⟩ => ⟨h4, h5, h6, h7, h8⟩⟩

/-- The checks 1 to 3. -/
theorem headerChecks_iff : HeaderChecks cfg d r c n ↔
    inRange cfg d 8 = true ∧ countsOk cfg (headerRows m d) (headerCols m d) = true
      ∧ inRange cfg d (problemBytes (headerRows m d) (headerCols m d) (headerRecv m d)) = true := by
  rw [headerRows, headerCols, headerRecv, hr, hc, hn]
  simp only [inRange_iff, countsOk, problemBytes, Bool.and_eq_true, decide_eq_true_eq, and_assoc]
  constructor
  · rintro ⟨h1, h2, h3⟩
    exact ⟨.inr h1, h2.1, h2.2.1, h2.2.2.1, h2.2.2.2, .inr h3⟩
  · rintro ⟨h1, h2, h2', h2'', h2''', h3⟩
    exact ⟨by omega, ⟨h2, h2', h2'', h2'''⟩, by omega⟩

/-- Where one of the checks 1 to 8 fails, SOLVE has INVALID_INPUT to report. -/
theorem solveFailure_of_bad (h : ¬HeaderChecks cfg d r c n ∨ ¬FormChecks cfg m d r c n) :
    solveFailure cfg m d = some .invalidInput := by
  by_contra hne
  rw [solveFailure, ← Ne, ite_some_ne_some_iff, ite_some_ne_some_iff, ite_some_ne_some_iff] at hne
  simp only [Bool.not_eq_true', Bool.not_eq_false] at hne
  obtain ⟨h1, h2, h3, hproblem⟩ := hne
  obtain hheader | hform := h
  · exact hheader ((headerChecks_iff hr hc hn).mpr ⟨h1, h2, h3⟩)
  · rw [← formOk_iff hr hc hn] at hform
    exact hproblem (problem_failure_of_not_form hform)

/-- Where the checks 1 to 8 hold, check 9 decides. -/
theorem solveFailure_of_good (hheader : HeaderChecks cfg d r c n) (hform : FormChecks cfg m d r c n) :
    solveFailure cfg m d = if (problemAt m d).coefsOk cfg then none else some .degenerate := by
  obtain ⟨h1, h2, h3⟩ := (headerChecks_iff hr hc hn).mp hheader
  rw [solveFailure, h1, h2, h3, ← problem_failure_of_form ((formOk_iff hr hc hn).mpr hform)]
  rfl

end

end

theorem execSolve_of_failed {s : State} {code : ResultCode} (h : solveOutcome s.cfg s.pmem (argA s) = .failed code) :
    execSolve s = .next (s.raise code) := by
  rw [execSolve, h]

theorem execSolve_of_failure {s : State} {code : ResultCode} (h : solveFailure s.cfg s.pmem (argA s) = some code) :
    execSolve s = .next (s.raise code) :=
  execSolve_of_failed (by rw [solveOutcome, h])

/-- Settles O37: the nine checks are the model's, in the model's order. -/
theorem solveReportsFirstFailure : Obligations.SolveReportsFirstFailure := by
  rintro s _ r c n rfl hr hc hn
  refine ⟨fun hbad => ?bad, fun hheader hform hcoef => ?degenerate, ?none, ?fields⟩
  case bad => exact ⟨_, execSolve_of_failure (solveFailure_of_bad hr hc hn hbad), onlyReported_raise s _⟩
  case degenerate =>
    have hchecks := solveFailure_of_good hr hc hn hheader hform
    rw [if_neg (mt (coefsOk_iff hr).mp hcoef)] at hchecks
    exact ⟨_, execSolve_of_failure hchecks, onlyReported_raise s _⟩
  case none =>
    rw [solveFailure_eq_none_iff, problem_failure_eq_none_iff, formOk_iff hr hc hn, coefsOk_iff hr,
      headerChecks_iff (m := s.pmem) hr hc hn]
    simp only [and_assoc]
  case fields =>
    rw [← hr, ← hc, ← hn]
    rfl

end Sys2Proof.Machine
end

section
/-! SUPPORT and the statements of 42_solver.md and 70_reset_and_hazards.md on how a SOLVE whose checks hold ends: rank
deficiency, a recovered length that does not fit, or the write-back; and the write set of each command. -/

namespace Sys2Proof.Machine

/-- A problem has no solution exactly where the columns that elimination starts from are linearly dependent. -/
theorem solution_eq_none_iff_dependent {cfg : Config} {m : Memory} {p : Problem} (hprim : primitive cfg.gfPoly = true) :
    p.solution cfg m = none
      ↔ DependentColumns cfg.gfPoly (entryAt (p.eliminated cfg m)) p.rows.length p.cols.length := by
  obtain ⟨helim, _⟩ := forwardEliminationIsTriangular
  have hrows : (p.eliminated cfg m).length = p.rows.length := List.length_map _
  obtain ⟨_, _, hdep⟩ := helim cfg.gfPoly p.cols.length (p.eliminated cfg m) hprim
    fun w hw => (eliminated_shaped cfg m p w hw).1
  rw [← hrows, ← hdep, Problem.solution]
  cases forwardEliminate cfg.gfPoly (List.range p.cols.length) (p.eliminated cfg m) [] <;> simp

/-! The working arrays of the problem in PMEM, as the statements write them out. -/

theorem Memory.readLE_lt (m : Memory) (a n : Nat) : m.readLE a n < 256 ^ n := by
  induction n generalizing a with
  | zero => exact Nat.one_pos
  | succ n ih =>
    have hlow := (m.read a).isLt
    have hhigh := ih (a + 1)
    have hsplit : m.readLE a (n + 1) = (m.read a).toNat + 256 * m.readLE (a + 1) n := rfl
    rw [hsplit, Nat.pow_succ]
    omega

section
variable {cfg : Config} {m : Memory} {d r c : Nat} (hr : m.readLE d 2 = r)
include hr

theorem eliminated_problemAt (cfg : Config) : (problemAt m d).eliminated cfg m
    = (List.range r).map fun i => (rowEntryAt m (rowEntryAddr d i)).eliminated cfg m (problemAt m d) := by
  rw [Problem.eliminated, problemAt_rows hr, List.map_map]
  rfl

theorem eliminated_problemAt_length (cfg : Config) : ((problemAt m d).eliminated cfg m).length = r := by
  rw [eliminated_problemAt hr, List.length_map, List.length_range]

theorem getD_eliminated_problemAt (cfg : Config) {i : Nat} (hi : i < r) :
    ((problemAt m d).eliminated cfg m).getD i WorkRow.none
      = (rowEntryAt m (rowEntryAddr d i)).eliminated cfg m (problemAt m d) := by
  rw [eliminated_problemAt hr]
  simp [List.getD_eq_getElem?_getD, hi]

variable (hc : m.readLE (d + 2) 2 = c)
include hc

theorem problemAt_cols_length : (problemAt m d).cols.length = c := by
  rw [problemAt_cols hr hc, List.length_map, List.length_range]

/-- The matrix that SOLVE eliminates is M. -/
theorem entryAt_eliminated_problemAt (cfg : Config) {i j : Nat} (hi : i < r) (hj : j < c) :
    entryAt ((problemAt m d).eliminated cfg m) i j = matrixAt cfg m d r i j := by
  obtain ⟨hcoefs, _⟩ := rowEntry_eliminated cfg m (problemAt m d) (rowEntryAt m (rowEntryAddr d i))
  rw [entryAt, getD_eliminated_problemAt hr cfg hi, hcoefs, problemAt_lost hr hc]
  simp [List.getD_eq_getElem?_getD, hj, initCoef_rowEntryAt, matrixAt]

/-- The problem in PMEM has no solution exactly where the columns of M are linearly dependent. -/
theorem solution_problemAt_eq_none_iff (hprim : primitive cfg.gfPoly = true) :
    (problemAt m d).solution cfg m = none ↔ DependentColumns cfg.gfPoly (matrixAt cfg m d r) r c := by
  have hrows : (problemAt m d).rows.length = r := by rw [problemAt_rows hr, List.length_map, List.length_range]
  rw [solution_eq_none_iff_dependent hprim, hrows, problemAt_cols_length hr hc]
  refine exists_congr fun x => and_congr_right fun _ => forall₂_congr fun i hi => ?_
  rw [xorOver_congr fun j hj => by rw [entryAt_eliminated_problemAt hr hc cfg hi hj]]

/-- R180's checks are the model's. -/
theorem extractionOk_iff {len : Nat} {xs : List (List Byte)} (hlen : xs.length = c) :
    extractionOk cfg len (problemAt m d).cols xs = true ↔ PayloadsFit cfg m d r c len xs := by
  refine ⟨fun hok j hj => ?_, extractionOk_of_fit hr hc hlen⟩
  rw [extractionOk, zip_cols_eq hr hc hlen, List.all_map, List.all_eq_true] at hok
  obtain ⟨hprefix, hslot⟩ := Bool.and_eq_true_iff.mp (hok j (List.mem_range.mpr hj))
  exact ⟨of_decide_eq_true hprefix, (inRange_iff _ _ _).mp hslot⟩

end

/-- Settles O40: the model refuses the solution where the statement's length does not fit. -/
theorem solveRefusesBadPrefix : Obligations.SolveRefusesBadPrefix := by
  rintro s _ r c len xs piv rfl hr hc hchecks hsol hlong ⟨j, hj, hbad⟩
  have hbytes := solutionBytes_eq_of_longest hr hlong
  have hlen : xs.length = c := (solution_length hsol).trans (problemAt_cols_length hr hc)
  have hrefused : extractionOk s.cfg len (problemAt s.pmem s.latch.larg0.toNat).cols xs ≠ true := by
    rw [Ne, extractionOk_iff hr hc hlen]
    intro hfit
    obtain ⟨hprefix, hslot⟩ := hfit j hj
    omega
  refine ⟨_, execSolve_of_failed ?_, onlyReported_raise s .invalidInput⟩
  rw [solveOutcome, argA, hchecks]
  simp only [solveProblem, hsol, hbytes, if_neg hrefused]

/-- SOLVE with its checks passed on a problem with no solution (42_solver.md R185). -/
theorem execSolve_of_deficient {s : State} (hchecks : solveFailure s.cfg s.pmem (argA s) = none)
    (hsol : (problemAt s.pmem (argA s)).solution s.cfg s.pmem = none) :
    execSolve s = .next ((s.setSlv (s.regs.slvFails + 1)
      (BitVec.ofNat 64 ((problemAt s.pmem (argA s)).lost.headD 0))).raise .needsMoreData) := by
  rw [execSolve, solveOutcome, hchecks]
  simp only [solveProblem, hsol]

/-- Settles O38: with no solution SOLVE counts the deficiency, and a solution is missing exactly on dependent columns. -/
theorem rankDeficiencyIsCounted : Obligations.RankDeficiencyIsCounted := by
  rintro s _ r c rfl hr hc hchecks
  refine ⟨fun hsol => ?_, fun hcfg => ?_⟩
  · have hcount : 1 ≤ c := by
      obtain ⟨_, hcounts, _⟩ := solveFailure_eq_none_iff.mp hchecks
      simp only [countsOk, headerCols, hc, Bool.and_eq_true, decide_eq_true_eq] at hcounts
      omega
    have hlowest : (problemAt s.pmem (argA s)).lost.headD 0 = lostOf s.pmem (argA s) r 0 := by
      rw [problemAt_lost (d := argA s) hr hc, List.headD_eq_head?_getD, List.head?_map, List.head?_range,
        if_neg (by omega)]
      rfl
    refine ⟨_, execSolve_of_deficient hchecks hsol, ⟨rfl, rfl, rfl, rfl, rfl, rfl, rfl, rfl, rfl, rfl, rfl, rfl, rfl, rfl,
      rfl, rfl, rfl⟩, rfl, fun _ => rfl, BitVec.toNat_add _ _, ?_⟩
    rw [hlowest]
    exact (BitVec.toNat_ofNat _ _).trans (Nat.mod_eq_of_lt (Memory.readLE_lt _ _ _))
  · obtain ⟨hprim, _⟩ := (config_wf_iff s.cfg).mp hcfg
    exact solution_problemAt_eq_none_iff hr hc hprim

/-! The write set of SOLVE (70_reset_and_hazards.md R242). -/

section
variable {s : State} {xs : List (List Byte)} {piv : List Nat}

/-- What a SOLVE that succeeds has passed, and what it writes. -/
theorem execSolve_success {t : State} (h : execSolve s = .next t) (hsucc : t.regs.result = .success) :
    ∃ xs piv, solveFailure s.cfg s.pmem (argA s) = none
      ∧ (problemAt s.pmem (argA s)).solution s.cfg s.pmem = some (xs, piv)
      ∧ extractionOk s.cfg (problemAt s.pmem (argA s)).solutionBytes (problemAt s.pmem (argA s)).cols xs = true
      ∧ writeSet .solve s = (payloadCells (problemAt s.pmem (argA s)).cols xs
          ++ columnCells (argA s) (problemAt s.pmem (argA s)).rows.length xs
          ++ rowCells (argA s) (problemAt s.pmem (argA s)).rows.length piv).map Prod.fst := by
  have hfailed : ∀ code, solveOutcome s.cfg s.pmem (argA s) ≠ .failed code := fun code ho => by
    rw [execSolve_of_failed ho] at h
    cases h
    obtain rfl : code = .success := hsucc
    obtain hcode | hcode := solveOutcome_code ho <;> cases hcode
  obtain ⟨code, _, ho⟩ | ⟨hchecks, hsol, ho⟩ | ⟨xs, piv, hchecks, hsol, ⟨_, ho⟩ | ⟨hfit, ho⟩⟩ :=
    solveOutcome_cases s.cfg s.pmem (argA s)
  · exact absurd ho (hfailed code)
  · rw [execSolve_of_deficient hchecks hsol] at h
    cases h
    cases hsucc
  · exact absurd ho (hfailed _)
  · exact ⟨xs, piv, hchecks, hsol, hfit, by simp only [writeSet, ho]⟩

/-- The addresses that the write-back covers are the outputs of the rule. -/
theorem mem_solve_cells_iff {cfg : Config} {m : Memory} {d r c a : Nat} (hr : m.readLE d 2 = r)
    (hc : m.readLE (d + 2) 2 = c) (hsol : (problemAt m d).solution cfg m = some (xs, piv))
    (hfit : extractionOk cfg (problemAt m d).solutionBytes (problemAt m d).cols xs = true) :
    a ∈ (payloadCells (problemAt m d).cols xs ++ columnCells d (problemAt m d).rows.length xs
        ++ rowCells d (problemAt m d).rows.length piv).map Prod.fst
      ↔ solveOutput m d r c xs a := by
  obtain ⟨hlen, hshape, _⟩ := solution_shape hsol
  rw [problemAt_cols_length hr hc] at hlen
  have hrows : (problemAt m d).rows.length = r := by rw [problemAt_rows hr, List.length_map, List.length_range]
  have hpayload := fun j hj => payload_length_of_fit (j := j) hlen hshape ((extractionOk_iff hr hc hlen).mp hfit) hj
  rw [payloadCells_eq hr hc hlen, columnCells_eq, rowCells_eq, hlen, hrows, List.map_append, List.map_append,
    List.mem_append, List.mem_append, mem_blockCells_addr_iff, mem_blockCells_addr_iff, mem_blockCells_addr_iff,
    or_assoc]
  refine or_congr (exists_congr fun j => and_congr_right fun hj => ?_)
    (or_congr (exists_congr fun j => and_congr_right fun _ => ?_) (exists_congr fun i => and_congr_right fun _ => ?_))
  · rw [InBlock, hpayload j hj]
  · rw [InBlock, columnOutput_length]
  · rw [InBlock, rowOutput_length]
    omega

end

/-! The write set of every command. -/

/-- The listed bytes of a command that writes [dst, dst + n). -/
theorem mem_range'_iff_of_eq {a x n n' : Nat} (h : n = n') : x ∈ List.range' a n ↔ a ≤ x ∧ x < a + n' := by
  rw [h, List.mem_range'_1]

/-- RES3 of a row generation that succeeds is outLen. -/
theorem toNat_results_r3 (job : RowJob) (start : Seq) : (job.results start).r3.toNat = outLen job.es :=
  (BitVec.toNat_ofNat _ _).trans (Nat.mod_eq_of_lt (outLen_lt job.es))

/-- The write set of a command that succeeds is the one that the rule lists. -/
theorem mem_writeSet_iff {i : Instr} {s t : State} (h : exec i s = .next t) (hsucc : t.regs.result = .success) {a : Nat} :
    a ∈ writeSet i s ↔ listedWriteSet i s t a := by
  cases i with
  | muladdMem c =>
    obtain ⟨code, hfail, rfl⟩ | ⟨hpass, rfl⟩ := bulk_cases h
    · exact absurd (bulkFailure_code hfail ▸ hsucc) nofun
    · rw [writeSet, hpass]
      exact mem_range'_iff_of_eq rfl
  | mulMem c =>
    obtain ⟨code, hfail, rfl⟩ | ⟨hpass, rfl⟩ := bulk_cases h
    · exact absurd (bulkFailure_code hfail ▸ hsucc) nofun
    · rw [writeSet, hpass]
      exact mem_range'_iff_of_eq rfl
  | genRow row =>
    obtain ⟨code, hfail, rfl⟩ | ⟨hpass, rfl⟩ := execGenRow_cases h
    · obtain rfl : code = .success := hsucc
      obtain hcode | hcode := genRowFailure_code hfail <;> cases hcode
    · rw [writeSet, hpass]
      exact mem_range'_iff_of_eq (toNat_results_r3 _ (genRowJob row s).start).symm
  | encRecovery =>
    obtain ⟨hpass, rfl⟩ := encRecovery_success h hsucc
    rw [writeSet, hpass]
    exact mem_range'_iff_of_eq (toNat_results_r3 _ s.enc.spanStart).symm
  | solve =>
    obtain ⟨xs, piv, _, hsol, hfit, hset⟩ := execSolve_success h hsucc
    rw [hset, mem_solve_cells_iff rfl rfl hsol hfit]
    refine ⟨fun hout => ⟨xs, piv, hsol, hout⟩, fun ⟨xs', piv', hsol', hout⟩ => ?_⟩
    obtain ⟨rfl, rfl⟩ : xs = xs' ∧ piv = piv' := by simpa using hsol.symm.trans hsol'
    exact hout
  | _ => exact iff_of_false List.not_mem_nil id

/-- Settles O13: the frame of a command, its listed bytes on success, and none on failure. -/
theorem writeSetBoundsWrites : Obligations.WriteSetBoundsWrites := by
  intro i s t h
  refine ⟨fun a ha => exec_frame h ha, fun hsucc a => mem_writeSet_iff h hsucc, fun hne => ?_⟩
  obtain ⟨hsucc, _⟩ | ⟨_, hends⟩ := exec_result h
  · exact absurd hsucc hne
  · exact writeSet_eq_nil_of_unsuccessful hends

end Sys2Proof.Machine
end

section
/-! SUPPORT and the statement of 42_solver.md R179 and R183: what the recovered payloads solve, and the single loss. -/

namespace Sys2Proof.Machine

/-- The solution of the problem in PMEM solves the pivot rows of M. -/
theorem solution_problemAt_solves {cfg : Config} {m : Memory} {d r c n len : Nat} {xs : List (List Byte)}
    {piv : List Nat} (hcfg : cfg.wf = true) (hr : m.readLE d 2 = r) (hc : m.readLE (d + 2) 2 = c)
    (hn : m.readLE (d + 4) 2 = n) (hlong : LongestRow m d r len) (hsol : (problemAt m d).solution cfg m = some (xs, piv))
    {i b : Nat} (hi : i ∈ piv) (hb : b < len) :
    xorOver c (fun j => gfMul cfg.gfPoly (matrixAt cfg m d r i j) ((xs.getD j []).getD b 0))
      = lostPartAt cfg m d r c n i b := by
  obtain ⟨hprim, _⟩ := (config_wf_iff cfg).mp hcfg
  obtain ⟨_, _, _, _, hlt⟩ := solution_shape hsol
  have hir : i < r := by
    have hlt' := hlt i hi
    rwa [problemAt_rows hr, List.length_map, List.length_range] at hlt'
  rw [← solutionBytes_eq_of_longest hr hlong] at hb
  have hrow := solution_solves hsol hprim hi hb
  rw [problemAt_cols_length hr hc, getD_eliminated_problemAt hr cfg hir, getD_eliminated_data hr hc hn cfg i hb] at hrow
  rw [← hrow]
  exact xorOver_congr fun j hj => by rw [entryAt_eliminated_problemAt hr hc cfg hir hj]

/-! The checks, sequence by sequence. -/

theorem gfInv_ne_zero {poly : BitVec 9} (hprim : primitive poly = true) {b : Byte} (hb : b ≠ 0) : gfInv poly b ≠ 0 := by
  intro hzero
  have hone := gfMul_gfInv_right hprim hb
  rw [hzero, gfMul_comm (getLsbD_of_primitive hprim)] at hone
  exact absurd ((zero_gfMul (getLsbD_of_primitive hprim) b).symm.trans hone) (by decide)

/-- A coefficient that is not degenerate is not 0 (40_gf256.md R118). -/
theorem coefAt_ne_zero {cfg : Config} (hprim : primitive cfg.gfPoly = true) {row : Byte} {q : Nat}
    (h : ¬(row ≠ 0 ∧ row = columnAt cfg q)) : coefAt cfg row q ≠ 0 := by
  rw [coefAt]
  split
  · decide
  · exact gfInv_ne_zero hprim fun hden => h ⟨‹_›, BitVec.xor_eq_zero_iff.mp hden⟩

section
variable {cfg : Config} {p : Problem}

/-- Check 9, at one sequence of one row. -/
theorem coefAt_ne_zero_of_checks (hprim : primitive cfg.gfPoly = true) (hcoefs : p.coefsOk cfg = true) {r : RowEntry}
    (hr : r ∈ p.rows) {q : Nat} (hq : r.covers q = true) : coefAt cfg r.row q ≠ 0 := by
  rw [Problem.coefsOk, List.all_eq_true] at hcoefs
  have hspan := List.all_eq_true.mp (hcoefs r hr) q ((mem_span_iff r q).mpr hq)
  rw [Bool.not_eq_true', Bool.eq_false_iff, Ne, degenerateAt_columnByte_iff] at hspan
  exact coefAt_ne_zero hprim hspan

end

/-! The single loss (42_solver.md R183). -/

section
variable {cfg : Config} {p : Problem} {r : RowEntry} {c : ColEntry} (hrows : p.rows = [r]) (hcols : p.cols = [c])

include hrows in
theorem covers_of_inU {q : Nat} (h : p.inU q = true) : r.covers q = true := by
  simpa [Problem.inU, hrows] using h

include hrows in
theorem covers_of_mem_recv (hform : p.FormOk cfg) {e : RecvEntry} (he : e ∈ p.recv) : r.covers e.seq = true := by
  obtain ⟨_, _, hrecv, _⟩ := hform
  simp only [Problem.receivedOk, Bool.and_eq_true, List.all_eq_true] at hrecv
  obtain ⟨⟨⟨_, hin⟩, _⟩, _⟩ := hrecv
  exact covers_of_inU hrows (hin e.seq (List.mem_map_of_mem he))

include hrows hcols in
theorem covers_of_lost (hform : p.FormOk cfg) : r.covers c.seq = true := by
  obtain ⟨_, hlost, _⟩ := hform
  simp only [Problem.lostOk, Problem.lost, hcols, Bool.and_eq_true, List.all_eq_true] at hlost
  exact covers_of_inU hrows (hlost.2 c.seq (List.mem_singleton_self _))

/-- Where every received original lies in the row's span, each of them contributes. -/
theorem receivedPart_of_covers (m : Memory) {es : List RecvEntry} (h : ∀ e ∈ es, r.covers e.seq = true) (b : Nat) :
    receivedPart cfg m r es b
      = es.foldr (fun e acc => gfMul cfg.gfPoly (coefAt cfg r.row e.seq) (prefixedByte m e.addr e.len b) ^^^ acc) 0 := by
  induction es with
  | nil => rfl
  | cons e es ih =>
    obtain ⟨he, hes⟩ := List.forall_mem_cons.mp h
    rw [receivedPart, List.foldr_cons, ← receivedPart, ih hes, if_pos he, List.foldr_cons]

include hrows hcols in
/-- The one coefficient of the one row. -/
theorem entryAt_single (m : Memory) (hcovers : r.covers c.seq = true) :
    entryAt (p.eliminated cfg m) 0 0 = coefAt cfg r.row c.seq := by
  obtain ⟨hcoefs, _⟩ := rowEntry_eliminated cfg m p r
  simp [entryAt, Problem.eliminated, hrows, hcoefs, Problem.lost, hcols, RowEntry.initCoef, hcovers, coef_eq_coefAt]

include hrows hcols in
/-- One row with a nonzero coefficient finds its one column. -/
theorem exists_single_solution (m : Memory) (hprim : primitive cfg.gfPoly = true)
    (hne : entryAt (p.eliminated cfg m) 0 0 ≠ 0) : ∃ x, p.solution cfg m = some ([x], [0]) := by
  cases hsol : p.solution cfg m with
  | none =>
    obtain ⟨x, ⟨j, hj, hx⟩, hrow⟩ := (solution_eq_none_iff_dependent hprim).mp hsol
    rw [hrows, hcols] at hrow
    rw [hcols] at hj
    obtain rfl : j = 0 := Nat.lt_one_iff.mp hj
    have hzero : gfMul cfg.gfPoly (entryAt (p.eliminated cfg m) 0 0) (x 0) = 0 := by
      simpa [xorOver_succ, xorOver_zero] using hrow 0 Nat.one_pos
    exact absurd hzero (gfMul_ne_zero hprim hne hx)
  | some sol =>
    obtain ⟨xs, piv⟩ := sol
    obtain ⟨hlen, _, hpivLen, _, hlt⟩ := solution_shape hsol
    rw [hcols] at hlen hpivLen
    rw [hrows] at hlt
    obtain ⟨x, rfl⟩ := List.length_eq_one_iff.mp hlen
    obtain ⟨i, rfl⟩ := List.length_eq_one_iff.mp hpivLen
    obtain rfl : i = 0 := Nat.lt_one_iff.mp (hlt i (List.mem_singleton_self i))
    exact ⟨x, rfl⟩

end

/-- Settles O43: the pivot rows of M are solved, and the one row of a single loss is the one pivot row. -/
theorem singleLossIsOneDivision : Obligations.SingleLossIsOneDivision := by
  constructor
  · intro cfg m d r c n len xs piv hcfg hr hc hn _ hlong hsol
    obtain ⟨hlen, hshape, _⟩ := solution_shape hsol
    exact ⟨hlen.trans (problemAt_cols_length hr hc),
      fun x hx => (hshape x hx).trans (solutionBytes_eq_of_longest hr hlong),
      fun i hi b hb => solution_problemAt_solves hcfg hr hc hn hlong hsol hi hb⟩
  · intro cfg m p r c hcfg hrows hcols hchecks
    obtain ⟨hprim, _⟩ := (config_wf_iff cfg).mp hcfg
    obtain ⟨hform, hcoefs⟩ := problem_failure_eq_none_iff.mp hchecks
    have hcovers := covers_of_lost hrows hcols hform
    have hentry := entryAt_single (cfg := cfg) hrows hcols m hcovers
    have hne := coefAt_ne_zero_of_checks hprim hcoefs (hrows ▸ List.mem_singleton_self r) hcovers
    obtain ⟨x, hsol⟩ := exists_single_solution hrows hcols m hprim (hentry.symm ▸ hne)
    obtain ⟨_, hshape, _⟩ := solution_shape hsol
    have hbytes : p.solutionBytes = r.plen := by simp [Problem.solutionBytes, hrows]
    refine ⟨x, hsol, (hshape x (List.mem_singleton_self x)).trans hbytes, fun b hb => ?_⟩
    obtain ⟨_, _, hdata⟩ := rowEntry_eliminated cfg m p r
    have hrow := solution_solves hsol hprim (List.mem_singleton_self 0) (hbytes.symm ▸ hb)
    have hfirst : (p.eliminated cfg m).getD 0 WorkRow.none = r.eliminated cfg m p := by
      rw [Problem.eliminated, hrows]
      rfl
    rw [hfirst, hdata b (hbytes.symm ▸ hb), receivedPart_of_covers m fun e he => covers_of_mem_recv hrows hform he,
      RowEntry.initData, if_pos hb, hcols] at hrow
    rw [← hrow, ← hentry]
    simp [xorOver_succ, xorOver_zero]

end Sys2Proof.Machine
end

section
/-! SUPPORT and the statement of 42_solver.md R182: on a problem whose rows agree with some originals, elimination starts from
rows that the originals solve, so its solution is the originals. -/

namespace Sys2Proof.Machine

/-! The XOR over a list of sequences. -/

/-- The XOR of `f q` over the sequences of a list. -/
def xorAll (f : Nat → Byte) (qs : List Nat) : Byte := qs.foldr (fun q acc => f q ^^^ acc) 0

theorem xorOver_eq_xorAll (n : Nat) (f : Nat → Byte) : xorOver n f = xorAll f (List.range n) := rfl

theorem xorAll_map (f : Nat → Byte) (g : Nat → Nat) (qs : List Nat) : xorAll f (qs.map g) = xorAll (fun q => f (g q)) qs :=
  List.foldr_map

theorem xorAll_append (f : Nat → Byte) (qs qs' : List Nat) : xorAll f (qs ++ qs') = xorAll f qs ^^^ xorAll f qs' := by
  rw [xorAll, List.foldr_append, foldr_xor_init]
  rfl

theorem xorAll_perm (f : Nat → Byte) {qs qs' : List Nat} (h : qs.Perm qs') : xorAll f qs = xorAll f qs' :=
  h.foldr_eq' (fun x _ y _ z => by ac_rfl) 0

/-- Only the sequences that contribute count. -/
theorem xorAll_ite (f : Nat → Byte) (P : Nat → Bool) (qs : List Nat) :
    xorAll (fun q => if P q then f q else 0) qs = xorAll f (qs.filter P) := by
  induction qs with
  | nil => rfl
  | cons q qs ih =>
    rw [List.filter_cons, xorAll, List.foldr_cons, ← xorAll, ih]
    cases P q
    · exact BitVec.zero_xor
    · rfl

/-- An XOR over the places of a list is the XOR over the list. -/
theorem xorOver_getD (f : Nat → Byte) (qs : List Nat) : xorOver qs.length (fun j => f (qs.getD j 0)) = xorAll f qs := by
  have hlist : (List.range qs.length).map (fun j => qs.getD j 0) = qs := by
    apply List.ext_getElem <;> simp +contextual [List.getD_eq_getElem?_getD]
  rw [xorOver_eq_xorAll, ← xorAll_map f (fun j => qs.getD j 0), hlist]

/-! A row's span is its lost and its received sequences (42_solver.md R172, checks 4 to 7). -/

theorem nodup_of_strictlyAscending {qs : List Nat} (h : strictlyAscending qs = true) : qs.Nodup :=
  ((strictlyAscending_iff_pairwise qs).mp h).imp Nat.ne_of_lt

theorem span_nodup (r : RowEntry) : r.span.Nodup :=
  List.nodup_range.map fun _ _ h => Nat.add_left_cancel h

section
variable {cfg : Config} {m : Memory} {p : Problem} {r : RowEntry}

theorem span_perm (hform : p.FormOk cfg) (hr : r ∈ p.rows) :
    r.span.Perm (p.lost.filter r.covers ++ p.received.filter r.covers) := by
  obtain ⟨_, hlost, hrecv, hcover, _⟩ := hform
  simp only [Problem.lostOk, Problem.receivedOk, Bool.and_eq_true] at hlost hrecv
  obtain ⟨hlostAsc, _⟩ := hlost
  obtain ⟨⟨⟨hrecvAsc, _⟩, hnotLost⟩, _⟩ := hrecv
  have hdisjoint : (p.lost.filter r.covers).Disjoint (p.received.filter r.covers) := fun q hq hq' => by
    have hnot := List.all_eq_true.mp hnotLost q (List.mem_of_mem_filter hq')
    simp [List.mem_of_mem_filter hq] at hnot
  have hnodup : (p.lost.filter r.covers ++ p.received.filter r.covers).Nodup :=
    ((nodup_of_strictlyAscending hlostAsc).filter _).append ((nodup_of_strictlyAscending hrecvAsc).filter _) hdisjoint
  refine (List.perm_ext_iff_of_nodup (span_nodup r) hnodup).mpr fun q => ?_
  rw [List.mem_append, List.mem_filter, List.mem_filter, ← or_and_right, mem_span_iff]
  refine ⟨fun hq => ⟨?_, hq⟩, And.right⟩
  have hall := List.all_eq_true.mp (List.all_eq_true.mp hcover r hr) q ((mem_span_iff r q).mpr hq)
  simpa using hall

/-! The originals solve the rows that elimination starts from. -/

/-- What the original of a sequence adds to byte `b` of a row. -/
def contribution (cfg : Config) (r : RowEntry) (orig : Nat → Nat → Byte) (b q : Nat) : Byte :=
  gfMul cfg.gfPoly (coefAt cfg r.row q) (orig q b)

variable {orig : Nat → Nat → Byte} {b : Nat}

/-- The received originals' part of a consistent row. -/
theorem receivedPart_of_consistent (hcons : Consistent cfg m p orig) (hb : b < p.solutionBytes) :
    receivedPart cfg m r p.recv b = xorAll (contribution cfg r orig b) (p.received.filter r.covers) := by
  have hsame : ∀ es : List RecvEntry, (∀ e ∈ es, orig e.seq b = prefixedByte m e.addr e.len b) →
      receivedPart cfg m r es b
        = xorAll (fun q => if r.covers q then contribution cfg r orig b q else 0) (es.map RecvEntry.seq) := by
    intro es hes
    induction es with
    | nil => rfl
    | cons e es ih =>
      obtain ⟨he, hes⟩ := List.forall_mem_cons.mp hes
      rw [receivedPart, List.foldr_cons, ← receivedPart, ih hes, ← he]
      rfl
  rw [hsame p.recv fun e he => hcons.received e he b hb, xorAll_ite]
  rfl

/-- The payload of a consistent row. -/
theorem initData_of_consistent (hcons : Consistent cfg m p orig) (hr : r ∈ p.rows) (hb : b < p.solutionBytes) :
    r.initData m b = xorAll (contribution cfg r orig b) r.span := by
  rw [RowEntry.initData, hcons.rows r hr b hb, RowEntry.span, xorAll_map]
  rfl

/-- The lost originals' part of a row. -/
theorem lostPart_eq_xorAll (hpoly : cfg.gfPoly.getLsbD 8 = true) :
    xorOver p.cols.length (fun j => gfMul cfg.gfPoly ((r.eliminated cfg m p).coefs.getD j 0) (orig (p.lost.getD j 0) b))
      = xorAll (contribution cfg r orig b) (p.lost.filter r.covers) := by
  have hlen : p.lost.length = p.cols.length := List.length_map _
  obtain ⟨hcoefs, _⟩ := rowEntry_eliminated cfg m p r
  rw [← xorAll_ite, ← xorOver_getD, hlen]
  refine xorOver_congr fun j hj => ?_
  have hcoef : (r.eliminated cfg m p).coefs.getD j 0 = r.initCoef cfg (p.lost.getD j 0) := by
    simp [hcoefs, List.getD_eq_getElem?_getD, hlen, hj]
  rw [hcoef, RowEntry.initCoef, coef_eq_coefAt, contribution]
  split
  · rfl
  · exact zero_gfMul hpoly _

/-- The originals solve each row after EliminateOriginals. -/
theorem defect_eliminated_of_consistent (hpoly : cfg.gfPoly.getLsbD 8 = true) (hform : p.FormOk cfg)
    (hcons : Consistent cfg m p orig) (hr : r ∈ p.rows) (hb : b < p.solutionBytes) :
    (r.eliminated cfg m p).defect cfg.gfPoly p.cols.length (fun j => orig (p.lost.getD j 0) b) b = 0 := by
  obtain ⟨_, _, hdata⟩ := rowEntry_eliminated cfg m p r
  rw [defect_eq_zero_iff, lostPart_eq_xorAll hpoly, hdata b hb, initData_of_consistent hcons hr hb,
    receivedPart_of_consistent hcons hb, xorAll_perm _ (span_perm hform hr), xorAll_append, BitVec.xor_assoc,
    BitVec.xor_self, BitVec.xor_zero]

end

/-- Settles O42: the lost originals solve every row, and the solution is the only one. -/
theorem solveRecoversOriginals : Obligations.SolveRecoversOriginals := by
  intro cfg m p orig xs piv hcfg hchecks hcons hsol
  obtain ⟨hprim, _⟩ := (config_wf_iff cfg).mp hcfg
  obtain ⟨hform, _⟩ := problem_failure_eq_none_iff.mp hchecks
  obtain ⟨hlen, hshape, _⟩ := solution_shape hsol
  have hlost : p.lost.length = p.cols.length := List.length_map _
  have hsolved : ∀ b, b < p.solutionBytes → ∀ i, i < (p.eliminated cfg m).length →
      ((p.eliminated cfg m).getD i WorkRow.none).defect cfg.gfPoly p.cols.length (fun j => orig (p.lost.getD j 0) b) b
        = 0 := by
    intro b hb i hi
    rw [List.getD_eq_getElem _ _ hi]
    obtain ⟨r, hr, hw⟩ := List.mem_map.mp (List.getElem_mem hi)
    rw [← hw]
    exact defect_eliminated_of_consistent (getLsbD_of_primitive hprim) hform hcons hr hb
  refine List.ext_getElem (by rw [List.length_map, hlen, hlost]) fun j hj hj' => ?_
  have hbytes : xs[j].length = p.solutionBytes := hshape _ (List.getElem_mem hj)
  refine List.ext_getElem (by simp [hbytes]) fun b hb _ => ?_
  have hunique := solution_unique hsol hprim (hbytes ▸ hb) (hsolved b (hbytes ▸ hb)) (hlen ▸ hj)
  rw [List.getD_eq_getElem _ _ hj, List.getD_eq_getElem _ _ hb, List.getD_eq_getElem _ _ (hlost ▸ hlen ▸ hj)] at hunique
  simp [hunique]

end Sys2Proof.Machine
end
